-- ==== Sys2Proof/Word.lean ====
section
/-! DEFINITION. The word types of HTB: bytes, 32-bit registers, 64-bit counts, 72-bit weights, handles. -/

namespace Sys2Proof

/-- A byte of buffer memory (20_memory.md R70), and a symbol: "a single byte value" (00_scope.md R6). -/
abbrev Byte := BitVec 8

/-- A symbol 0..255, the index of FREQ, CODE and CODEV (00_scope.md R6). -/
abbrev Symbol := BitVec 8

/-- A host-visible register and a command word (00_scope.md R7, 30_encoding.md R100). -/
abbrev Word := BitVec 32

/-- A frequency count, TOTAL and UREM: unsigned 64-bit (00_scope.md R6). -/
abbrev Count := BitVec 64

/-- A node weight and FSUM: 72 bits, so that no sum of counts wraps (00_scope.md R7, `WEIGHT_BITS`). -/
abbrev Weight := BitVec 72

/-- A 9-bit node handle, as ROOT, UCUR, NODESEL and a node's children hold it (10_state.md R42). -/
abbrev Handle := BitVec 9

/-- Bits `[31:0]` of a 64-bit register pair (20_memory.md R72). -/
def Count.low (c : Count) : Word := c.setWidth 32

/-- Bits `[63:32]` of a 64-bit register pair (20_memory.md R72). -/
def Count.high (c : Count) : Word := (c >>> 32).setWidth 32

/-- A 64-bit register from its two words, the high word first. -/
def Count.ofWords (hi lo : Word) : Count := hi ++ lo

end Sys2Proof
end

