-- ==== Sys2Proof/Config.lean ====
section
/-! DEFINITION. What is fixed for the machine (00_scope.md R6, R7), the open parameters and the free values. -/

namespace Sys2Proof

/-- Number of symbols (00_scope.md R6). -/
def Config.symbols : Nat := 256

/-- Number of nodes of the arena, 2 x 256 - 1 (00_scope.md R6). -/
def Config.nodes : Nat := 511

/-- Size of the single-file header in bytes (00_scope.md R6, 43_header.md R200). -/
def Config.headerBytes : Nat := 2056

/-- The default of the parameter MEM_BYTES (00_scope.md R7). -/
def Config.defaultMemBytes : Nat := 65536

/-- The values 00_scope.md R7 allows for MEM_BYTES: the powers of two from 4096 to 1048576. -/
def Config.memSizes : List Nat :=
  [4096, 8192, 16384, 32768, 65536, 131072, 262144, 524288, 1048576]

/-- The aperture offset of buffer byte 0 (10_state.md section 2, 20_memory.md R70). -/
def Config.windowBase : Nat := 0x100000

/-- Bytes of bus address space the block decodes (00_scope.md R7). -/
def Config.apertureBytes : Nat := 0x200000

/-- The constant of the ID register (10_state.md R22). -/
def Config.idValue : Word := 0x48554631#32

/-- The constant of the VERSION register (10_state.md R23). -/
def Config.versionValue : Word := 0x00010000#32

/-- 2^63 - 1: the largest TOTAL that HIST leaves (40_frequency.md R124). -/
def Config.maxTotal : Count := 0x7FFFFFFFFFFFFFFF#64

/-- 2^64 - 1: the largest count of one symbol (40_frequency.md R124). -/
def Config.maxCount : Count := 0xFFFFFFFFFFFFFFFF#64

/-- OPEN parameter (log entry 8): which multiple of 0x200000 the aperture stands at.
No body, so nothing can be proved about the platform's choice. -/
opaque Config.baseIndex : Nat

/-- BASE_ADDR, a multiple of 0x200000 (00_scope.md R7, 92_eei_decisions.md D37). -/
def Config.baseAddr : Nat := 0x200000 * Config.baseIndex

/-- OPEN parameter (log entry 8): IRQ_LINE, the platform interrupt input that IRQ drives (00_scope.md R7). -/
opaque Config.irqLine : Nat

/-- FREE VALUE (log entry 3): what the buffer byte at an address holds while nothing has written it, where `epoch`
counts how often storage has become unspecified (10_state.md R48). The same at every read (20_memory.md R79). -/
opaque Config.storedByte : (epoch addr : Nat) → Byte

/-- FREE VALUE (log entry 3): the same for the words of FREQ; word 2s is the low word of FREQ[s], word 2s + 1 the high
one (10_state.md R48). -/
opaque Config.storedWord : (epoch word : Nat) → Word

/-- FREE VALUE (log entry 3): the n-th unconstrained byte, for a host read in the running command's write set
(20_memory.md R82). -/
opaque Config.freeByte : Nat → Byte

/-- FREE VALUE (log entry 3): the n-th unconstrained word, for a host read of an engine-owned register while BUSY = 1
(10_state.md R50). -/
opaque Config.freeWord : Nat → Word

end Sys2Proof
end

