-- ==== Sys2Proof/Machine/State.lean ====
section
/-! DEFINITION. The state of the machine: everything spec/ gives HTB, as plain data, and its value after hard reset
(10_state.md R20, R52; 70_reset_and_hazards.md R260). -/

namespace Sys2Proof.Machine

/-- A node of the tree arena (10_state.md R42): `sym` is meaningful only for a leaf, `left` and `right` only for an
internal node, so each shape carries what is meaningful for it. -/
inductive Node where
  | leaf (sym : Symbol) (weight : Weight)
  | internal (left right : Handle) (weight : Weight)
  deriving DecidableEq, Repr

/-- The error codes of 60_exceptions.md R225 (codes 0x0C to 0xFF are never reported). -/
inductive ErrCode where
  /-- NONE, 0x00. -/
  | noError
  /-- BADCMD, 0x01. -/
  | badCmd
  /-- RANGE, 0x02. -/
  | range
  /-- OVERLAP, 0x03. -/
  | overlap
  /-- OVERFLOW, 0x04. -/
  | overflow
  /-- NO_TREE, 0x05. -/
  | noTree
  /-- NO_CODE, 0x06. -/
  | noCode
  /-- DST_FULL, 0x07. -/
  | dstFull
  /-- TRUNCATED, 0x08. -/
  | truncated
  /-- ZERO_COUNT, 0x09. -/
  | zeroCount
  /-- SHORT_HDR, 0x0A. -/
  | shortHdr
  /-- NOT_INIT, 0x0B. -/
  | notInit
  deriving DecidableEq, Repr

/-- The width of a host access (20_memory.md R74). -/
inductive Width where
  | byte
  | half
  | word
  deriving DecidableEq, Repr

/-- One host bus access, at an aperture offset (relative to BASE_ADDR, as 10_state.md section 2 gives offsets). -/
inductive Access where
  | read (w : Width) (off : Nat)
  | write (w : Width) (off : Nat) (v : Word)
  deriving DecidableEq, Repr

/-- Who moves next (log entry 9): the Engine, the Host with one access, or the platform with a hard reset. -/
inductive Turn where
  | engine
  | host (a : Access)
  | hardReset
  deriving DecidableEq, Repr

/-- What the bus answers to a host access. -/
inductive Reply where
  /-- The data of a read, zero-extended to 32 bits. -/
  | value (v : Word)
  /-- A write was taken by the bus (performed, ignored or dropped as the register's rule says). -/
  | done
  /-- The bus error response of 20_memory.md R75 and R76. -/
  | busError
  /-- The offset lies outside the aperture, so the block does not decode it (20_memory.md R76). -/
  | notDecoded
  deriving DecidableEq, Repr

/-- Buffer memory: the defined bytes (MDEF true, 10_state.md R48), addresses strictly rising.
An address that is not listed holds no value: MDEF is false there (log entry 6). -/
abbrev Memory := List Host.Cell

/-- The state of HTB. -/
structure State where
  /-- The parameter MEM_BYTES (00_scope.md R7); no step changes it (log entry 7). -/
  memBytes : Nat
  /-- CTRL.IE_DONE (10_state.md R24). -/
  ieDone : Bool
  /-- CTRL.IE_ERR (R24). -/
  ieErr : Bool
  /-- STATUS.BUSY (R25). -/
  busy : Bool
  /-- STATUS.DONE (R25). -/
  done : Bool
  /-- STATUS.ERR (R25). -/
  err : Bool
  /-- STATUS.CMDOVR (R25). -/
  cmdOvr : Bool
  /-- STATUS.WROVR (R25). -/
  wrOvr : Bool
  /-- STATUS.TREE_VALID (R25, R44). -/
  treeValid : Bool
  /-- STATUS.UVALID (R25, R44). -/
  uvalid : Bool
  /-- STATUS.NEED_IN (R25). -/
  needIn : Bool
  /-- STATUS.OUT_FULL (R25). -/
  outFull : Bool
  /-- CMD_LAST, the last accepted command word (R26). -/
  cmdLast : Word
  /-- ERRCODE (R28). -/
  errCode : ErrCode
  /-- ERRINFO (R28). -/
  errInfo : Word
  /-- SRC (R29). -/
  src : Word
  /-- SLEN (R29). -/
  slen : Word
  /-- DST (R29). -/
  dst : Word
  /-- DLEN (R29). -/
  dlen : Word
  /-- RIN (R30). -/
  rin : Word
  /-- ROUT (R30). -/
  rout : Word
  /-- TOTAL (R31). -/
  total : Count
  /-- NSYM (R33). -/
  nsym : BitVec 9
  /-- ROOT (R33). -/
  root : Handle
  /-- MAXLEN (R33). -/
  maxLen : BitVec 9
  /-- FSUM (R34). -/
  fsum : Weight
  /-- CODESEL (R37). -/
  codeSel : Symbol
  /-- NODESEL (R38). -/
  nodeSel : Handle
  /-- L_SRC, the operand latched at acceptance (R47). -/
  lSrc : Word
  /-- L_SLEN (R47). -/
  lSlen : Word
  /-- L_DST (R47). -/
  lDst : Word
  /-- L_DLEN (R47). -/
  lDlen : Word
  /-- FREQ[0..255] (R40). -/
  freq : Vector Count 256
  /-- FDEF_LO[0..255], model-only (R48). -/
  fdefLo : Vector Bool 256
  /-- FDEF_HI[0..255], model-only (R48). -/
  fdefHi : Vector Bool 256
  /-- node[0..510] (R42). -/
  arena : Vector Node 511
  /-- CODEV[0..255] (R43). -/
  codeV : Vector Bool 256
  /-- CODE[0..255]; CODELEN[s] is the length of CODE[s] (R43). -/
  code : Vector (List Bool) 256
  /-- PBUF (R45). -/
  pbuf : Byte
  /-- PCNT (R45), as wide as its field of PACC (R35). -/
  pcnt : BitVec 4
  /-- UREM (R32, R46). -/
  urem : Count
  /-- UCUR (R46). -/
  ucur : Handle
  /-- UBUF (R46). -/
  ubuf : Byte
  /-- UCNT (R46), as wide as its field of UACC (R36). -/
  ucnt : BitVec 4
  /-- Buffer memory and MDEF (20_memory.md R70, 10_state.md R48). -/
  mem : Memory
  /-- The model fault UNDEF_READ has been recorded (60_exceptions.md R240); never cleared. -/
  undefRead : Bool
  /-- The model's own: how many free values have been drawn (log entry 3). -/
  draws : Nat
  /-- The model's own: how often storage has become unspecified, by a hard reset or an aborted command (log entry 3). -/
  epoch : Nat
  /-- The model's own: the turns to come, the Host's input (log entry 9). -/
  agenda : List Turn
  /-- The model's own: what the bus answered, newest first (log entry 12). -/
  replies : List Reply
  deriving DecidableEq, Repr

/-- Why the machine stops. -/
inductive Fault where
  /-- The model fault HOST_RACE (60_exceptions.md R240): raised by a host write, while BUSY = 1, to a buffer byte of
  the running command's read or write set (20_memory.md R82), where the spec leaves the command's result and the
  byte unspecified. SAFE: the chip goes on with some value, the model stops. -/
  | hostRace
  deriving DecidableEq, Repr

/-- Why a step has no meaning. -/
inductive Refusal where
  /-- The command of this mnemonic has no meaning yet: raised by an arm of `exec` only, and by no arm of this model.
  SAFE: the model stops. -/
  | notModelled (mnemonic : String)
  deriving DecidableEq, Repr

/-- The machine right after hard reset (10_state.md R52, 70_reset_and_hazards.md R260, R261).
The spec gives FREQ, the arena and the code table no reset value: their entries here are DESIGN CHOICEs no read
reaches (log entries 4 and 5). MEM_BYTES is at R7's default (log entry 7). The last four fields are the model's own. -/
def State.reset : State where
  memBytes := Config.defaultMemBytes
  ieDone := false
  ieErr := false
  busy := false
  done := false
  err := false
  cmdOvr := false
  wrOvr := false
  treeValid := false
  uvalid := false
  needIn := false
  outFull := false
  cmdLast := 0#32
  errCode := .noError
  errInfo := 0#32
  src := 0#32
  slen := 0#32
  dst := 0#32
  dlen := 0#32
  rin := 0#32
  rout := 0#32
  total := 0#64
  nsym := 0#9
  root := 0#9
  maxLen := 0#9
  fsum := 0#72
  codeSel := 0#8
  nodeSel := 0#9
  lSrc := 0#32
  lSlen := 0#32
  lDst := 0#32
  lDlen := 0#32
  freq := Vector.replicate 256 0#64
  fdefLo := Vector.replicate 256 false
  fdefHi := Vector.replicate 256 false
  arena := Vector.replicate 511 (.leaf 0#8 0#72)
  codeV := Vector.replicate 256 false
  code := Vector.replicate 256 []
  pbuf := 0#8
  pcnt := 0#4
  urem := 0#64
  ucur := 0#9
  ubuf := 0#8
  ucnt := 0#4
  mem := []
  undefRead := false
  draws := 0
  epoch := 0
  agenda := []
  replies := []

end Sys2Proof.Machine
end

