-- ==== Sys2Proof/Machine/Ops.lean ====
section
/-! DEFINITION. The named operations over memory, FREQ and the tree arena; ending a command, by completion and by
error, and the return from an error. -/

namespace Sys2Proof.Machine

/-! ### Arrays indexed by symbol or handle -/

/-- Entry `b` of an array with one entry for each symbol. -/
def atSym {α : Type} (v : Vector α 256) (b : Symbol) : α := v[b.toNat]'b.isLt

/-- The array with entry `b` replaced. -/
def setSym {α : Type} (v : Vector α 256) (b : Symbol) (x : α) : Vector α 256 := v.set b.toNat x b.isLt

/-- The array with the entries from index `k` on replaced by the list's, as far as both reach. -/
def overlay {α : Type} {n : Nat} : Nat → List α → Vector α n → Vector α n
  | _, [], v => v
  | k, x :: xs, v => overlay (k + 1) xs (v.setIfInBounds k x)

/-- node[h] (10_state.md R42). Handle 511 names no node; it reads as a leaf of weight 0 (log entry 17). -/
def nodeOf (arena : Vector Node 511) (h : Handle) : Node := (arena[h.toNat]?).getD (.leaf 0#8 0#72)

/-- The field `leaf` of a node (10_state.md R42). -/
def Node.isLeaf : Node → Bool
  | .leaf _ _ => true
  | .internal _ _ _ => false

/-- The field `weight` of a node (10_state.md R42). -/
def Node.weight : Node → Weight
  | .leaf _ w => w
  | .internal _ _ w => w

/-! ### Byte order (20_memory.md R72): least significant byte first -/

/-- The low `n` bytes of `v`, least significant first. -/
def leBytes : Nat → Nat → List Byte
  | 0, _ => []
  | n + 1, v => BitVec.ofNat 8 v :: leBytes n (v / 256)

/-- The number whose bytes, least significant first, are these. -/
def leValue : List Byte → Nat
  | [] => 0
  | b :: bs => b.toNat + 256 * leValue bs

/-! ### Buffer memory (20_memory.md R70) as a canonical list -/

/-- The byte at an address, or nothing where MDEF is false (10_state.md R48). -/
def Memory.read : Memory → Nat → Option Byte
  | [], _ => none
  | (k, b) :: r, a => if k = a then some b else Memory.read r a

/-- The memory with one byte written; MDEF becomes true there (10_state.md R48). -/
def Memory.write : Memory → Nat → Byte → Memory
  | [], a, b => [(a, b)]
  | (k, c) :: r, a, b =>
    if a < k then (a, b) :: (k, c) :: r
    else if a = k then (a, b) :: r
    else (k, c) :: Memory.write r a b

/-- The bytes written at consecutive addresses from `a`. -/
def Memory.writeAll : Memory → Nat → List Byte → Memory
  | m, _, [] => m
  | m, a, b :: bs => Memory.writeAll (Memory.write m a b) (a + 1) bs

/-- The memory with MDEF false for the addresses `lo ≤ a < hi` (70_reset_and_hazards.md R263). -/
def Memory.forget (m : Memory) (lo hi : Nat) : Memory := m.filter (fun c => !(decide (lo ≤ c.1) && decide (c.1 < hi)))

/-- The canonical form: addresses strictly rising, so equal memories are equal lists. -/
abbrev Memory.wf (m : Memory) : Prop := List.Pairwise (fun x y => x.1 < y.1) m

/-! ### The Engine's accesses (00_scope.md R10, 10_state.md R48) -/

/-- What the storage of buffer byte `a` holds: the byte written there, or with MDEF false a free value that stays the
same until something is written there or storage becomes unspecified again (10_state.md R48, 20_memory.md R79, log
entry 3). -/
def State.storedByte (s : State) (a : Nat) : Byte := (Memory.read s.mem a).getD (Config.storedByte s.epoch a)

/-- `MemRead(a, 1)`. A byte with MDEF false is the model fault UNDEF_READ: it is recorded and what the storage holds is
a free value (60_exceptions.md R240, log entry 1). -/
def State.readByte (s : State) (a : Nat) : Byte × State :=
  match Memory.read s.mem a with
  | some b => (b, s)
  | none => (s.storedByte a, { s with undefRead := true })

/-- `MemRead` of consecutive bytes, in ascending order. -/
def State.readBytes : Nat → Nat → State → List Byte × State
  | 0, _, s => ([], s)
  | n + 1, a, s =>
    match s.readByte a with
    | (b, s₁) =>
      match State.readBytes n (a + 1) s₁ with
      | (bs, s₂) => (b :: bs, s₂)

/-- `MemWrite(a, 1, b)`. -/
def State.writeByte (s : State) (a : Nat) (b : Byte) : State := { s with mem := Memory.write s.mem a b }

/-- `MemWrite` of consecutive bytes. -/
def State.writeBytes (s : State) (a : Nat) (bs : List Byte) : State := { s with mem := Memory.writeAll s.mem a bs }

/-- Both words of FREQ[b] are defined (10_state.md R48). -/
def State.freqDefined (s : State) (b : Symbol) : Bool := atSym s.fdefLo b && atSym s.fdefHi b

/-- Every word of FREQ is defined (10_state.md R48). -/
def State.allFreqDefined (s : State) : Bool := s.fdefLo.toList.all id && s.fdefHi.toList.all id

/-- What the storage of the low word of FREQ[b] holds: the word written, or with FDEF_LO false a free value that stays
the same until something is written there or storage becomes unspecified again (10_state.md R48, 20_memory.md R79, log
entry 3). -/
def State.freqLoWord (s : State) (b : Symbol) : Word :=
  if atSym s.fdefLo b then (atSym s.freq b).low else Config.storedWord s.epoch (2 * b.toNat)

/-- The same for the high word and FDEF_HI. -/
def State.freqHiWord (s : State) (b : Symbol) : Word :=
  if atSym s.fdefHi b then (atSym s.freq b).high else Config.storedWord s.epoch (2 * b.toNat + 1)

/-- The Engine's read of FREQ[b]. A word with its flag false is the model fault UNDEF_READ: it is recorded and what the
storage holds is a free value (10_state.md R48, 60_exceptions.md R240, log entry 1). -/
def State.readFreq (s : State) (b : Symbol) : Count × State :=
  if s.freqDefined b then (atSym s.freq b, s)
  else (Count.ofWords (s.freqHiWord b) (s.freqLoWord b), { s with undefRead := true })

/-- The Engine's reads of `n` entries of FREQ from symbol `k` on, in ascending order. -/
def State.readFreqs : Nat → Nat → State → List Count × State
  | 0, _, s => ([], s)
  | n + 1, k, s =>
    match s.readFreq (BitVec.ofNat 8 k) with
    | (f, s₁) =>
      match State.readFreqs n (k + 1) s₁ with
      | (fs, s₂) => (f :: fs, s₂)

/-- The Engine's reads of all 256 entries of FREQ. -/
def State.readAllFreq (s : State) : List Count × State := State.readFreqs 256 0 s

/-- The Engine's write of FREQ[b]; both words become defined (10_state.md R48, log entry 24). -/
def State.writeFreq (s : State) (b : Symbol) (c : Count) : State :=
  { s with
    freq := setSym s.freq b c
    fdefLo := setSym s.fdefLo b true
    fdefHi := setSym s.fdefHi b true }

/-! ### The end of a command -/

/-- `complete()` (60_exceptions.md R229). -/
def State.complete (s : State) : State := { s with busy := false, done := true }

/-- `raise E(info)`, the block's whole error entry (60_exceptions.md R230). -/
def State.raise (e : ErrCode) (info : Word) (s : State) : State :=
  { s with busy := false, err := true, errCode := e, errInfo := info }

/-- The return from the error state: the Host's write of 1 to STATUS.ERR (60_exceptions.md R233). -/
def State.clearErr (s : State) : State := { s with err := false }

/-! ### Loops over the elements of a command (60_exceptions.md R228) -/

/-- One element of a command is done and the loop goes on, or the command has ended in a state. -/
inductive Progress (σ : Type) where
  | going (x : σ)
  | ended (s : State)

/-- `for i in k .. k + n - 1: body(i)`, left at once by an element that ends the command. -/
def forElems {σ : Type} (body : Nat → σ → Progress σ) : Nat → Nat → σ → Progress σ
  | 0, _, x => .going x
  | n + 1, k, x =>
    match body k x with
    | .going y => forElems body n (k + 1) y
    | .ended s => .ended s

/-- What follows a loop: the rest of the command, or the state an element ended it in. -/
def Progress.andThen {σ : Type} (p : Progress σ) (rest : σ → State) : State :=
  match p with
  | .going x => rest x
  | .ended s => s

end Sys2Proof.Machine
end

