-- ==== Sys2Proof/Machine/Flags.lean ====
section
/-! DEFINITION. The STATUS bits, the IRQ output and the validity flags (10_state.md R25, R44, R54). -/

namespace Sys2Proof.Machine

/-- The IRQ output (10_state.md R54). -/
def State.irq (s : State) : Bool := (s.done && s.ieDone) || (s.err && s.ieErr)

/-- The level of platform interrupt input `line` as far as the block drives it (60_exceptions.md R235, log entry 8). -/
def State.drivesLine (s : State) (line : Nat) : Bool := decide (line = Config.irqLine) && s.irq

/-- STATUS as the host reads it, bit 9 first (10_state.md R25). -/
def State.statusWord (s : State) : Word :=
  0#22 ++ (BitVec.ofBool s.irq ++ (BitVec.ofBool s.outFull ++ (BitVec.ofBool s.needIn ++ (BitVec.ofBool s.uvalid ++
  (BitVec.ofBool s.treeValid ++ (BitVec.ofBool s.wrOvr ++ (BitVec.ofBool s.cmdOvr ++ (BitVec.ofBool s.err ++
  (BitVec.ofBool s.done ++ BitVec.ofBool s.busy)))))))))

/-- CTRL as the host reads it: SRST reads 0 (10_state.md R24). -/
def State.ctrlWord (s : State) : Word :=
  0#29 ++ (BitVec.ofBool s.ieErr ++ (BitVec.ofBool s.ieDone ++ 0#1))

/-- A host write to STATUS: each W1C bit written 1 is cleared, nothing else changes (10_state.md R25).
Clearing ERR is the return from the error state (60_exceptions.md R233). -/
def State.writeStatus (s : State) (v : Word) : State :=
  let s₁ := if v.getLsbD 2 then s.clearErr else s
  { s₁ with
    done := s.done && !(v.getLsbD 1)
    cmdOvr := s.cmdOvr && !(v.getLsbD 3)
    wrOvr := s.wrOvr && !(v.getLsbD 4) }

/-- TREE_VALID ← 0 and UVALID ← 0: the tree no longer belongs to the FREQ contents (10_state.md R44). -/
def State.invalidate (s : State) : State := { s with treeValid := false, uvalid := false }

/-- There is a tree to use: the negation of NO_TREE's condition (42_bitcodec.md R162, R170). -/
def State.hasTree (s : State) : Bool := s.treeValid && s.nsym != 0#9

end Sys2Proof.Machine
end

