-- ==== Sys2Proof/Syntax.lean ====
section
/-! DEFINITION. The commands of HTB: one constructor per row of spec/opcode_table.json (30_encoding.md R102). -/

namespace Sys2Proof

/-- The ten commands of 30_encoding.md R102.
`f` is the modifier bit F of R101: FLUSH for PACK and FINAL for UNPACK.
The other commands admit only F = 0, so they carry no such bit; no command has another operand (R103). -/
inductive Instr where
  | nop
  | fclr
  | hist
  | build
  | pack (f : Bool)
  | unpack (f : Bool)
  | uinit
  | pinit
  | hdrst
  | hdrld
  deriving DecidableEq, Repr

end Sys2Proof
end

