-- ==== Sys2Proof/WellFormed.lean ====
section
/-! DEFINITION. The checks on command words (30_encoding.md R101, R104), on commands and on the parameter MEM_BYTES. -/

namespace Sys2Proof

/-- Field OPC of a command word (30_encoding.md R101). -/
def wordOpc (w : Word) : BitVec 8 := w.setWidth 8

/-- Field F of a command word (30_encoding.md R101). -/
def wordF (w : Word) : Bool := w.getLsbD 8

/-- Field RSV of a command word (30_encoding.md R101). -/
def wordRsv (w : Word) : BitVec 23 := (w >>> 9).setWidth 23

/-- First check of 30_encoding.md R104: the opcode is one of 0x00..0x09. -/
def opcodeAssigned (w : Word) : Bool := decide (wordOpc w ≤ 0x09#8)

/-- Second check of 30_encoding.md R104: `w[31:9] = 0`. -/
def reservedClear (w : Word) : Bool := wordRsv w == 0#23

/-- Third check of 30_encoding.md R104: F = 1 only with opcode 0x04 or 0x05. -/
def flagAllowed (w : Word) : Bool := !(wordF w) || wordOpc w == 0x04#8 || wordOpc w == 0x05#8

/-- A command word that selects a row of 30_encoding.md R102. -/
def wordWellFormed (w : Word) : Bool := opcodeAssigned w && reservedClear w && flagAllowed w

/-- Every term of `Instr` is a row of 30_encoding.md R102 with the F values that row allows: the type admits no
other, so this check refuses none (the checks that can fail are those on words, above). -/
def Instr.wellFormed : Instr → Bool
  | .nop => true
  | .fclr => true
  | .hist => true
  | .build => true
  | .pack _ => true
  | .unpack _ => true
  | .uinit => true
  | .pinit => true
  | .hdrst => true
  | .hdrld => true

/-- MEM_BYTES is one of the sizes of 00_scope.md R7. -/
def memSizeAllowed (n : Nat) : Bool := Config.memSizes.contains n

end Sys2Proof
end

