-- ==== Sys2Proof/Decode.lean ====
section
/-! DEFINITION. Decoding of command words, total and refusing by name (30_encoding.md R104), and the encoder (R102). -/

namespace Sys2Proof

/-- Why a word is no command: the three cases of 30_encoding.md R104, each of which the Engine reports as BADCMD(0). -/
inductive Undecodable where
  /-- `w[7:0]` is in 0x0A..0xFF. -/
  | reservedOpcode
  /-- `w[31:9]` is not 0. -/
  | reservedBits
  /-- `w[8] = 1` and the opcode is neither PACK nor UNPACK. -/
  | flagNotAllowed
  deriving DecidableEq, Repr

/-- The row of 30_encoding.md R102 an opcode selects; `f` is the word's F bit. -/
def instrOfOpcode (opc : Nat) (f : Bool) : Except Undecodable Instr :=
  match opc with
  | 0x00 => .ok .nop
  | 0x01 => .ok .fclr
  | 0x02 => .ok .hist
  | 0x03 => .ok .build
  | 0x04 => .ok (.pack f)
  | 0x05 => .ok (.unpack f)
  | 0x06 => .ok .uinit
  | 0x07 => .ok .pinit
  | 0x08 => .ok .hdrst
  | 0x09 => .ok .hdrld
  | _ => .error .reservedOpcode

/-- Decoding of one CMD word (30_encoding.md R104): it selects exactly one row of R102 or is refused by name. -/
def decodeWord (w : Word) : Except Undecodable Instr :=
  if !opcodeAssigned w then .error .reservedOpcode
  else if !reservedClear w then .error .reservedBits
  else if !flagAllowed w then .error .flagNotAllowed
  else instrOfOpcode (wordOpc w).toNat (wordF w)

/-- The opcode of a command (30_encoding.md R102). -/
def Instr.opcode : Instr → BitVec 8
  | .nop => 0x00#8
  | .fclr => 0x01#8
  | .hist => 0x02#8
  | .build => 0x03#8
  | .pack _ => 0x04#8
  | .unpack _ => 0x05#8
  | .uinit => 0x06#8
  | .pinit => 0x07#8
  | .hdrst => 0x08#8
  | .hdrld => 0x09#8

/-- The F bit of a command (30_encoding.md R101). -/
def Instr.flag : Instr → Bool
  | .nop => false
  | .fclr => false
  | .hist => false
  | .build => false
  | .pack f => f
  | .unpack f => f
  | .uinit => false
  | .pinit => false
  | .hdrst => false
  | .hdrld => false

/-- The command word of a command: RSV, F and OPC from the most significant end (30_encoding.md R101). -/
def encode (i : Instr) : Word := 0#23 ++ (BitVec.ofBool i.flag ++ i.opcode)

/-- The command read from a table word: the word is one 32-bit CMD write (30_encoding.md R100), so the bits from
`nbits` up are 0 and the rest is the word itself. -/
def decodeTableWord (nbits w : Nat) : Option Instr :=
  match decodeWord (BitVec.ofNat 32 (w % 2 ^ nbits)) with
  | .ok i => some i
  | .error _ => none

end Sys2Proof
end

