-- ==== Sys2Proof/Machine/Operands.lean ====
section
/-! DEFINITION. The latched operands and the areas they name (10_state.md R47, 60_exceptions.md R226, R227,
20_memory.md R82). -/

namespace Sys2Proof.Machine

/-- The RANGE check of 60_exceptions.md R226, without wrap-around. -/
def beyondMemory (memBytes : Nat) (base len : Word) : Bool := decide (base.toNat + len.toNat > memBytes)

/-- RANGE(0): the input area [SRC, SRC+SLEN) is not inside buffer memory (60_exceptions.md R226). -/
def State.inputBeyond (s : State) : Bool := beyondMemory s.memBytes s.lSrc s.lSlen

/-- RANGE(1): the output area [DST, DST+DLEN) is not inside buffer memory (60_exceptions.md R226). -/
def State.outputBeyond (s : State) : Bool := beyondMemory s.memBytes s.lDst s.lDlen

/-- OVERLAP(0): both areas are nonempty and intersect (60_exceptions.md R227). -/
def State.areasOverlap (s : State) : Bool :=
  decide (s.lSlen.toNat > 0) && decide (s.lDlen.toNat > 0) &&
  decide (s.lSrc.toNat < s.lDst.toNat + s.lDlen.toNat) &&
  decide (s.lDst.toNat < s.lSrc.toNat + s.lSlen.toNat)

/-- An address lies in a half-open area. -/
def inArea (area : Nat × Nat) (a : Nat) : Bool := decide (area.1 ≤ a) && decide (a < area.2)

/-- The read set of a command over the latched operands (20_memory.md R82), as a half-open area. -/
def State.readArea (s : State) : Instr → Nat × Nat
  | .nop => (0, 0)
  | .fclr => (0, 0)
  | .hist => (s.lSrc.toNat, s.lSrc.toNat + s.lSlen.toNat)
  | .build => (0, 0)
  | .pack _ => (s.lSrc.toNat, s.lSrc.toNat + s.lSlen.toNat)
  | .unpack _ => (s.lSrc.toNat, s.lSrc.toNat + s.lSlen.toNat)
  | .uinit => (0, 0)
  | .pinit => (0, 0)
  | .hdrst => (0, 0)
  | .hdrld => (s.lSrc.toNat, s.lSrc.toNat + min s.lSlen.toNat Config.headerBytes)

/-- The write set of a command over the latched operands (20_memory.md R82), as a half-open area. -/
def State.writeArea (s : State) : Instr → Nat × Nat
  | .nop => (0, 0)
  | .fclr => (0, 0)
  | .hist => (0, 0)
  | .build => (0, 0)
  | .pack _ => (s.lDst.toNat, s.lDst.toNat + s.lDlen.toNat)
  | .unpack _ => (s.lDst.toNat, s.lDst.toNat + s.lDlen.toNat)
  | .uinit => (0, 0)
  | .pinit => (0, 0)
  | .hdrst => (s.lDst.toNat, s.lDst.toNat + min s.lDlen.toNat Config.headerBytes)
  | .hdrld => (0, 0)

/-- Address `a` is in the running command's read set; a word that raises BADCMD has none (20_memory.md R82). -/
def State.inReadSet (s : State) (a : Nat) : Bool :=
  match decodeWord s.cmdLast with
  | .ok i => s.busy && inArea (s.readArea i) a
  | .error _ => false

/-- Address `a` is in the running command's write set; a word that raises BADCMD has none (20_memory.md R82). -/
def State.inWriteSet (s : State) (a : Nat) : Bool :=
  match decodeWord s.cmdLast with
  | .ok i => s.busy && inArea (s.writeArea i) a
  | .error _ => false

end Sys2Proof.Machine
end

