-- ==== Sys2Proof/Machine/Registers.lean ====
section
/-! DEFINITION. The register map of 10_state.md section 2: names, offsets, what a host read gives and what a host write
does; command acceptance and the resets. -/

namespace Sys2Proof.Machine

/-- The named registers of 10_state.md section 2, FREQ word by word (R40). -/
inductive Reg where
  | id | version | ctrl | status | cmd | errcode | errinfo
  | src | slen | dst | dlen | rin | rout
  | totalLo | totalHi | uremLo | uremHi
  | nsym | root | maxlen | fsumLo | fsumMid | fsumHi
  | pacc | uacc | codesel | codelenR
  | nodesel | nodeinfo | nodekids | nodewLo | nodewMid | nodewHi
  | codebits (k : Fin 8)
  | freqLo (b : Symbol)
  | freqHi (b : Symbol)
  deriving DecidableEq, Repr

/-- The register offsets below 0x084 (10_state.md section 2). -/
def regTable : List (Nat × Reg) :=
  [(0x000, .id), (0x004, .version), (0x008, .ctrl), (0x00C, .status), (0x010, .cmd), (0x014, .errcode),
   (0x018, .errinfo), (0x01C, .src), (0x020, .slen), (0x024, .dst), (0x028, .dlen), (0x02C, .rin),
   (0x030, .rout), (0x034, .totalLo), (0x038, .totalHi), (0x03C, .uremLo), (0x040, .uremHi)] ++
  [(0x044, .nsym), (0x048, .root), (0x04C, .maxlen), (0x050, .fsumLo), (0x054, .fsumMid), (0x058, .fsumHi),
   (0x05C, .pacc), (0x060, .uacc), (0x064, .codesel), (0x068, .codelenR), (0x06C, .nodesel),
   (0x070, .nodeinfo), (0x074, .nodekids), (0x078, .nodewLo), (0x07C, .nodewMid), (0x080, .nodewHi)]

/-- The register at a word-aligned offset below 0x100000, or nothing at a reserved one (10_state.md section 2, R39). -/
def Reg.ofOffset (off : Nat) : Option Reg :=
  if 0x800 ≤ off ∧ off < 0x1000 then
    if off % 8 < 4 then some (.freqLo (BitVec.ofNat 8 ((off - 0x800) / 8)))
    else some (.freqHi (BitVec.ofNat 8 ((off - 0x800) / 8)))
  else if 0x0A0 ≤ off ∧ off < 0x0C0 then some (.codebits (Fin.ofNat 8 ((off - 0x0A0) / 4)))
  else regTable.lookup off

/-- The offset of a register (10_state.md section 2). -/
def Reg.offset : Reg → Nat
  | .id => 0x000
  | .version => 0x004
  | .ctrl => 0x008
  | .status => 0x00C
  | .cmd => 0x010
  | .errcode => 0x014
  | .errinfo => 0x018
  | .src => 0x01C
  | .slen => 0x020
  | .dst => 0x024
  | .dlen => 0x028
  | .rin => 0x02C
  | .rout => 0x030
  | .totalLo => 0x034
  | .totalHi => 0x038
  | .uremLo => 0x03C
  | .uremHi => 0x040
  | .nsym => 0x044
  | .root => 0x048
  | .maxlen => 0x04C
  | .fsumLo => 0x050
  | .fsumMid => 0x054
  | .fsumHi => 0x058
  | .pacc => 0x05C
  | .uacc => 0x060
  | .codesel => 0x064
  | .codelenR => 0x068
  | .nodesel => 0x06C
  | .nodeinfo => 0x070
  | .nodekids => 0x074
  | .nodewLo => 0x078
  | .nodewMid => 0x07C
  | .nodewHi => 0x080
  | .codebits k => 0x0A0 + 4 * k.val
  | .freqLo b => 0x800 + 8 * b.toNat
  | .freqHi b => 0x800 + 8 * b.toNat + 4

/-! ### Host reads -/

/-- ERRCODE's value (60_exceptions.md R225). -/
def ErrCode.code : ErrCode → Byte
  | .noError => 0x00#8
  | .badCmd => 0x01#8
  | .range => 0x02#8
  | .overlap => 0x03#8
  | .overflow => 0x04#8
  | .noTree => 0x05#8
  | .noCode => 0x06#8
  | .dstFull => 0x07#8
  | .truncated => 0x08#8
  | .zeroCount => 0x09#8
  | .shortHdr => 0x0A#8
  | .notInit => 0x0B#8

/-- A 72-bit register's bits [31:0] (20_memory.md R72). -/
def Weight.low (w : Weight) : Word := w.setWidth 32

/-- A 72-bit register's bits [63:32]. -/
def Weight.mid (w : Weight) : Word := (w >>> 32).setWidth 32

/-- A 72-bit register's bits [71:64], in bits [7:0]. -/
def Weight.high (w : Weight) : Word := (w >>> 64).setWidth 32

/-- The `v` of 10_state.md R37: symbol CODESEL has a code of the current tree. -/
def State.codeShown (s : State) : Bool := s.treeValid && atSym s.codeV s.codeSel

/-- CODELEN[s] (10_state.md R43), at 9 bits. -/
def State.codeLen (s : State) (b : Symbol) : BitVec 9 := BitVec.ofNat 9 (atSym s.code b).length

/-- CODELEN_R (10_state.md R37). -/
def State.codeLenWord (s : State) : Word :=
  0#15 ++ (BitVec.ofBool s.codeShown ++ (0#7 ++ (if s.codeShown then s.codeLen s.codeSel else 0#9)))

/-- 32 code bits from position `from` on, the first in bit 31; positions past the end are 0 (10_state.md R37). -/
def codeWindow (c : List Bool) (start : Nat) : Word :=
  BitVec.ofNat 32 ((List.range 32).foldl (fun acc j => 2 * acc + (c.getD (start + j) false).toNat) 0)

/-- CODEBITSk (10_state.md R37). -/
def State.codeBitsWord (s : State) (k : Nat) : Word :=
  if s.codeShown then codeWindow (atSym s.code s.codeSel) (32 * k) else 0#32

/-- The `v` of 10_state.md R38: handle NODESEL is a node of the current tree; handle 511 never is. -/
def State.nodeShown (s : State) : Bool :=
  s.treeValid && s.nsym != 0#9 && decide (s.nodeSel ≤ s.root) && s.nodeSel != 511#9

/-- NODEINFO (10_state.md R38). -/
def State.nodeInfoWord (s : State) : Word :=
  if s.nodeShown then
    match nodeOf s.arena s.nodeSel with
    | .leaf sym _ => 0#16 ++ (sym ++ 0x03#8)
    | .internal _ _ _ => 0x00000001#32
  else 0#32

/-- NODEKIDS (10_state.md R38). -/
def State.nodeKidsWord (s : State) : Word :=
  if s.nodeShown then
    match nodeOf s.arena s.nodeSel with
    | .leaf _ _ => 0#32
    | .internal l r _ => 0#7 ++ (r ++ (0#7 ++ l))
  else 0#32

/-- The weight NODEW_LO, NODEW_MID and NODEW_HI show (10_state.md R38). -/
def State.nodeWeight (s : State) : Weight := if s.nodeShown then (nodeOf s.arena s.nodeSel).weight else 0#72

/-- What a register holds for the host (10_state.md R22 to R40); a FREQ word that nothing has written holds a free
value (R48). -/
def State.regValue (s : State) : Reg → Word
  | .id => Config.idValue
  | .version => Config.versionValue
  | .ctrl => s.ctrlWord
  | .status => s.statusWord
  | .cmd => s.cmdLast
  | .errcode => s.errCode.code.setWidth 32
  | .errinfo => s.errInfo
  | .src => s.src
  | .slen => s.slen
  | .dst => s.dst
  | .dlen => s.dlen
  | .rin => s.rin
  | .rout => s.rout
  | .totalLo => s.total.low
  | .totalHi => s.total.high
  | .uremLo => s.urem.low
  | .uremHi => s.urem.high
  | .nsym => s.nsym.setWidth 32
  | .root => s.root.setWidth 32
  | .maxlen => s.maxLen.setWidth 32
  | .fsumLo => Weight.low s.fsum
  | .fsumMid => Weight.mid s.fsum
  | .fsumHi => Weight.high s.fsum
  | .pacc => 0#20 ++ (s.pcnt ++ s.pbuf)
  | .uacc => 0#7 ++ (s.ucur ++ (0#4 ++ (s.ucnt ++ s.ubuf)))
  | .codesel => s.codeSel.setWidth 32
  | .codelenR => s.codeLenWord
  | .nodesel => s.nodeSel.setWidth 32
  | .nodeinfo => s.nodeInfoWord
  | .nodekids => s.nodeKidsWord
  | .nodewLo => Weight.low s.nodeWeight
  | .nodewMid => Weight.mid s.nodeWeight
  | .nodewHi => Weight.high s.nodeWeight
  | .codebits k => s.codeBitsWord k.val
  | .freqLo b => s.freqLoWord b
  | .freqHi b => s.freqHiWord b

/-- The registers whose host read is defined while BUSY = 1 (10_state.md R50). -/
def Reg.definedWhileBusy : Reg → Bool
  | .id | .version | .ctrl | .status | .cmd | .src | .slen | .dst | .dlen | .codesel | .nodesel => true
  | .errcode | .errinfo | .rin | .rout | .totalLo | .totalHi | .uremLo | .uremHi => false
  | .nsym | .root | .maxlen | .fsumLo | .fsumMid | .fsumHi | .pacc | .uacc | .codelenR => false
  | .nodeinfo | .nodekids | .nodewLo | .nodewMid | .nodewHi => false
  | .codebits _ | .freqLo _ | .freqHi _ => false

/-- A host read of a register: what it holds, or an unconstrained word where the Engine may be updating it part-way
(10_state.md R50, log entry 3). -/
def State.readRegister (s : State) (r : Reg) : Word × State :=
  if !s.busy || r.definedWhileBusy then (s.regValue r, s)
  else (Config.freeWord s.draws, { s with draws := s.draws + 1 })

/-! ### Host writes -/

/-- Command acceptance of the word `w` (10_state.md R27, R47). -/
def State.accept (s : State) (w : Word) : State :=
  { s with
    cmdLast := w
    lSrc := s.src
    lSlen := s.slen
    lDst := s.dst
    lDlen := s.dlen
    busy := true
    done := false
    errCode := .noError
    errInfo := 0#32
    rin := 0#32
    rout := 0#32
    needIn := false
    outFull := false }

/-- A host write of `w` to CMD: accepted, or dropped with CMDOVR while BUSY or ERR is set (10_state.md R27). -/
def State.writeCmd (s : State) (w : Word) : State :=
  if s.busy || s.err then { s with cmdOvr := true } else s.accept w

/-- What becomes unspecified when soft reset aborts the running command (70_reset_and_hazards.md R263).
The arena and the code table of an aborted BUILD stay as they are: TREE_VALID = 0 guards them (log entry 19). -/
def State.abort (s : State) : State :=
  if s.busy then
    match decodeWord s.cmdLast with
    | .error _ => s
    | .ok i =>
      match i with
      | .fclr | .hist | .hdrld =>
        { s with
          fdefLo := Vector.replicate 256 false
          fdefHi := Vector.replicate 256 false
          epoch := s.epoch + 1 }
      | .pack _ | .unpack _ | .hdrst =>
        { s with
          mem := Memory.forget s.mem (s.writeArea i).1 (s.writeArea i).2
          epoch := s.epoch + 1 }
      | .nop | .build | .uinit | .pinit => s
  else s

/-- Every register of 10_state.md R52 at its soft reset value; FREQ, the arena, the code table, buffer memory and the
definedness flags are kept, and so are the model's own fields. -/
def State.clearRegisters (s : State) : State :=
  { State.reset with
    memBytes := s.memBytes
    freq := s.freq
    fdefLo := s.fdefLo
    fdefHi := s.fdefHi
    arena := s.arena
    codeV := s.codeV
    code := s.code
    mem := s.mem
    undefRead := s.undefRead
    draws := s.draws
    epoch := s.epoch
    agenda := s.agenda
    replies := s.replies }

/-- Soft reset without the interrupt enables, which the same write sets (70_reset_and_hazards.md R262). -/
def State.softReset (s : State) : State := s.abort.clearRegisters

/-- A host write to CTRL: SRST = 1 first performs the soft reset, then bits 1 and 2 set the enables (10_state.md R24). -/
def State.writeCtrl (s : State) (v : Word) : State :=
  let s₁ := if v.getLsbD 0 then s.softReset else s
  { s₁ with ieDone := v.getLsbD 1, ieErr := v.getLsbD 2 }

/-- Hard reset (70_reset_and_hazards.md R260). The parameter MEM_BYTES, a recorded model fault (never cleared,
60_exceptions.md R240) and the model's own fields stay (log entry 18); storage is unspecified anew (log entry 3). -/
def State.hardReset (s : State) : State :=
  { State.reset with
    memBytes := s.memBytes
    undefRead := s.undefRead
    draws := s.draws
    epoch := s.epoch + 1
    agenda := s.agenda
    replies := s.replies }

/-- A host write that BUSY = 1 drops with WROVR, else `put` (10_state.md R49). -/
def State.unlessBusy (s : State) (put : State) : State := if s.busy then { s with wrOvr := true } else put

/-- A host write to one word of FREQ while BUSY = 0 (10_state.md R41). -/
def State.putFreqLo (s : State) (b : Symbol) (v : Word) : State :=
  { s.invalidate with
    freq := setSym s.freq b (Count.ofWords (atSym s.freq b).high v)
    fdefLo := setSym s.fdefLo b true }

/-- The same for the high word (10_state.md R41). -/
def State.putFreqHi (s : State) (b : Symbol) (v : Word) : State :=
  { s.invalidate with
    freq := setSym s.freq b (Count.ofWords v (atSym s.freq b).low)
    fdefHi := setSym s.fdefHi b true }

/-- A host write to a register (10_state.md section 3, R49). Writes to read-only registers are ignored. -/
def State.writeRegister (s : State) (r : Reg) (v : Word) : State :=
  match r with
  | .ctrl => s.writeCtrl v
  | .status => s.writeStatus v
  | .cmd => s.writeCmd v
  | .src => { s with src := v }
  | .slen => { s with slen := v }
  | .dst => { s with dst := v }
  | .dlen => { s with dlen := v }
  | .totalLo => s.unlessBusy { s with total := Count.ofWords s.total.high v }
  | .totalHi => s.unlessBusy { s with total := Count.ofWords v s.total.low }
  | .codesel => { s with codeSel := v.setWidth 8 }
  | .nodesel => { s with nodeSel := v.setWidth 9 }
  | .freqLo b => s.unlessBusy (s.putFreqLo b v)
  | .freqHi b => s.unlessBusy (s.putFreqHi b v)
  | .id | .version | .errcode | .errinfo | .rin | .rout | .uremLo | .uremHi => s
  | .nsym | .root | .maxlen | .fsumLo | .fsumMid | .fsumHi | .pacc | .uacc | .codelenR => s
  | .nodeinfo | .nodekids | .nodewLo | .nodewMid | .nodewHi | .codebits _ => s

end Sys2Proof.Machine
end

