-- ==== Sys2Proof/Machine/Bus.lean ====
section
/-! DEFINITION. The host's bus accesses: routing, widths and alignment, the buffer window, races (20_memory.md). -/

namespace Sys2Proof.Machine

/-- The number of bytes of an access (20_memory.md R74). -/
def Width.bytes : Width → Nat
  | .byte => 1
  | .half => 2
  | .word => 4

/-- Where an access goes. -/
inductive Target where
  /-- Outside the aperture: not decoded (20_memory.md R76). -/
  | outside
  /-- A bus error response (20_memory.md R75, R76). -/
  | refused
  /-- A register (10_state.md section 2). -/
  | register (r : Reg)
  /-- A reserved offset (10_state.md R39). -/
  | reserved
  /-- The buffer window, at this buffer offset (20_memory.md R70). -/
  | window (a : Nat)
  deriving DecidableEq, Repr

/-- The routing of an access by width and aperture offset (20_memory.md R74 to R76, 10_state.md R39). -/
def route (memBytes : Nat) (w : Width) (off : Nat) : Target :=
  if Config.apertureBytes ≤ off then .outside
  else if off < Config.windowBase then
    if w = .word ∧ off % 4 = 0 then
      match Reg.ofOffset off with
      | some r => .register r
      | none => .reserved
    else .refused
  else if off % w.bytes ≠ 0 then .refused
  else if Config.windowBase + memBytes ≤ off then .refused
  else .window (off - Config.windowBase)

/-- The aperture offset of a bus address, if the block decodes it (20_memory.md R71, R76, log entry 8). -/
def apertureOffset (addr : Nat) : Option Nat :=
  if Config.baseAddr ≤ addr ∧ addr < Config.baseAddr + Config.apertureBytes then some (addr - Config.baseAddr)
  else none

/-- A host read of one byte of the window: what its storage holds, or an unconstrained byte in the running command's
write set (20_memory.md R82, 10_state.md R48, log entry 3). -/
def State.windowByte (s : State) (a : Nat) : Byte × State :=
  if s.inWriteSet a then (Config.freeByte s.draws, { s with draws := s.draws + 1 })
  else (s.storedByte a, s)

/-- A host read of `n` bytes of the window from `a`, least significant first (20_memory.md R72). -/
def State.windowBytes : Nat → Nat → State → List Byte × State
  | 0, _, s => ([], s)
  | n + 1, a, s =>
    match s.windowByte a with
    | (b, s₁) =>
      match State.windowBytes n (a + 1) s₁ with
      | (bs, s₂) => (b :: bs, s₂)

/-- A host read (20_memory.md R74 to R77, R79). -/
def State.busRead (s : State) (w : Width) (off : Nat) : Reply × State :=
  match route s.memBytes w off with
  | .outside => (.notDecoded, s)
  | .refused => (.busError, s)
  | .reserved => (.value 0#32, s)
  | .register r =>
    match s.readRegister r with
    | (v, s₁) => (.value v, s₁)
  | .window a =>
    match State.windowBytes w.bytes a s with
    | (bs, s₁) => (.value (BitVec.ofNat 32 (leValue bs)), s₁)

/-- A host write that is not a race (20_memory.md R74 to R77, R79). -/
def State.busWrite (s : State) (w : Width) (off : Nat) (v : Word) : Reply × State :=
  match route s.memBytes w off with
  | .outside => (.notDecoded, s)
  | .refused => (.busError, s)
  | .reserved => (.done, s)
  | .register r => (.done, s.writeRegister r v)
  | .window a => (.done, s.writeBytes a (leBytes w.bytes v.toNat))

/-- A host write touches a byte of the running command's read set or write set: HOST_RACE (20_memory.md R82). -/
def State.races (s : State) (w : Width) (off : Nat) : Bool :=
  match route s.memBytes w off with
  | .window a => (List.range w.bytes).any (fun k => s.inReadSet (a + k) || s.inWriteSet (a + k))
  | .outside => false
  | .refused => false
  | .reserved => false
  | .register _ => false

/-- The bus's answer is kept for the Host (20_memory.md R77, log entry 12). -/
def State.answer (s : State) (r : Reply) : State := { s with replies := r :: s.replies }

/-- One host access, one step of the Host (20_memory.md R81). -/
def hostAccess (a : Access) (s : State) : Host.Outcome State Fault Refusal :=
  match a with
  | .read w off =>
    match s.busRead w off with
    | (r, s₁) => .next (s₁.answer r)
  | .write w off v =>
    if s.races w off then .fault .hostRace
    else
      match s.busWrite w off v with
      | (r, s₁) => .next (s₁.answer r)

end Sys2Proof.Machine
end

