-- ==== Sys2Proof/Machine/Control.lean ====
section
/-! DEFINITION. NOP (44_control.md R215). -/

namespace Sys2Proof.Machine

/-- NOP (44_control.md R215). -/
def execNop (s : State) : Host.Outcome State Fault Refusal := .next s.complete

end Sys2Proof.Machine
end

