-- ==== Sys2Proof/Machine/Frequency.lean ====
section
/-! DEFINITION. The frequency table commands FCLR and HIST (40_frequency.md). -/

namespace Sys2Proof.Machine

/-- FCLR (40_frequency.md R121). -/
def execFclr (s : State) : Host.Outcome State Fault Refusal :=
  .next ({ s.invalidate with
    freq := Vector.replicate 256 0#64
    fdefLo := Vector.replicate 256 true
    fdefHi := Vector.replicate 256 true
    total := 0#64 }).complete

/-- A byte cannot be counted: OVERFLOW's condition, with unsigned comparisons (40_frequency.md R124). -/
def countFull (total freq : Count) : Bool := decide (Config.maxTotal ≤ total) || freq == Config.maxCount

/-- One pass of HIST's loop: byte `i` is read and counted, or raises OVERFLOW(i) (40_frequency.md R124). -/
def histByte (i : Nat) (s : State) : Progress State :=
  match s.readByte (s.lSrc.toNat + i) with
  | (b, s₁) =>
    match s₁.readFreq b with
    | (f, s₂) =>
      if countFull s₂.total f then .ended (s₂.raise .overflow (BitVec.ofNat 32 i))
      else .going { s₂.writeFreq b (f + 1#64) with
        total := s₂.total + 1#64
        rin := BitVec.ofNat 32 (i + 1) }

/-- HIST's loop and completion, after the RANGE check (40_frequency.md R124). -/
def histCount (s : State) : State :=
  (forElems histByte s.lSlen.toNat 0 s.invalidate).andThen State.complete

/-- HIST (40_frequency.md R124, R125). -/
def execHist (s : State) : Host.Outcome State Fault Refusal :=
  .next (if s.inputBeyond then s.raise .range 0#32 else histCount s)

end Sys2Proof.Machine
end

