-- ==== Sys2Proof/Machine/Header.lean ====
section
/-! DEFINITION. The header commands HDRST and HDRLD (43_header.md). -/

namespace Sys2Proof.Machine

/-- The 2056 header bytes: TOTAL, then the 256 counts, each in 8 bytes little-endian (43_header.md R200, R201). -/
def headerImage (total : Count) (fs : List Count) : List Byte :=
  leBytes 8 total.toNat ++ fs.flatMap (fun f => leBytes 8 f.toNat)

/-- `n` counts of 8 little-endian bytes each (43_header.md R205). -/
def countsOf : Nat → List Byte → List Count
  | 0, _ => []
  | n + 1, bs => BitVec.ofNat 64 (leValue (bs.take 8)) :: countsOf n (bs.drop 8)

/-- HDRST's stores, after the upfront checks (43_header.md R201). -/
def storeHeader (s : State) : State :=
  match s.readAllFreq with
  | (fs, s₁) =>
    ({ s₁.writeBytes s₁.lDst.toNat (headerImage s₁.total fs) with
      rout := BitVec.ofNat 32 Config.headerBytes }).complete

/-- HDRST (43_header.md R201, R202). -/
def execHdrst (s : State) : Host.Outcome State Fault Refusal :=
  .next (
    if s.outputBeyond then s.raise .range 1#32
    else if s.lDlen.toNat < Config.headerBytes then s.raise .dstFull 0#32
    else storeHeader s)

/-- HDRLD's loads, after the upfront checks (43_header.md R205). -/
def loadHeader (s : State) : State :=
  match State.readBytes Config.headerBytes s.lSrc.toNat s with
  | (bs, s₁) =>
    ({ s₁.invalidate with
      total := BitVec.ofNat 64 (leValue (bs.take 8))
      freq := overlay 0 (countsOf Config.symbols (bs.drop 8)) s₁.freq
      fdefLo := Vector.replicate 256 true
      fdefHi := Vector.replicate 256 true
      rin := BitVec.ofNat 32 Config.headerBytes }).complete

/-- HDRLD (43_header.md R205, R206). -/
def execHdrld (s : State) : Host.Outcome State Fault Refusal :=
  .next (
    if s.inputBeyond then s.raise .range 0#32
    else if s.lSlen.toNat < Config.headerBytes then s.raise .shortHdr s.lSlen
    else loadHeader s)

end Sys2Proof.Machine
end

