-- ==== Sys2Proof/Machine/Pack.lean ====
section
/-! DEFINITION. The bit packer: PINIT and PACK (42_bitcodec.md R160 to R168). -/

namespace Sys2Proof.Machine

/-- PINIT (42_bitcodec.md R160). -/
def execPinit (s : State) : Host.Outcome State Fault Refusal :=
  .next ({ s with pbuf := 0#8, pcnt := 0#4 }).complete

/-- A state inside PACK with the local variable `out`, the number of bytes written so far (42_bitcodec.md R163). -/
abbrev Packing := State × Nat

/-- Write one whole byte at DST + out, count it, and empty the accumulator (42_bitcodec.md R164, R165). -/
def putByte (x : Packing) (b : Byte) : Packing :=
  ({ x.1.writeByte (x.1.lDst.toNat + x.2) b with
      rout := BitVec.ofNat 32 (x.2 + 1)
      pbuf := 0#8
      pcnt := 0#4 }, x.2 + 1)

/-- PBUF with one bit appended at the right (42_bitcodec.md R164). -/
def shiftIn (b : Byte) (bit : Bool) : Byte := (b <<< 1) ||| (BitVec.ofBool bit).setWidth 8

/-- `append_bit` (42_bitcodec.md R164). -/
def appendBit (x : Packing) (bit : Bool) : Packing :=
  if x.1.pcnt + 1#4 = 8#4 then putByte x (shiftIn x.1.pbuf bit)
  else ({ x.1 with pbuf := shiftIn x.1.pbuf bit, pcnt := x.1.pcnt + 1#4 }, x.2)

/-- All bits of one code, left to right (42_bitcodec.md R163). -/
def appendBits (x : Packing) (bits : List Bool) : Packing := bits.foldl appendBit x

/-- One pass of PACK's loop: symbol `i` is encoded whole, or raises NO_CODE(i) or DST_FULL(i) (42_bitcodec.md R163). -/
def packSymbol (i : Nat) (x : Packing) : Progress Packing :=
  match x.1.readByte (x.1.lSrc.toNat + i) with
  | (b, s) =>
    if !(atSym s.codeV b) then .ended (s.raise .noCode (BitVec.ofNat 32 i))
    else if x.2 + (s.pcnt.toNat + (atSym s.code b).length) / 8 > s.lDlen.toNat then
      .ended (s.raise .dstFull (BitVec.ofNat 32 i))
    else
      match appendBits (s, x.2) (atSym s.code b) with
      | (s', out) => .going ({ s' with rin := BitVec.ofNat 32 (i + 1) }, out)

/-- The pending bits padded with zero bits to a byte (42_bitcodec.md R165). -/
def paddedByte (s : State) : Byte := s.pbuf <<< (8 - s.pcnt.toNat)

/-- `flush()` and `complete()` (42_bitcodec.md R165). -/
def flushAndComplete (f : Bool) (x : Packing) : State :=
  if f && x.1.pcnt != 0#4 then
    if x.2 + 1 > x.1.lDlen.toNat then x.1.raise .dstFull x.1.lSlen
    else (putByte x (paddedByte x.1)).1.complete
  else x.1.complete

/-- PACK's loop and flush, after the upfront checks (42_bitcodec.md R163). -/
def packAll (f : Bool) (s : State) : State :=
  (forElems packSymbol s.lSlen.toNat 0 (s, 0)).andThen (flushAndComplete f)

/-- PACK and PACK.F: the upfront checks of 42_bitcodec.md R162 in their order, then the loop. -/
def execPack (f : Bool) (s : State) : Host.Outcome State Fault Refusal :=
  .next (
    if decide (s.lSlen.toNat > 0) && !s.hasTree then s.raise .noTree 0#32
    else if s.inputBeyond then s.raise .range 0#32
    else if s.outputBeyond then s.raise .range 1#32
    else if s.areasOverlap then s.raise .overlap 0#32
    else packAll f s)

end Sys2Proof.Machine
end

