-- ==== Sys2Proof/Machine/TreeBuild.lean ====
section
/-! DEFINITION. BUILD: the Huffman tree and the code table (41_tree_build.md). -/

namespace Sys2Proof.Machine

/-- The leaves in insertion order: one for each nonzero count, symbols ascending from `k` (41_tree_build.md R141). -/
def leafNodes : Nat → List Count → List Node
  | _, [] => []
  | k, f :: fs =>
    if f = 0#64 then leafNodes (k + 1) fs
    else .leaf (BitVec.ofNat 8 k) (f.setWidth 72) :: leafNodes (k + 1) fs

/-- The sum of the counts at 72 bits (41_tree_build.md R141). -/
def freqSum (fs : List Count) : Weight := fs.foldl (fun acc f => acc + f.setWidth 72) 0#72

/-- node[h].weight while the arena is being built: `nodes` holds the handles 0, 1, ... in order. -/
def weightAt (nodes : List Node) (h : Nat) : Weight := ((nodes[h]?).map Node.weight).getD 0#72

/-- The key order of 41_tree_build.md R142, R143: `(weight, handle)` compared lexicographically. -/
def lighter (nodes : List Node) (g h : Nat) : Bool :=
  decide (weightAt nodes g < weightAt nodes h) ||
  (weightAt nodes g == weightAt nodes h && decide (g < h))

/-- `argmin_Q (node[h].weight, h)` (00_scope.md R11), with `best` the least so far. -/
def argmin (nodes : List Node) : Nat → List Nat → Nat
  | best, [] => best
  | best, h :: q => if lighter nodes h best then argmin nodes h q else argmin nodes best q

/-- The least handle of the collection and the collection without it (41_tree_build.md R142). -/
def takeLeast (nodes : List Node) : List Nat → Option (Nat × List Nat)
  | [] => none
  | h :: q => some (argmin nodes h q, (h :: q).erase (argmin nodes h q))

/-- The internal node of one merge: the node removed first is the left child, the one removed second the right
(41_tree_build.md R142). -/
def mergedNode (nodes : List Node) (a b : Nat) : Node :=
  .internal (BitVec.ofNat 9 a) (BitVec.ofNat 9 b) (weightAt nodes a + weightAt nodes b)

/-- The merge loop (41_tree_build.md R142): at most `k` passes, each taking the two least handles out of the
collection and putting the new node's handle in. -/
def mergeAll : Nat → List Node → List Nat → List Node
  | 0, nodes, _ => nodes
  | k + 1, nodes, q =>
    match takeLeast nodes q with
    | none => nodes
    | some (a, q₁) =>
      match takeLeast nodes q₁ with
      | none => nodes
      | some (b, q₂) => mergeAll k (nodes ++ [mergedNode nodes a b]) (q₂ ++ [nodes.length])

/-- The nodes of the tree in handle order, for the counts `fs` (41_tree_build.md R141, R142); n leaves take n - 1
passes, so `n` passes are enough. -/
def treeNodes (fs : List Count) : List Node :=
  mergeAll (leafNodes 0 fs).length (leafNodes 0 fs) (List.range (leafNodes 0 fs).length)

/-- The depth-first walk `assign(h, p)` (41_tree_build.md R145), as the list of the entries its leaves emit.
The first argument bounds the depth; a walk from `root` takes `root + 1`, since a child's handle is less than its
parent's (log entry 16). -/
def codeEntries (arena : Vector Node 511) : Nat → Handle → List Bool → List (Symbol × List Bool)
  | 0, _, _ => []
  | k + 1, h, p =>
    match nodeOf arena h with
    | .leaf sym _ => [(sym, p)]
    | .internal l r _ => codeEntries arena k l (p ++ [false]) ++ codeEntries arena k r (p ++ [true])

/-- CODEV after the entries are emitted into a table of false (41_tree_build.md R145). -/
def codeValidOf (entries : List (Symbol × List Bool)) : Vector Bool 256 :=
  entries.foldl (fun v e => setSym v e.1 true) (Vector.replicate 256 false)

/-- CODE after the entries are emitted into a table of empty sequences (41_tree_build.md R145). -/
def codeBitsOf (entries : List (Symbol × List Bool)) : Vector (List Bool) 256 :=
  entries.foldl (fun v e => setSym v e.1 e.2) (Vector.replicate 256 [])

/-- The greatest CODELEN[s] over the s with CODEV[s] = 1, or 0 (41_tree_build.md R146). -/
def greatestLength (codeV : Vector Bool 256) (code : Vector (List Bool) 256) : Nat :=
  (List.zipWith (fun v c => if v then c.length else 0) codeV.toList code.toList).foldl max 0

/-- ROOT for n distinct symbols (41_tree_build.md R146). -/
def rootFor (n : Nat) : Handle := if n = 0 then 0#9 else BitVec.ofNat 9 (2 * n - 2)

/-- The arena with the tree's nodes written from handle 0 on; higher handles keep their contents (10_state.md R42). -/
def builtArena (fs : List Count) (old : Vector Node 511) : Vector Node 511 := overlay 0 (treeNodes fs) old

/-- The entries of the code table for a tree of n distinct symbols; none for n = 0 (41_tree_build.md R144, R145). -/
def builtEntries (n : Nat) (arena : Vector Node 511) : List (Symbol × List Bool) :=
  if n = 0 then [] else codeEntries arena ((rootFor n).toNat + 1) (rootFor n) []

/-- BUILD over the counts `fs` (41_tree_build.md R140 to R146). -/
def buildFrom (fs : List Count) (s : State) : State :=
  let n := (leafNodes 0 fs).length
  let arena := builtArena fs s.arena
  let entries := builtEntries n arena
  { s with
    arena := arena
    codeV := codeValidOf entries
    code := codeBitsOf entries
    nsym := BitVec.ofNat 9 n
    root := rootFor n
    maxLen := BitVec.ofNat 9 (greatestLength (codeValidOf entries) (codeBitsOf entries))
    fsum := freqSum fs
    treeValid := true
    uvalid := false }

/-- BUILD's reads of FREQ, its tree and table, and completion (41_tree_build.md R141, R146). -/
def buildAll (s : State) : State :=
  match s.readAllFreq with
  | (fs, s₁) => (buildFrom fs s₁).complete

/-- BUILD (41_tree_build.md R140). -/
def execBuild (s : State) : Host.Outcome State Fault Refusal := .next (buildAll s)

end Sys2Proof.Machine
end

