-- ==== Sys2Proof/Machine/Unpack.lean ====
section
/-! DEFINITION. The bit unpacker: UINIT and UNPACK (42_bitcodec.md R170 to R178). -/

namespace Sys2Proof.Machine

/-- UINIT (42_bitcodec.md R170): `sint64(TOTAL) ≤ 0` is a signed comparison. -/
def execUinit (s : State) : Host.Outcome State Fault Refusal :=
  .next (
    if decide (s.total.toInt ≤ 0) then s.raise .zeroCount 0#32
    else if !s.hasTree then s.raise .noTree 0#32
    else ({ s with
      urem := s.total
      ucur := s.root
      ubuf := 0#8
      ucnt := 0#4
      uvalid := true }).complete)

/-- A state inside UNPACK with the local variables `in` and `out` (42_bitcodec.md R172). -/
structure Walk where
  st : State
  inp : Nat
  out : Nat

/-- How one pass of UNPACK's loop ends: the loop goes on, or it is left. -/
inductive Pass where
  | again (x : Walk)
  | leave (x : Walk)

/-- `emit(x)` (42_bitcodec.md R172). -/
def emit (sym : Symbol) (x : Walk) : Walk :=
  { x with
    st := { x.st.writeByte (x.st.lDst.toNat + x.out) sym with
      rout := BitVec.ofNat 32 (x.out + 1)
      urem := x.st.urem - 1#64 }
    out := x.out + 1 }

/-- Load the next payload byte into UBUF (42_bitcodec.md R172). -/
def loadByte (x : Walk) : Walk :=
  match x.st.readByte (x.st.lSrc.toNat + x.inp) with
  | (b, s) =>
    { x with
      st := { s with ubuf := b, rin := BitVec.ofNat 32 (x.inp + 1), ucnt := 8#4 }
      inp := x.inp + 1 }

/-- Take the next bit, MSB first, and go down the edge it names from an internal node with children `l` and `r`;
at a leaf, emit its symbol and go back to the root (42_bitcodec.md R172). -/
def takeBit (l r : Handle) (x : Walk) : Walk :=
  let bit := x.st.ubuf.getLsbD (x.st.ucnt.toNat - 1)
  let child := if bit then r else l
  let s := { x.st with ucnt := x.st.ucnt - 1#4, ucur := child }
  match nodeOf s.arena child with
  | .leaf sym _ =>
    let y := emit sym { x with st := s }
    { y with st := { y.st with ucur := y.st.root } }
  | .internal _ _ _ => { x with st := s }

/-- One pass of UNPACK's loop (42_bitcodec.md R172).
The room test stops the loop whenever the output area is full: at a symbol boundary as R172 says, and in the middle of
a code too, which happens only for DLEN = 0, as R177 says. There R172's own test `UCUR == ROOT and out == DLEN` would let
the loop emit past the area (R82, R218) and past buffer memory (R78), so the two rules contradict each other
(log entry 13). -/
def unpackPass (x : Walk) : Pass :=
  if x.st.urem = 0#64 then .leave x
  else if x.out = x.st.lDlen.toNat then .leave { x with st := { x.st with outFull := true } }
  else
    match nodeOf x.st.arena x.st.ucur with
    | .leaf sym _ => .again (emit sym x)
    | .internal l r _ =>
      if x.st.ucnt = 0#4 then
        if x.inp = x.st.lSlen.toNat then .leave { x with st := { x.st with needIn := true } }
        else .again (takeBit l r (loadByte x))
      else .again (takeBit l r x)

/-- The loop of 42_bitcodec.md R172. The first argument bounds the number of passes (log entry 14). -/
def unpackLoop : Nat → Walk → Walk
  | 0, x => x
  | k + 1, x =>
    match unpackPass x with
    | .leave y => y
    | .again y => unpackLoop k y

/-- A bound the loop never reaches: each pass that goes on emits a symbol (UREM falls) or takes a bit
(42_bitcodec.md R177). -/
def unpackBound (s : State) : Nat := s.urem.toNat + 8 * s.lSlen.toNat + s.ucnt.toNat + 1

/-- `finish()` (42_bitcodec.md R175), with `inp` the number of bytes loaded. -/
def finishUnpack (f : Bool) (x : Walk) : State :=
  if x.st.needIn && f then
    ({ x.st with uvalid := false }).raise .truncated (BitVec.ofNat 32 x.inp)
  else if x.st.urem = 0#64 ∧ f = true then ({ x.st with ucnt := 0#4 }).complete
  else x.st.complete

/-- UNPACK's loop and finish, after the upfront checks (42_bitcodec.md R172). -/
def unpackAll (f : Bool) (s : State) : State :=
  finishUnpack f (unpackLoop (unpackBound s) { st := s, inp := 0, out := 0 })

/-- UNPACK and UNPACK.F: the upfront checks of 42_bitcodec.md R172 in their order, then the loop. -/
def execUnpack (f : Bool) (s : State) : Host.Outcome State Fault Refusal :=
  .next (
    if !s.uvalid then s.raise .notInit 0#32
    else if s.inputBeyond then s.raise .range 0#32
    else if s.outputBeyond then s.raise .range 1#32
    else if s.areasOverlap then s.raise .overlap 0#32
    else unpackAll f s)

end Sys2Proof.Machine
end

