-- ==== Sys2Proof/Machine/Dispatch.lean ====
section
/-! DEFINITION. One arm per command (30_encoding.md R102): each is one call of the command's meaning. -/

namespace Sys2Proof.Machine

/-- The meaning of an accepted command over the latched operands (44_control.md R216). -/
def exec (i : Instr) (s : State) : Host.Outcome State Fault Refusal :=
  match i with
  | .nop => Sys2Proof.Machine.execNop s
  | .fclr => Sys2Proof.Machine.execFclr s
  | .hist => Sys2Proof.Machine.execHist s
  | .build => Sys2Proof.Machine.execBuild s
  | .pack f => Sys2Proof.Machine.execPack f s
  | .unpack f => Sys2Proof.Machine.execUnpack f s
  | .uinit => Sys2Proof.Machine.execUinit s
  | .pinit => Sys2Proof.Machine.execPinit s
  | .hdrst => Sys2Proof.Machine.execHdrst s
  | .hdrld => Sys2Proof.Machine.execHdrld s

end Sys2Proof.Machine
end

