-- ==== Sys2Proof/Machine/Engine.lean ====
section
/-! DEFINITION. The Engine's step, the turns of the agents, and the placing of a command word for the next step. -/

namespace Sys2Proof.Machine

/-- The Engine's one step for the accepted word: BADCMD(0) if it does not decode, else the command
(44_control.md R216, 30_encoding.md R104). -/
def engineStep (s : State) : Host.Outcome State Fault Refusal :=
  match decodeWord s.cmdLast with
  | .ok i => exec i s
  | .error _ => .next (s.raise .badCmd 0#32)

/-- One turn. The Engine has no step while BUSY = 0: its turn then changes nothing (44_control.md R216). -/
def takeTurn (t : Turn) (s : State) : Host.Outcome State Fault Refusal :=
  match t with
  | .engine => if s.busy then engineStep s else .next s
  | .host a => hostAccess a s
  | .hardReset => .next s.hardReset

/-- The next turn of the agenda; when it is empty, the Engine's, which an accepted command is always owed
(44_control.md R216), and with BUSY = 0 the block is idle and keeps its state (60_exceptions.md R244). -/
def advance (s : State) : Host.Outcome State Fault Refusal :=
  match s.agenda with
  | [] => takeTurn .engine s
  | t :: rest => takeTurn t { s with agenda := rest }

/-- The state after the Host's write of `w` to CMD has been accepted, the Engine being next (log entry 9).
BUSY and ERR, which would make the block drop the write (10_state.md R27), are 0 for it. -/
def State.placeCommand (s : State) (w : Word) : State :=
  { ({ s with busy := false, err := false }).accept w with agenda := .engine :: s.agenda }

end Sys2Proof.Machine
end

