-- ==== Sys2Proof/Machine/Step.lean ====
section
/-! DEFINITION. The step of the machine, and the placing of an instruction for it. -/

namespace Sys2Proof.Machine

/-- One step of the machine: the next turn (44_control.md R216, 20_memory.md R81). -/
def step (s : State) : Host.Outcome State Fault Refusal := advance s

/-- `s` with the command word `w` (its bits from `nbits` up are 0) accepted and the Engine next, so that the next step
runs it (log entry 9). -/
def State.withFetchWord (s : State) (nbits w : Nat) : State := s.placeCommand (BitVec.ofNat 32 (w % 2 ^ nbits))

end Sys2Proof.Machine
end

