-- ==== Sys2Proof/Safety.lean ====
section
/-! DEFINITION. What counts as a safe state and the end of a run (44_control.md R219), and the invariants the spec
states of the machine. -/

namespace Sys2Proof.Machine

/-- The host run is over: no turn is left and no command runs (44_control.md R219). -/
def State.finished (s : State) : Bool := s.agenda.isEmpty && !s.busy

/-- No UNDEF_READ has been recorded; HOST_RACE stops the machine instead (60_exceptions.md R240, 44_control.md R219). -/
def State.noModelFault (s : State) : Bool := !s.undefRead

/-- No bus error response occurred in the run but those the program expects (44_control.md R219): `expected` lists the
accesses, counted from 0 at the start of the run, whose bus error the program expects. -/
def State.noBusError (s : State) (expected : List Nat) : Bool :=
  s.replies.reverse.zipIdx.all (fun r => r.1 != .busError || expected.contains r.2)

/-- A final state a claim about a run may speak of, for a program that expects these bus errors (44_control.md R219). -/
def State.acceptable (s : State) (expected : List Nat) : Bool :=
  s.finished && s.noModelFault && s.noBusError expected

/-- Buffer memory is in canonical form and holds no byte outside 0..MEM_BYTES-1 (20_memory.md R70, R78). -/
def State.memoryOk (s : State) : Prop := Memory.wf s.mem ∧ ∀ c ∈ s.mem, c.1 < s.memBytes

/-- MEM_BYTES is one of the sizes of 00_scope.md R7. -/
def State.sizeOk (s : State) : Prop := memSizeAllowed s.memBytes = true

/-- The status bits: DONE and ERR are never both 1 (60_exceptions.md R236), a running command has neither
(10_state.md R27), and UVALID implies TREE_VALID (R44). -/
def State.statusOk (s : State) : Prop :=
  ¬(s.done = true ∧ s.err = true) ∧
  (s.busy = true → s.done = false ∧ s.err = false) ∧
  (s.uvalid = true → s.treeValid = true)

/-- The pack accumulator: PCNT ≤ 7, and the bits [7:PCNT] of PBUF are 0 (10_state.md R45). -/
def State.packOk (s : State) : Prop := s.pcnt.toNat ≤ 7 ∧ s.pbuf.toNat < 2 ^ s.pcnt.toNat

/-- The unpack cursor: UCNT ≤ 8 (10_state.md R46), and a valid cursor stands at ROOT or at an internal node
(42_bitcodec.md R174). -/
def State.cursorOk (s : State) : Prop :=
  s.ucnt.toNat ≤ 8 ∧ (s.uvalid = true → s.ucur = s.root ∨ (nodeOf s.arena s.ucur).isLeaf = false)

/-- What TREE_VALID means (10_state.md R44): the arena, the code table, NSYM, ROOT, MAXLEN and FSUM are what a BUILD
over the current FREQ contents makes. Where UNDEF_READ has been recorded nothing is claimed (60_exceptions.md R240). -/
def State.treeOk (s : State) : Prop :=
  s.treeValid = true → s.undefRead = false →
    s.allFreqDefined = true ∧ buildFrom s.freq.toList s = { s with treeValid := true, uvalid := false }

/-- What holds of the machine between its steps. -/
structure State.Good (s : State) : Prop where
  memory : s.memoryOk
  size : s.sizeOk
  status : s.statusOk
  pack : s.packOk
  cursor : s.cursorOk

/-! ### Bits, codes and areas, in the terms the claims use -/

/-- Bits `[n-1:0]` of a byte, the most significant first: the pending bits of the pack accumulator for n = PCNT
(10_state.md R45), the unconsumed bits of the unpack cursor for n = UCNT (R46, 42_bitcodec.md R174). -/
def rightBits (b : Byte) (n : Nat) : List Bool := (List.range n).map (fun k => b.getLsbD (n - 1 - k))

/-- The eight bits of a payload byte in stream order, MSB first (20_memory.md R73). -/
def bitsOfByte (b : Byte) : List Bool := rightBits b 8

/-- Consecutive bytes of buffer memory from `a` are defined and are these. -/
def AreaHolds (m : Memory) (a : Nat) (bs : List Byte) : Prop :=
  ∀ k (hk : k < bs.length), Memory.read m (a + k) = some bs[k]

/-- Byte `k` of a count, byte 0 the least significant (20_memory.md R72). -/
def byteOf (c : Count) (k : Nat) : Byte := (c >>> (8 * k)).setWidth 8

/-- The node reached from `h` along a bit sequence, 0 to the left and 1 to the right, if no leaf is passed
(41_tree_build.md R145). -/
def follow (arena : Vector Node 511) : Handle → List Bool → Option Handle
  | h, [] => some h
  | h, x :: xs =>
    match nodeOf arena h with
    | .leaf _ _ => none
    | .internal l r _ => follow arena (if x then r else l) xs

/-- From ROOT, the bits of CODE[b] lead to a leaf that holds `b` (41_tree_build.md R145, R150). -/
def State.leadsToLeaf (s : State) (b : Symbol) : Prop :=
  ∃ h w, follow s.arena s.root (atSym s.code b) = some h ∧ nodeOf s.arena h = .leaf b w

/-- The walk down from `h`, one edge for each bit, until a leaf is reached or the bits run out: where it ends, and the
bits not consumed (42_bitcodec.md R172). -/
def descend (arena : Vector Node 511) : Handle → List Bool → Handle × List Bool
  | h, [] => (h, [])
  | h, x :: xs =>
    match nodeOf arena h with
    | .leaf _ _ => (h, x :: xs)
    | .internal l r _ => descend arena (if x then r else l) xs

/-- UNPACK as a function of bits (42_bitcodec.md R172, R173): from node `h`, at most `n` symbols of the bits, each walk
after the first starting at the root. It gives the symbols, the node where the walk stands, and the bits not
consumed. -/
def walk (arena : Vector Node 511) (root : Handle) : Nat → Handle → List Bool → List Symbol × Handle × List Bool
  | 0, h, bits => ([], h, bits)
  | n + 1, h, bits =>
    match descend arena h bits with
    | (g, rest) =>
      match nodeOf arena g with
      | .internal _ _ _ => ([], g, rest)
      | .leaf sym _ =>
        match walk arena root n root rest with
        | (syms, k, unread) => (sym :: syms, k, unread)

/-- The codes of a sequence of symbols, one after the other (42_bitcodec.md R163). -/
def State.codesOf (s : State) (xs : List Symbol) : List Bool := xs.flatMap (fun x => atSym s.code x)

/-- The latched areas pass the checks of 60_exceptions.md R226 and R227: each lies inside buffer memory, and two
nonempty ones do not meet. -/
def State.areasFit (s : State) : Prop :=
  s.lSrc.toNat + s.lSlen.toNat ≤ s.memBytes ∧ s.lDst.toNat + s.lDlen.toNat ≤ s.memBytes ∧
  (s.lSlen.toNat = 0 ∨ s.lDlen.toNat = 0 ∨
    s.lDst.toNat + s.lDlen.toNat ≤ s.lSrc.toNat ∨ s.lSrc.toNat + s.lSlen.toNat ≤ s.lDst.toNat)

/-- Address `a` lies in the read set or the write set of command `i` over the latched operands: the table of
20_memory.md R82, row by row. -/
def State.touches (s : State) (a : Nat) : Instr → Prop
  | .hist => s.lSrc.toNat ≤ a ∧ a < s.lSrc.toNat + s.lSlen.toNat
  | .pack _ | .unpack _ =>
    (s.lSrc.toNat ≤ a ∧ a < s.lSrc.toNat + s.lSlen.toNat) ∨
    (s.lDst.toNat ≤ a ∧ a < s.lDst.toNat + s.lDlen.toNat)
  | .hdrld => s.lSrc.toNat ≤ a ∧ a < s.lSrc.toNat + 2056 ∧ a < s.lSrc.toNat + s.lSlen.toNat
  | .hdrst => s.lDst.toNat ≤ a ∧ a < s.lDst.toNat + 2056 ∧ a < s.lDst.toNat + s.lDlen.toNat
  | .nop | .fclr | .build | .pinit | .uinit => False

/-- Handle `g` comes before `h` in the key order `(weight, handle)` (41_tree_build.md R142, R143). -/
def KeyBefore (arena : Vector Node 511) (g h : Handle) : Prop :=
  (nodeOf arena g).weight.toNat < (nodeOf arena h).weight.toNat ∨
  ((nodeOf arena g).weight = (nodeOf arena h).weight ∧ g.toNat < h.toNat)

/-- Handle `g` is in the collection when node `h` is made: it was made earlier, and no node made before `h` has taken
it as a child (41_tree_build.md R142). -/
def InCollection (arena : Vector Node 511) (h g : Handle) : Prop :=
  g.toNat < h.toNat ∧
  ∀ (k l r : Handle) (w : Weight), k.toNat < h.toNat → nodeOf arena k = .internal l r w → g ≠ l ∧ g ≠ r

/-- The registers whose writes are ignored: access RO in 10_state.md section 2. -/
def Reg.readOnly : Reg → Prop
  | .ctrl | .status | .cmd | .src | .slen | .dst | .dlen | .totalLo | .totalHi | .codesel | .nodesel => False
  | .freqLo _ | .freqHi _ => False
  | _ => True

/-- The sum of the counts as a natural number. -/
def sumOf (v : Vector Count 256) : Nat := (v.toList.map BitVec.toNat).sum

/-- The number of symbols with a nonzero count (41_tree_build.md R141). -/
def distinct (v : Vector Count 256) : Nat := (v.toList.filter (fun f => f != 0#64)).length

end Sys2Proof.Machine
end

