-- ==== Sys2Proof/Certificates/Slice0/Obligations.lean ====
section
/-! DEFINITION. The statements for the provers, from the numbered rules of spec/. -/

open Sys2Proof Sys2Proof.Machine

/-! ### Encoding and the Engine's step -/

/-- 30_encoding.md R102, R104: among all 2^32 words, the encodings of R102 and no other words decode, each to its row. -/
def Obligations.DecodeAcceptsExactlyTheEncodings : Prop :=
  ∀ (w : Word) (i : Instr), decodeWord w = .ok i ↔ w = encode i

/-- 30_encoding.md R102: words of the opcode map, and words of 95_test_vectors.md V-N2 that raise BADCMD. -/
def Obligations.SampleWordsDecode : Prop :=
  decodeWord 0x00000000#32 = .ok .nop ∧ decodeWord 0x00000002#32 = .ok .hist ∧
  decodeWord 0x00000104#32 = .ok (.pack true) ∧ decodeWord 0x00000005#32 = .ok (.unpack false) ∧
  decodeWord 0x0000000A#32 = .error .reservedOpcode ∧ decodeWord 0x00000200#32 = .error .reservedBits ∧
  decodeWord 0x00000101#32 = .error .flagNotAllowed

/-- 30_encoding.md R104: the three cases raise BADCMD(0) and change nothing else (60_exceptions.md R230); every other
word selects exactly one command, and the Engine runs it. -/
def Obligations.BadcmdExactlyOnReservedWords : Prop :=
  ∀ (s : State) (rest : List Turn), s.busy = true → s.agenda = .engine :: rest →
    let w := s.cmdLast
    ((0x0A ≤ w.toNat % 256 ∨ w.toNat / 512 ≠ 0 ∨
        (w.getLsbD 8 = true ∧ w.toNat % 256 ≠ 0x04 ∧ w.toNat % 256 ≠ 0x05)) →
      step s = .next { s with agenda := rest, busy := false, err := true, errCode := .badCmd, errInfo := 0#32 }) ∧
    (¬(0x0A ≤ w.toNat % 256 ∨ w.toNat / 512 ≠ 0 ∨
        (w.getLsbD 8 = true ∧ w.toNat % 256 ≠ 0x04 ∧ w.toNat % 256 ≠ 0x05)) →
      ∃ i, (∀ j, decodeWord w = .ok j ↔ j = i) ∧ step s = exec i { s with agenda := rest })

/-- 44_control.md R216: with BUSY = 1 and the Engine's turn next, the step is the meaning of the decoded command over
the state with that turn taken out. That the Engine moves as well when no turn is left is the model's choice (log entry
9), not R216's. -/
def Obligations.StepRunsTheDecodedCommand : Prop :=
  ∀ (s : State) (i : Instr), s.busy = true → decodeWord s.cmdLast = .ok i →
    (∀ rest, s.agenda = .engine :: rest → step s = exec i { s with agenda := rest }) ∧
    (s.agenda = [] → step s = exec i s)

/-- 44_control.md R216, 60_exceptions.md R244: with BUSY = 0 the Engine has no step and all state is kept. That the
Engine's turn, and a step with no turn left, are then steps that keep the state is the model's choice (log entry 11). -/
def Obligations.IdleKeepsTheState : Prop :=
  ∀ s : State, s.busy = false →
    (s.agenda = [] → step s = .next s) ∧
    (∀ rest, s.agenda = .engine :: rest → step s = .next { s with agenda := rest })

/-- 20_memory.md R81: the Host's turn is one access, performed whole in one step. -/
def Obligations.StepPerformsTheHostAccess : Prop :=
  ∀ (s : State) (a : Access) (rest : List Turn), s.agenda = .host a :: rest →
    step s = hostAccess a { s with agenda := rest }

/-- 10_state.md R27: a CMD write is accepted exactly when BUSY = 0 and ERR = 0, with the latches, the cleared
registers and BUSY as R27 says; else it is dropped and only CMDOVR is set. -/
def Obligations.CmdWriteIsAcceptedOrDropped : Prop :=
  ∀ (s : State) (w : Word),
    (s.busy = true ∨ s.err = true →
      hostAccess (.write .word 0x010 w) s = .next ({ s with cmdOvr := true }.answer .done)) ∧
    (s.busy = false → s.err = false →
      hostAccess (.write .word 0x010 w) s = .next ({ s with
        cmdLast := w, lSrc := s.src, lSlen := s.slen, lDst := s.dst, lDlen := s.dlen,
        busy := true, done := false, errCode := .noError, errInfo := 0#32, rin := 0#32, rout := 0#32,
        needIn := false, outFull := false }.answer .done))

/-! ### Commands without a loop -/

/-- 44_control.md R215: the word 0x00000000 is NOP, and NOP only completes. -/
def Obligations.NopOnlyCompletes : Prop :=
  decodeWord 0x00000000#32 = .ok .nop ∧
  ∀ s : State, exec .nop s = .next { s with busy := false, done := true }

/-- 40_frequency.md R121: FCLR zeroes and defines FREQ, zeroes TOTAL, clears TREE_VALID and UVALID, completes, and
changes nothing else. -/
def Obligations.FclrClearsTheTable : Prop :=
  ∀ s : State, exec .fclr s = .next { s with
    freq := Vector.replicate 256 0#64, fdefLo := Vector.replicate 256 true, fdefHi := Vector.replicate 256 true,
    total := 0#64, treeValid := false, uvalid := false, busy := false, done := true }

/-- 42_bitcodec.md R160: the word 0x00000007 is PINIT, which empties the accumulator, completes, and changes nothing
else. -/
def Obligations.PinitEmptiesTheAccumulator : Prop :=
  decodeWord 0x00000007#32 = .ok .pinit ∧
  ∀ s : State, exec .pinit s = .next { s with pbuf := 0#8, pcnt := 0#4, busy := false, done := true }

/-- 42_bitcodec.md R170: the word 0x00000006 is UINIT, which raises ZERO_COUNT(0) when TOTAL is not positive as a signed
number, then NO_TREE(0) without a tree; else it starts the cursor from TOTAL and ROOT. -/
def Obligations.UinitStartsTheCursor : Prop :=
  decodeWord 0x00000006#32 = .ok .uinit ∧
  ∀ s : State,
    (s.total.toInt ≤ 0 → exec .uinit s = .next { s with
      busy := false, err := true, errCode := .zeroCount, errInfo := 0#32 }) ∧
    (0 < s.total.toInt → s.treeValid = false ∨ s.nsym = 0#9 → exec .uinit s = .next { s with
      busy := false, err := true, errCode := .noTree, errInfo := 0#32 }) ∧
    (0 < s.total.toInt → s.treeValid = true → s.nsym ≠ 0#9 → exec .uinit s = .next { s with
      urem := s.total, ucur := s.root, ubuf := 0#8, ucnt := 0#4, uvalid := true, busy := false, done := true })

/-! ### HIST -/

/-- 40_frequency.md R124: HIST over a defined area and a defined table, with room in the counts and in TOTAL, adds the
number of occurrences of each byte to its count and the number of bytes to TOTAL; RIN = SLEN; it clears TREE_VALID and
UVALID and changes nothing else. -/
def Obligations.HistCountsTheBytes : Prop :=
  ∀ (s : State) (bs : List Byte), s.lSrc.toNat + s.lSlen.toNat ≤ s.memBytes → bs.length = s.lSlen.toNat →
    AreaHolds s.mem s.lSrc.toNat bs → s.allFreqDefined = true → s.rin = 0#32 →
    s.total.toNat + bs.length ≤ 2 ^ 63 - 1 → (∀ b, (atSym s.freq b).toNat + bs.count b ≤ 2 ^ 64 - 1) →
    ∃ t, exec .hist s = .next t ∧
      (∀ b, (atSym t.freq b).toNat = (atSym s.freq b).toNat + bs.count b) ∧
      t.total.toNat = s.total.toNat + bs.length ∧
      t = { s with freq := t.freq, total := t.total, treeValid := false, uvalid := false, rin := s.lSlen,
                   busy := false, done := true }

/-- 40_frequency.md R124, R125: HIST stops at the first byte it cannot count with OVERFLOW(i); the bytes before it stay
counted and RIN = i. An area beyond memory raises RANGE(0) before any change. -/
def Obligations.HistStopsAtTheFirstOverflow : Prop :=
  (∀ s : State, s.memBytes < s.lSrc.toNat + s.lSlen.toNat →
    exec .hist s = .next { s with busy := false, err := true, errCode := .range, errInfo := 0#32 }) ∧
  (∀ (s : State) (bs : List Byte) (x : Byte), s.lSrc.toNat + s.lSlen.toNat ≤ s.memBytes →
    bs.length < s.lSlen.toNat → AreaHolds s.mem s.lSrc.toNat (bs ++ [x]) → s.allFreqDefined = true → s.rin = 0#32 →
    (bs = [] ∨ s.total.toNat + bs.length ≤ 2 ^ 63 - 1) →
    (∀ b, (atSym s.freq b).toNat + bs.count b ≤ 2 ^ 64 - 1) →
    (2 ^ 63 - 1 ≤ s.total.toNat + bs.length ∨ (atSym s.freq x).toNat + bs.count x = 2 ^ 64 - 1) →
    ∃ t, exec .hist s = .next t ∧
      (∀ b, (atSym t.freq b).toNat = (atSym s.freq b).toNat + bs.count b) ∧
      t.total.toNat = s.total.toNat + bs.length ∧
      t = { s with freq := t.freq, total := t.total, treeValid := false, uvalid := false,
                   rin := BitVec.ofNat 32 bs.length, busy := false, err := true, errCode := .overflow,
                   errInfo := BitVec.ofNat 32 bs.length })

/-- 40_frequency.md R125: HIST keeps the sum of FREQ equal to TOTAL, also after an OVERFLOW. -/
def Obligations.HistKeepsTheSumEqualToTotal : Prop :=
  ∀ s t : State, s.allFreqDefined = true → sumOf s.freq = s.total.toNat → exec .hist s = .next t →
    sumOf t.freq = t.total.toNat

/-! ### BUILD -/

/-- 41_tree_build.md R140, R141, R146: BUILD over a defined table completes without an error; NSYM is the number of
nonzero counts, ROOT is 2·NSYM − 2 (0 for NSYM = 0), FSUM is the exact sum; beside the tree, its table and registers,
TREE_VALID and UVALID it changes nothing. -/
def Obligations.BuildWritesItsRegisters : Prop :=
  ∀ s : State, s.allFreqDefined = true → ∃ t, exec .build s = .next t ∧
    t.nsym.toNat = distinct s.freq ∧ t.root.toNat = 2 * distinct s.freq - 2 ∧ t.fsum.toNat = sumOf s.freq ∧
    t = { s with arena := t.arena, codeV := t.codeV, code := t.code, nsym := t.nsym, root := t.root,
                 maxLen := t.maxLen, fsum := t.fsum, treeValid := true, uvalid := false,
                 busy := false, done := true }

/-- 41_tree_build.md R141: the leaves are the symbols with a nonzero count, ascending, at the handles 0, 1, ..., each
with its count as weight. -/
def Obligations.BuildMakesTheLeavesInOrder : Prop :=
  ∀ s t : State, s.allFreqDefined = true → exec .build s = .next t →
    ∀ b : Symbol, atSym s.freq b ≠ 0#64 →
      nodeOf t.arena (BitVec.ofNat 9 ((s.freq.toList.take b.toNat).filter (fun f => f != 0#64)).length) =
        .leaf b ((atSym s.freq b).setWidth 72)

/-- 41_tree_build.md R142, R143: every internal handle n..2n−2 is a node whose children are the two least handles of the
collection at that time in the order (weight, handle), the least one left and the next one right, with the exact sum of
their weights; from handle 2n−1 on the arena is as before. -/
def Obligations.BuildMergesInKeyOrder : Prop :=
  ∀ s t : State, s.allFreqDefined = true → exec .build s = .next t →
    (∀ h : Handle, distinct s.freq ≤ h.toNat → h.toNat < 2 * distinct s.freq - 1 →
      ∃ l r w, nodeOf t.arena h = .internal l r w ∧ InCollection t.arena h l ∧ InCollection t.arena h r ∧
        w.toNat = (nodeOf t.arena l).weight.toNat + (nodeOf t.arena r).weight.toNat ∧
        KeyBefore t.arena l r ∧
        (∀ g, InCollection t.arena h g → g ≠ l → g ≠ r → KeyBefore t.arena l g ∧ KeyBefore t.arena r g)) ∧
    (∀ h : Handle, 2 * distinct s.freq - 1 ≤ h.toNat → nodeOf t.arena h = nodeOf s.arena h)

/-- 41_tree_build.md R145, 10_state.md R43: after BUILD exactly the symbols with a nonzero count have a code. -/
def Obligations.BuildGivesCodesToExactlyThePresentSymbols : Prop :=
  ∀ s t : State, s.allFreqDefined = true → exec .build s = .next t →
    ∀ b : Symbol, atSym t.codeV b = true ↔ atSym s.freq b ≠ 0#64

/-- 41_tree_build.md R145, R150: the code of each symbol is the path from ROOT to the leaf that holds it. -/
def Obligations.BuildCodesLeadToTheirLeaves : Prop :=
  ∀ s t : State, exec .build s = .next t → ∀ b : Symbol, atSym t.codeV b = true → t.leadsToLeaf b

/-- 41_tree_build.md R149: after BUILD no code is the beginning of another symbol's code. -/
def Obligations.BuildCodesArePrefixFree : Prop :=
  ∀ s t : State, exec .build s = .next t → ∀ b c : Symbol, b ≠ c →
    atSym t.codeV b = true → atSym t.codeV c = true → ¬ (atSym t.code b).IsPrefix (atSym t.code c)

/-- 41_tree_build.md R145, R146: MAXLEN is the greatest code length, and no code is longer than NSYM − 1. -/
def Obligations.BuildMaxlenIsTheGreatestLength : Prop :=
  ∀ s t : State, s.allFreqDefined = true → exec .build s = .next t →
    (∀ b, atSym t.codeV b = true →
      (atSym t.code b).length ≤ t.maxLen.toNat ∧ (atSym t.code b).length + 1 ≤ distinct s.freq) ∧
    (t.maxLen.toNat = 0 ∨ ∃ b, atSym t.codeV b = true ∧ (atSym t.code b).length = t.maxLen.toNat)

/-- 41_tree_build.md R146: with at least one symbol, the weight of the root is FSUM. -/
def Obligations.BuildRootWeighsTheSum : Prop :=
  ∀ s t : State, s.allFreqDefined = true → exec .build s = .next t → distinct s.freq ≠ 0 →
    (nodeOf t.arena t.root).weight = t.fsum

/-- 41_tree_build.md R148: BUILD twice over the same table leaves the same state as BUILD once. -/
def Obligations.BuildTwiceIsBuildOnce : Prop :=
  ∀ s t : State, s.allFreqDefined = true → exec .build s = .next t → exec .build t = .next t

/-- 60_exceptions.md R240, 10_state.md R48, with the model's choice of log entry 1: BUILD over a table with an undefined
word records UNDEF_READ, and it still completes. -/
def Obligations.BuildOverAnUndefinedTableIsRecorded : Prop :=
  ∀ s : State, s.allFreqDefined = false →
    ∃ t, exec .build s = .next t ∧ t.undefRead = true ∧ t.done = true ∧ t.busy = false

/-! ### PACK -/

/-- 42_bitcodec.md R162: PACK's upfront checks in their order, each raised before any change. -/
def Obligations.PackChecksInOrder : Prop :=
  ∀ (f : Bool) (s : State),
    let noTree := 0 < s.lSlen.toNat ∧ (s.treeValid = false ∨ s.nsym = 0#9)
    let inBad := s.memBytes < s.lSrc.toNat + s.lSlen.toNat
    let outBad := s.memBytes < s.lDst.toNat + s.lDlen.toNat
    let meet := 0 < s.lSlen.toNat ∧ 0 < s.lDlen.toNat ∧ s.lSrc.toNat < s.lDst.toNat + s.lDlen.toNat ∧
      s.lDst.toNat < s.lSrc.toNat + s.lSlen.toNat
    (noTree → exec (.pack f) s = .next { s with busy := false, err := true, errCode := .noTree, errInfo := 0#32 }) ∧
    (¬noTree → inBad →
      exec (.pack f) s = .next { s with busy := false, err := true, errCode := .range, errInfo := 0#32 }) ∧
    (¬noTree → ¬inBad → outBad →
      exec (.pack f) s = .next { s with busy := false, err := true, errCode := .range, errInfo := 1#32 }) ∧
    (¬noTree → ¬inBad → ¬outBad → meet →
      exec (.pack f) s = .next { s with busy := false, err := true, errCode := .overlap, errInfo := 0#32 })

/-- 42_bitcodec.md R163, R164, R165: PACK over defined symbols that have codes, with room for the bytes, completes; the
bits of the bytes it writes from DST on, MSB first, followed by the bits left pending, are the bits pending before
followed by the codes in order; with F = 1 nothing stays pending and the last byte is padded with fewer than eight zero
bits. RIN = SLEN, ROUT is the number of bytes written, and nothing else changes. -/
def Obligations.PackWritesTheCodes : Prop :=
  ∀ (f : Bool) (s : State) (xs : List Symbol), s.areasFit →
    (xs = [] ∨ (s.treeValid = true ∧ s.nsym ≠ 0#9)) → xs.length = s.lSlen.toNat →
    AreaHolds s.mem s.lSrc.toNat xs → (∀ x ∈ xs, atSym s.codeV x = true) → s.packOk →
    s.rin = 0#32 → s.rout = 0#32 →
    (s.pcnt.toNat + (s.codesOf xs).length + (if f then 7 else 0)) / 8 ≤ s.lDlen.toNat →
    ∃ (t : State) (ys : List Byte), exec (.pack f) s = .next t ∧ AreaHolds t.mem s.lDst.toNat ys ∧
      t.rout.toNat = ys.length ∧ t.packOk ∧
      (f = false → ys.flatMap bitsOfByte ++ rightBits t.pbuf t.pcnt.toNat =
        rightBits s.pbuf s.pcnt.toNat ++ s.codesOf xs) ∧
      (f = true → t.pcnt = 0#4 ∧ ∃ pad, pad ≤ 7 ∧
        ys.flatMap bitsOfByte = rightBits s.pbuf s.pcnt.toNat ++ s.codesOf xs ++ List.replicate pad false) ∧
      (∀ a, a < s.lDst.toNat ∨ s.lDst.toNat + ys.length ≤ a → Memory.read t.mem a = Memory.read s.mem a) ∧
      t = { s with mem := t.mem, pbuf := t.pbuf, pcnt := t.pcnt, rout := t.rout, rin := s.lSlen,
                   busy := false, done := true }

/-- 42_bitcodec.md R163, R166: at the first symbol without a code PACK raises NO_CODE(i), at the first whose bytes do
not fit DST_FULL(i); the symbols before it are fully encoded, RIN = i, the pending bits are in the accumulator, and no byte
but the whole ones is stored. -/
def Obligations.PackStopsAtTheSymbol : Prop :=
  ∀ (f : Bool) (s : State) (xs : List Symbol) (y : Symbol), s.areasFit → s.treeValid = true → s.nsym ≠ 0#9 →
    xs.length < s.lSlen.toNat → AreaHolds s.mem s.lSrc.toNat (xs ++ [y]) →
    (∀ x ∈ xs, atSym s.codeV x = true) → s.packOk → s.rin = 0#32 → s.rout = 0#32 →
    (s.pcnt.toNat + (s.codesOf xs).length) / 8 ≤ s.lDlen.toNat →
    (atSym s.codeV y = true → s.lDlen.toNat < (s.pcnt.toNat + (s.codesOf (xs ++ [y])).length) / 8) →
    ∃ (t : State) (ys : List Byte), exec (.pack f) s = .next t ∧ AreaHolds t.mem s.lDst.toNat ys ∧
      t.rout.toNat = ys.length ∧ t.packOk ∧
      ys.flatMap bitsOfByte ++ rightBits t.pbuf t.pcnt.toNat = rightBits s.pbuf s.pcnt.toNat ++ s.codesOf xs ∧
      (∀ a, a < s.lDst.toNat ∨ s.lDst.toNat + ys.length ≤ a → Memory.read t.mem a = Memory.read s.mem a) ∧
      t = { s with mem := t.mem, pbuf := t.pbuf, pcnt := t.pcnt, rout := t.rout,
                   rin := BitVec.ofNat 32 xs.length, busy := false, err := true,
                   errCode := if atSym s.codeV y then .dstFull else .noCode,
                   errInfo := BitVec.ofNat 32 xs.length }

/-- 42_bitcodec.md R165, R166: when every symbol is encoded and the flush alone lacks room, PACK.F raises
DST_FULL(SLEN), the bits stay pending, and no byte outside the output area is stored. -/
def Obligations.PackFlushNeedsRoom : Prop :=
  ∀ (s : State) (xs : List Symbol), s.areasFit →
    (xs = [] ∨ (s.treeValid = true ∧ s.nsym ≠ 0#9)) → xs.length = s.lSlen.toNat →
    AreaHolds s.mem s.lSrc.toNat xs → (∀ x ∈ xs, atSym s.codeV x = true) → s.packOk →
    s.rin = 0#32 → s.rout = 0#32 →
    (s.pcnt.toNat + (s.codesOf xs).length) / 8 = s.lDlen.toNat →
    (s.pcnt.toNat + (s.codesOf xs).length) % 8 ≠ 0 →
    ∃ (t : State) (ys : List Byte), exec (.pack true) s = .next t ∧ AreaHolds t.mem s.lDst.toNat ys ∧
      ys.length = s.lDlen.toNat ∧
      ys.flatMap bitsOfByte ++ rightBits t.pbuf t.pcnt.toNat = rightBits s.pbuf s.pcnt.toNat ++ s.codesOf xs ∧
      (∀ a, a < s.lDst.toNat ∨ s.lDst.toNat + ys.length ≤ a → Memory.read t.mem a = Memory.read s.mem a) ∧
      t = { s with mem := t.mem, pbuf := t.pbuf, pcnt := t.pcnt, rout := s.lDlen, rin := s.lSlen,
                   busy := false, err := true, errCode := .dstFull, errInfo := s.lSlen }

/-! ### UNPACK -/

/-- 42_bitcodec.md R172, R176: UNPACK's upfront checks in their order, each raised before any change. -/
def Obligations.UnpackChecksInOrder : Prop :=
  ∀ (f : Bool) (s : State),
    let inBad := s.memBytes < s.lSrc.toNat + s.lSlen.toNat
    let outBad := s.memBytes < s.lDst.toNat + s.lDlen.toNat
    let meet := 0 < s.lSlen.toNat ∧ 0 < s.lDlen.toNat ∧ s.lSrc.toNat < s.lDst.toNat + s.lDlen.toNat ∧
      s.lDst.toNat < s.lSrc.toNat + s.lSlen.toNat
    (s.uvalid = false →
      exec (.unpack f) s = .next { s with busy := false, err := true, errCode := .notInit, errInfo := 0#32 }) ∧
    (s.uvalid = true → inBad →
      exec (.unpack f) s = .next { s with busy := false, err := true, errCode := .range, errInfo := 0#32 }) ∧
    (s.uvalid = true → ¬inBad → outBad →
      exec (.unpack f) s = .next { s with busy := false, err := true, errCode := .range, errInfo := 1#32 }) ∧
    (s.uvalid = true → ¬inBad → ¬outBad → meet →
      exec (.unpack f) s = .next { s with busy := false, err := true, errCode := .overlap, errInfo := 0#32 })

/-- 42_bitcodec.md R172, R173, R175, R176, from any place of the tree: UNPACK writes at DST exactly the symbols the walk
finds in the unconsumed bits followed by the payload's bits, at most UREM and DLEN of them; the cursor stands where the
walk ends and the bits the walk has not consumed are still to come, in UBUF/UCNT and in the bytes not loaded; only the
bytes needed are loaded; it stops with OUT_FULL when DLEN symbols are written and more are wanted (for DLEN = 0 in the
middle of a code by R177, log entry 13), with NEED_IN when the bits run out, and NEED_IN with F = 1 is TRUNCATED; with
F = 1 and the count reached the pending bits are dropped.
30_encoding.md R108: hence, from the root, when those bits start with the codes of `xs` and `xs` is what is left to
emit, UNPACK completes with exactly `xs` at DST, whatever bits follow. -/
def Obligations.UnpackRecoversTheSymbols : Prop :=
  (∀ (f : Bool) (s : State) (bs : List Byte), s.uvalid = true → s.areasFit → s.cursorOk →
    bs.length = s.lSlen.toNat → AreaHolds s.mem s.lSrc.toNat bs →
    s.needIn = false → s.outFull = false → s.rin = 0#32 → s.rout = 0#32 →
    let bits := rightBits s.ubuf s.ucnt.toNat ++ bs.flatMap bitsOfByte
    let n := min s.urem.toNat s.lDlen.toNat
    let (syms, node, unread) := walk s.arena s.root n s.ucur bits
    let ended := decide (syms.length = s.urem.toNat)
    ∃ t, exec (.unpack f) s = .next t ∧ AreaHolds t.mem s.lDst.toNat syms ∧ t.rout.toNat = syms.length ∧
      (∀ a, a < s.lDst.toNat ∨ s.lDst.toNat + syms.length ≤ a → Memory.read t.mem a = Memory.read s.mem a) ∧
      t.urem.toNat = s.urem.toNat - syms.length ∧
      t.rin.toNat = (bits.length - unread.length - s.ucnt.toNat + 7) / 8 ∧
      t.ubuf = (bs.take t.rin.toNat).getLastD s.ubuf ∧ t.ucnt.toNat ≤ 8 ∧
      (if f && ended then t.ucnt = 0#4
        else rightBits t.ubuf t.ucnt.toNat ++ (bs.drop t.rin.toNat).flatMap bitsOfByte = unread) ∧
      (syms.length < n → unread = []) ∧
      t = { s with
        mem := t.mem, rin := t.rin, rout := t.rout, urem := t.urem, ucur := node, ubuf := t.ubuf, ucnt := t.ucnt,
        needIn := decide (syms.length < n), outFull := !ended && decide (syms.length = n),
        uvalid := !(f && decide (syms.length < n)), busy := false,
        done := s.done || !(f && decide (syms.length < n)), err := s.err || (f && decide (syms.length < n)),
        errCode := if f && decide (syms.length < n) then .truncated else s.errCode,
        errInfo := if f && decide (syms.length < n) then t.rin else s.errInfo }) ∧
  (∀ (f : Bool) (s : State) (bs : List Byte) (xs : List Symbol) (pad : List Bool), s.uvalid = true → s.areasFit →
    bs.length = s.lSlen.toNat → AreaHolds s.mem s.lSrc.toNat bs → s.ucnt.toNat ≤ 8 → s.ucur = s.root →
    (∀ x ∈ xs, s.leadsToLeaf x) →
    rightBits s.ubuf s.ucnt.toNat ++ bs.flatMap bitsOfByte = s.codesOf xs ++ pad →
    s.urem.toNat = xs.length → xs.length ≤ s.lDlen.toNat →
    s.needIn = false → s.outFull = false → s.rin = 0#32 → s.rout = 0#32 →
    ∃ t, exec (.unpack f) s = .next t ∧ AreaHolds t.mem s.lDst.toNat xs ∧ t.rout.toNat = xs.length ∧
      t.rin.toNat = ((s.codesOf xs).length - s.ucnt.toNat + 7) / 8 ∧ (f = true → t.ucnt = 0#4) ∧
      t = { s with mem := t.mem, rout := t.rout, rin := t.rin, urem := 0#64, ubuf := t.ubuf, ucnt := t.ucnt,
                   busy := false, done := true })

/-- 95_test_vectors.md L1-1 (§8 of the source), 30_encoding.md R108: PACK.F of any symbols whose codes lead to their
leaves, then UNPACK.F of the bytes written, over the same tree, gives the symbols back. -/
def Obligations.UnpackInvertsPack : Prop :=
  ∀ (s : State) (xs : List Symbol), s.areasFit → s.treeValid = true → s.nsym ≠ 0#9 → xs.length = s.lSlen.toNat →
    AreaHolds s.mem s.lSrc.toNat xs → (∀ x ∈ xs, atSym s.codeV x = true ∧ s.leadsToLeaf x) →
    s.pbuf = 0#8 → s.pcnt = 0#4 → s.rin = 0#32 → s.rout = 0#32 →
    ((s.codesOf xs).length + 7) / 8 ≤ s.lDlen.toNat →
    ∃ t, exec (.pack true) s = .next t ∧
      ∀ u : State, u.mem = t.mem → u.arena = t.arena → u.code = t.code → u.root = t.root →
        u.lSrc = s.lDst → u.lSlen = t.rout → u.areasFit → u.uvalid = true → u.ucur = u.root → u.ucnt = 0#4 →
        u.urem.toNat = xs.length → xs.length ≤ u.lDlen.toNat →
        u.needIn = false → u.outFull = false → u.rin = 0#32 → u.rout = 0#32 →
        ∃ v, exec (.unpack true) u = .next v ∧ AreaHolds v.mem u.lDst.toNat xs ∧ v.rout.toNat = xs.length ∧
          v.urem = 0#64 ∧ v.err = u.err

/-- 42_bitcodec.md R173: with a leaf as root UNPACK emits its symbol once for each remaining count, as far as the
output area reaches, and consumes no input. -/
def Obligations.UnpackOfOneSymbolConsumesNothing : Prop :=
  ∀ (f : Bool) (s : State) (x : Symbol) (w : Weight), s.uvalid = true → s.areasFit → s.ucur = s.root →
    nodeOf s.arena s.root = .leaf x w → s.needIn = false → s.outFull = false → s.rout = 0#32 →
    ∃ t, exec (.unpack f) s = .next t ∧
      AreaHolds t.mem s.lDst.toNat (List.replicate (min s.urem.toNat s.lDlen.toNat) x) ∧
      t.rout.toNat = min s.urem.toNat s.lDlen.toNat ∧
      t.urem.toNat = s.urem.toNat - min s.urem.toNat s.lDlen.toNat ∧
      t = { s with mem := t.mem, rout := t.rout, urem := t.urem, outFull := decide (s.lDlen.toNat < s.urem.toNat),
                   ucnt := if f && decide (s.urem.toNat ≤ s.lDlen.toNat) then 0#4 else s.ucnt,
                   busy := false, done := true }

/-- 42_bitcodec.md R172, R30 of 10_state.md: whatever happens, each symbol written is taken off UREM, ROUT counts the
symbols written, and no more than DLEN are written. For DLEN = 0 in the middle of a code the bound is that of R177, which
the model follows there (log entry 13). -/
def Obligations.UnpackCountsWhatItWrites : Prop :=
  ∀ (f : Bool) (s t : State), s.rout = 0#32 → exec (.unpack f) s = .next t →
    t.urem.toNat + t.rout.toNat = s.urem.toNat ∧ t.rout.toNat ≤ s.lDlen.toNat

/-- 42_bitcodec.md R175, R176: how UNPACK ends once its checks have passed: TRUNCATED(RIN) exactly when the input ran
out and F = 1, else completion; NEED_IN with all input loaded, OUT_FULL with the area full, neither exactly when the
count is reached. -/
def Obligations.UnpackEndsAsItsFlagsSay : Prop :=
  ∀ (f : Bool) (s t : State), s.uvalid = true → s.areasFit → s.needIn = false → s.outFull = false →
    s.rin = 0#32 → s.rout = 0#32 → exec (.unpack f) s = .next t →
    (t.needIn = true → f = true → t.err = true ∧ t.errCode = .truncated ∧ t.errInfo = t.rin ∧ t.uvalid = false ∧
      t.done = s.done) ∧
    (t.needIn = false ∨ f = false → t.done = true ∧ t.err = s.err ∧ t.errCode = s.errCode ∧
      t.errInfo = s.errInfo ∧ t.uvalid = true) ∧
    (t.needIn = true → t.rin = s.lSlen ∧ t.outFull = false) ∧
    (t.outFull = true → t.rout = s.lDlen) ∧
    (t.urem = 0#64 ↔ t.needIn = false ∧ t.outFull = false) ∧
    (t.urem = 0#64 → f = true → t.ucnt = 0#4)

/-- 42_bitcodec.md R177 (log entry 13): with DLEN = 0 and UREM > 0 OUT_FULL is set at once and nothing is read. -/
def Obligations.UnpackWithoutRoomStopsAtOnce : Prop :=
  ∀ (f : Bool) (s : State), s.uvalid = true → s.areasFit → s.lDlen = 0#32 → s.urem ≠ 0#64 → s.needIn = false →
    exec (.unpack f) s = .next { s with outFull := true, busy := false, done := true }

/-! ### Chunking -/

/-- 42_bitcodec.md R179, for a stream in two chunks (more follow by repetition).
PACK: when PACK of `xs`, then PACK or PACK.F of `ys` from the accumulator it left, and PACK or PACK.F of `xs ++ ys` in one
all complete over the same code table, the bytes of the two laid end to end are the bytes of the one, and the
accumulators end alike.
UNPACK: from the cursor that UNPACK over `bs` left, by NEED_IN, OUT_FULL or the count, UNPACK over the bytes it did not
load followed by `more` writes the symbols that, behind those of the first, UNPACK over `bs ++ more` in one writes with
room for both; the cursors, the flags and the ends are alike, and RIN adds up. After NEED_IN the second output area has
room for a symbol: without it the second stops in the middle of a code (R177, log entry 13), the one at the symbol
before. -/
def Obligations.ChunkingDoesNotChangeResults : Prop :=
  (∀ (f : Bool) (s t u v w z : State) (xs ys : List Symbol),
    (∀ q ∈ [s, u, w], q.rin = 0#32 ∧ q.rout = 0#32 ∧ q.done = false ∧ q.codeV = s.codeV ∧ q.code = s.code) →
    s.packOk → xs.length = s.lSlen.toNat → ys.length = u.lSlen.toNat → (xs ++ ys).length = w.lSlen.toNat →
    AreaHolds s.mem s.lSrc.toNat xs → AreaHolds u.mem u.lSrc.toNat ys → AreaHolds w.mem w.lSrc.toNat (xs ++ ys) →
    u.pbuf = t.pbuf → u.pcnt = t.pcnt → w.pbuf = s.pbuf → w.pcnt = s.pcnt →
    exec (.pack false) s = .next t → exec (.pack f) u = .next v → exec (.pack f) w = .next z →
    t.done = true → v.done = true → z.done = true →
    ∃ as bs : List Byte, AreaHolds t.mem s.lDst.toNat as ∧ AreaHolds v.mem u.lDst.toNat bs ∧
      AreaHolds z.mem w.lDst.toNat (as ++ bs) ∧ t.rout.toNat = as.length ∧ v.rout.toNat = bs.length ∧
      z.rout.toNat = (as ++ bs).length ∧ z.pbuf = v.pbuf ∧ z.pcnt = v.pcnt) ∧
  (∀ (f : Bool) (s t u w : State) (bs more : List Byte),
    (∀ q ∈ [s, u, w], q.uvalid = true ∧ q.areasFit ∧ q.needIn = false ∧ q.outFull = false ∧ q.rin = 0#32 ∧
      q.rout = 0#32 ∧ q.done = false ∧ q.err = false ∧ q.errCode = .noError ∧ q.arena = s.arena ∧ q.root = s.root) →
    s.cursorOk → bs.length = s.lSlen.toNat → AreaHolds s.mem s.lSrc.toNat bs → exec (.unpack false) s = .next t →
    (bs.drop t.rin.toNat ++ more).length = u.lSlen.toNat →
    AreaHolds u.mem u.lSrc.toNat (bs.drop t.rin.toNat ++ more) →
    u.urem = t.urem → u.ucur = t.ucur → u.ubuf = t.ubuf → u.ucnt = t.ucnt →
    (bs ++ more).length = w.lSlen.toNat → AreaHolds w.mem w.lSrc.toNat (bs ++ more) →
    w.urem = s.urem → w.ucur = s.ucur → w.ubuf = s.ubuf → w.ucnt = s.ucnt →
    w.lDlen.toNat = t.rout.toNat + u.lDlen.toNat → (t.needIn = true → u.lDlen ≠ 0#32) →
    ∃ (v z : State) (xs ys : List Symbol), exec (.unpack f) u = .next v ∧ exec (.unpack f) w = .next z ∧
      AreaHolds t.mem s.lDst.toNat xs ∧ AreaHolds v.mem u.lDst.toNat ys ∧ AreaHolds z.mem w.lDst.toNat (xs ++ ys) ∧
      t.rout.toNat = xs.length ∧ v.rout.toNat = ys.length ∧ z.rout.toNat = (xs ++ ys).length ∧
      z.rin.toNat = t.rin.toNat + v.rin.toNat ∧ z.urem = v.urem ∧ z.ucur = v.ucur ∧ z.ubuf = v.ubuf ∧
      z.ucnt = v.ucnt ∧ z.needIn = v.needIn ∧ z.outFull = v.outFull ∧ z.uvalid = v.uvalid ∧ z.done = v.done ∧
      z.err = v.err ∧ z.errCode = v.errCode)

/-! ### The header -/

/-- 43_header.md R201, R205, 60_exceptions.md R231: the header commands' upfront checks in their order, each raised
before any change. -/
def Obligations.HeaderChecksInOrder : Prop :=
  ∀ s : State,
    (s.memBytes < s.lDst.toNat + s.lDlen.toNat → exec .hdrst s = .next { s with
      busy := false, err := true, errCode := .range, errInfo := 1#32 }) ∧
    (s.lDst.toNat + s.lDlen.toNat ≤ s.memBytes → s.lDlen.toNat < 2056 → exec .hdrst s = .next { s with
      busy := false, err := true, errCode := .dstFull, errInfo := 0#32 }) ∧
    (s.memBytes < s.lSrc.toNat + s.lSlen.toNat → exec .hdrld s = .next { s with
      busy := false, err := true, errCode := .range, errInfo := 0#32 }) ∧
    (s.lSrc.toNat + s.lSlen.toNat ≤ s.memBytes → s.lSlen.toNat < 2056 → exec .hdrld s = .next { s with
      busy := false, err := true, errCode := .shortHdr, errInfo := s.lSlen })

/-- 43_header.md R200, R201, R202: HDRST writes TOTAL at DST and FREQ[b] at DST + 8 + 8b, eight bytes each,
little-endian, and no other byte; ROUT = 2056; nothing else changes. -/
def Obligations.HdrstWritesTheHeader : Prop :=
  ∀ s : State, s.lDst.toNat + s.lDlen.toNat ≤ s.memBytes → 2056 ≤ s.lDlen.toNat → s.allFreqDefined = true →
    ∃ t, exec .hdrst s = .next t ∧
      (∀ k, k < 8 → Memory.read t.mem (s.lDst.toNat + k) = some (byteOf s.total k)) ∧
      (∀ (b : Symbol) (k : Nat), k < 8 →
        Memory.read t.mem (s.lDst.toNat + 8 + 8 * b.toNat + k) = some (byteOf (atSym s.freq b) k)) ∧
      (∀ a, a < s.lDst.toNat ∨ s.lDst.toNat + 2056 ≤ a → Memory.read t.mem a = Memory.read s.mem a) ∧
      t = { s with mem := t.mem, rout := 2056#32, busy := false, done := true }

/-- 43_header.md R205, R206: HDRLD over defined header bytes loads TOTAL and every FREQ entry from them and defines
the table; RIN = 2056, TREE_VALID and UVALID are cleared, and nothing else changes. -/
def Obligations.HdrldLoadsTheHeader : Prop :=
  ∀ (s : State) (total : Count) (freq : Vector Count 256), s.lSrc.toNat + s.lSlen.toNat ≤ s.memBytes →
    2056 ≤ s.lSlen.toNat →
    (∀ k, k < 8 → Memory.read s.mem (s.lSrc.toNat + k) = some (byteOf total k)) →
    (∀ (b : Symbol) (k : Nat), k < 8 →
      Memory.read s.mem (s.lSrc.toNat + 8 + 8 * b.toNat + k) = some (byteOf (atSym freq b) k)) →
    exec .hdrld s = .next { s with
      total := total, freq := freq, fdefLo := Vector.replicate 256 true, fdefHi := Vector.replicate 256 true,
      treeValid := false, uvalid := false, rin := 2056#32, busy := false, done := true }

/-- 43_header.md R200, R201, R205: what HDRST stored, HDRLD from the same place loads back. -/
def Obligations.HdrldInvertsHdrst : Prop :=
  ∀ s t : State, s.lDst.toNat + s.lDlen.toNat ≤ s.memBytes → 2056 ≤ s.lDlen.toNat → s.allFreqDefined = true →
    exec .hdrst s = .next t →
    ∀ u : State, u.mem = t.mem → u.memBytes = s.memBytes → u.lSrc = s.lDst → u.lSlen = s.lDlen →
      ∃ v, exec .hdrld u = .next v ∧ v.total = s.total ∧ v.freq = s.freq ∧ v.allFreqDefined = true ∧
        v.undefRead = u.undefRead

/-! ### All commands -/

/-- 20_memory.md R82, R78: no command stores outside its write set, which for the commands that have none is empty.
10_state.md R30, from the 0 that acceptance leaves in RIN and ROUT and on every path: RIN is at most SLEN, ROUT at most
DLEN, and no command stores outside the ROUT bytes from DST on. -/
def Obligations.CommandsStoreOnlyInTheirWriteSet : Prop :=
  ∀ (i : Instr) (s t : State), s.packOk → exec i s = .next t →
    (∀ a, inArea (s.writeArea i) a = false → Memory.read t.mem a = Memory.read s.mem a) ∧
    (s.rin = 0#32 → s.rout = 0#32 →
      t.rin.toNat ≤ s.lSlen.toNat ∧ t.rout.toNat ≤ s.lDlen.toNat ∧
      ∀ a, a < s.lDst.toNat ∨ s.lDst.toNat + t.rout.toNat ≤ a → Memory.read t.mem a = Memory.read s.mem a)

/-- The frame of every command on the registers, on every path (10_state.md R29, R30, R33, R40, R42 to R46,
40_frequency.md R121, 42_bitcodec.md R166): operand registers, latches, CMD, the enables, the selectors and the overrun
bits are never written; FREQ and TOTAL only by FCLR, HIST and HDRLD; the tree, its table and registers only by BUILD;
the accumulator only by PINIT and PACK; the cursor only by UINIT and UNPACK; RIN and ROUT only by the commands that
read or store areas; NEED_IN and OUT_FULL only by UNPACK; TREE_VALID and UVALID as the rows of R44 say. BUSY, DONE, ERR,
ERRCODE and ERRINFO are those of the ends of R229 and R230 (the statement CommandsEndInDoneOrInErr). -/
def Obligations.CommandsKeepWhatIsNotTheirs : Prop :=
  ∀ (i : Instr) (s t : State), exec i s = .next t →
    (t.src = s.src ∧ t.slen = s.slen ∧ t.dst = s.dst ∧ t.dlen = s.dlen ∧ t.lSrc = s.lSrc ∧ t.lSlen = s.lSlen ∧
      t.lDst = s.lDst ∧ t.lDlen = s.lDlen ∧ t.cmdLast = s.cmdLast ∧ t.ieDone = s.ieDone ∧ t.ieErr = s.ieErr ∧
      t.codeSel = s.codeSel ∧ t.nodeSel = s.nodeSel ∧ t.cmdOvr = s.cmdOvr ∧ t.wrOvr = s.wrOvr ∧
      t.memBytes = s.memBytes ∧ t.agenda = s.agenda ∧ t.replies = s.replies) ∧
    (i ≠ .fclr → i ≠ .hist → i ≠ .hdrld →
      t.freq = s.freq ∧ t.fdefLo = s.fdefLo ∧ t.fdefHi = s.fdefHi ∧ t.total = s.total) ∧
    (i ≠ .build → t.arena = s.arena ∧ t.codeV = s.codeV ∧ t.code = s.code ∧ t.nsym = s.nsym ∧ t.root = s.root ∧
      t.maxLen = s.maxLen ∧ t.fsum = s.fsum) ∧
    (i ≠ .pinit → (∀ f, i ≠ .pack f) → t.pbuf = s.pbuf ∧ t.pcnt = s.pcnt) ∧
    (i ≠ .uinit → (∀ f, i ≠ .unpack f) → t.urem = s.urem ∧ t.ucur = s.ucur ∧ t.ubuf = s.ubuf ∧ t.ucnt = s.ucnt) ∧
    (i ≠ .hist → i ≠ .hdrld → (∀ f, i ≠ .pack f) → (∀ f, i ≠ .unpack f) → t.rin = s.rin) ∧
    (i ≠ .hdrst → (∀ f, i ≠ .pack f) → (∀ f, i ≠ .unpack f) → t.rout = s.rout) ∧
    ((∀ f, i ≠ .unpack f) → t.needIn = s.needIn ∧ t.outFull = s.outFull) ∧
    (i = .fclr → t.treeValid = false ∧ t.uvalid = false) ∧
    (i = .hist ∨ i = .hdrld →
      (t.treeValid = false ∧ t.uvalid = false) ∨
      (t.treeValid = s.treeValid ∧ t.uvalid = s.uvalid ∧ t.err = true ∧
        (t.errCode = .range ∨ i = .hdrld ∧ t.errCode = .shortHdr))) ∧
    (i = .build → t.treeValid = true ∧ t.uvalid = false) ∧
    (i = .uinit → t.treeValid = s.treeValid ∧
      ((t.uvalid = true ∧ t.done = true) ∨ (t.uvalid = s.uvalid ∧ t.err = true))) ∧
    ((∃ f, i = .unpack f) → t.treeValid = s.treeValid ∧
      (t.uvalid = s.uvalid ∨ (t.uvalid = false ∧ t.err = true ∧ t.errCode = .truncated))) ∧
    (i = .nop ∨ i = .pinit ∨ i = .hdrst ∨ (∃ f, i = .pack f) → t.treeValid = s.treeValid ∧ t.uvalid = s.uvalid)

/-- 60_exceptions.md R229, R230, R231, R236: every command, from a state with neither DONE nor ERR, ends with BUSY = 0
and exactly one of them; with DONE the error registers are as they were, with ERR an error code is reported. -/
def Obligations.CommandsEndInDoneOrInErr : Prop :=
  ∀ (i : Instr) (s : State), s.done = false → s.err = false → s.errCode = .noError →
    ∃ t, exec i s = .next t ∧ t.busy = false ∧
      ((t.done = true ∧ t.err = false ∧ t.errCode = .noError ∧ t.errInfo = s.errInfo) ∨
       (t.done = false ∧ t.err = true ∧ t.errCode ≠ .noError))

/-! ### Reset -/

/-- 10_state.md R52, 70_reset_and_hazards.md R260, R261: the state after hard reset, in the values the spec gives; and
the platform's hard reset in any state leaves that state, with no command to run. That the parameter MEM_BYTES, a
recorded fault and the model's own fields stay, and storage is unspecified anew, are log entries 3 and 18. -/
def Obligations.ResetLeavesTheBlockIdle : Prop :=
  (∀ (s : State) (rest : List Turn), s.agenda = .hardReset :: rest →
    step s = .next { State.reset with
      memBytes := s.memBytes, undefRead := s.undefRead, draws := s.draws, epoch := s.epoch + 1, agenda := rest,
      replies := s.replies }) ∧
  let s := State.reset
  s.statusWord = 0#32 ∧ s.irq = false ∧ s.ieDone = false ∧ s.ieErr = false ∧ s.busy = false ∧ s.err = false ∧
  s.cmdLast = 0#32 ∧ s.errCode = .noError ∧ s.errInfo = 0#32 ∧ s.rin = 0#32 ∧ s.rout = 0#32 ∧
  s.src = 0#32 ∧ s.slen = 0#32 ∧ s.dst = 0#32 ∧ s.dlen = 0#32 ∧
  s.lSrc = 0#32 ∧ s.lSlen = 0#32 ∧ s.lDst = 0#32 ∧ s.lDlen = 0#32 ∧
  s.total = 0#64 ∧ s.urem = 0#64 ∧ s.ucur = 0#9 ∧ s.ubuf = 0#8 ∧ s.ucnt = 0#4 ∧ s.pbuf = 0#8 ∧ s.pcnt = 0#4 ∧
  s.nsym = 0#9 ∧ s.root = 0#9 ∧ s.maxLen = 0#9 ∧ s.fsum = 0#72 ∧ s.codeSel = 0#8 ∧ s.nodeSel = 0#9 ∧
  (∀ b, atSym s.fdefLo b = false ∧ atSym s.fdefHi b = false) ∧ (∀ a, Memory.read s.mem a = none)

/-- 70_reset_and_hazards.md R262, R264: with BUSY = 0, a CTRL write with SRST = 1 puts every register at its soft reset
value, keeps FREQ, the definedness flags, the arrays and buffer memory, and then sets the enables from bits 1 and 2. -/
def Obligations.SoftResetKeepsTheStorage : Prop :=
  ∀ (s : State) (v : Word), s.busy = false → v.getLsbD 0 = true →
    hostAccess (.write .word 0x008 v) s = .next ({ State.reset with
      ieDone := v.getLsbD 1, ieErr := v.getLsbD 2, memBytes := s.memBytes, freq := s.freq, fdefLo := s.fdefLo,
      fdefHi := s.fdefHi, arena := s.arena, codeV := s.codeV, code := s.code, mem := s.mem,
      undefRead := s.undefRead, draws := s.draws, epoch := s.epoch, agenda := s.agenda,
      replies := s.replies }.answer .done)

/-- 70_reset_and_hazards.md R262, R263: a soft reset that aborts a command puts every register at its soft reset value
and sets the enables, leaves no command to run, and makes undefined what the command could have written: all FREQ words
for FCLR, HIST and HDRLD, the arena and the code table for BUILD, the output area for PACK, UNPACK and HDRST, nothing for
the others and for a word that raises BADCMD; everything else in storage is kept. -/
def Obligations.SoftResetUndefinesWhatItAborts : Prop :=
  ∀ (s : State) (v : Word), s.busy = true → v.getLsbD 0 = true →
    let i := decodeWord s.cmdLast
    ∃ t, hostAccess (.write .word 0x008 v) s = .next t ∧
      t = { State.reset with
        ieDone := v.getLsbD 1, ieErr := v.getLsbD 2, memBytes := s.memBytes, freq := t.freq, fdefLo := t.fdefLo,
        fdefHi := t.fdefHi, arena := t.arena, codeV := t.codeV, code := t.code, mem := t.mem,
        undefRead := s.undefRead, draws := s.draws, epoch := t.epoch, agenda := s.agenda,
        replies := .done :: s.replies } ∧
      (if i = .ok .fclr ∨ i = .ok .hist ∨ i = .ok .hdrld then
        ∀ b, atSym t.fdefLo b = false ∧ atSym t.fdefHi b = false
       else t.freq = s.freq ∧ t.fdefLo = s.fdefLo ∧ t.fdefHi = s.fdefHi) ∧
      (i ≠ .ok .build → t.arena = s.arena ∧ t.codeV = s.codeV ∧ t.code = s.code) ∧
      (∀ a, Memory.read t.mem a =
        if s.lDst.toNat ≤ a ∧ a < s.lDst.toNat + s.lDlen.toNat ∧
            ((∃ f, i = .ok (.pack f)) ∨ (∃ f, i = .ok (.unpack f)) ∨
              (i = .ok .hdrst ∧ a < s.lDst.toNat + 2056)) then none
        else Memory.read s.mem a)

/-! ### Registers and the bus -/

/-- 10_state.md R25, R54: each bit of STATUS, IRQ in bit 9, and 0 in the reserved bits. -/
def Obligations.StatusReadsItsBits : Prop :=
  ∀ s : State,
    s.statusWord.getLsbD 0 = s.busy ∧ s.statusWord.getLsbD 1 = s.done ∧ s.statusWord.getLsbD 2 = s.err ∧
    s.statusWord.getLsbD 3 = s.cmdOvr ∧ s.statusWord.getLsbD 4 = s.wrOvr ∧ s.statusWord.getLsbD 5 = s.treeValid ∧
    s.statusWord.getLsbD 6 = s.uvalid ∧ s.statusWord.getLsbD 7 = s.needIn ∧ s.statusWord.getLsbD 8 = s.outFull ∧
    s.statusWord.getLsbD 9 = ((s.done && s.ieDone) || (s.err && s.ieErr)) ∧
    (∀ k, 10 ≤ k → s.statusWord.getLsbD k = false)

/-- 10_state.md R25, 60_exceptions.md R233: a write to STATUS clears each W1C bit where the written value has a 1, and
changes nothing else; clearing ERR keeps ERRCODE and ERRINFO. -/
def Obligations.StatusWriteClearsWhatIsWrittenOne : Prop :=
  ∀ (s : State) (v : Word), hostAccess (.write .word 0x00C v) s = .next ({ s with
    done := s.done && !(v.getLsbD 1), err := s.err && !(v.getLsbD 2),
    cmdOvr := s.cmdOvr && !(v.getLsbD 3), wrOvr := s.wrOvr && !(v.getLsbD 4) }.answer .done)

/-- 10_state.md R40, R41, R49: a FREQ write while idle replaces that word, defines it and clears TREE_VALID and UVALID;
while BUSY = 1 it is dropped with WROVR. -/
def Obligations.FreqWriteIdleAndBusy : Prop :=
  ∀ (s : State) (b : Symbol) (v : Word),
    (s.busy = false →
      hostAccess (.write .word (0x800 + 8 * b.toNat) v) s = .next ({ s with
        freq := setSym s.freq b ((atSym s.freq b).high ++ v), fdefLo := setSym s.fdefLo b true,
        treeValid := false, uvalid := false }.answer .done) ∧
      hostAccess (.write .word (0x800 + 8 * b.toNat + 4) v) s = .next ({ s with
        freq := setSym s.freq b (v ++ (atSym s.freq b).low), fdefHi := setSym s.fdefHi b true,
        treeValid := false, uvalid := false }.answer .done)) ∧
    (s.busy = true →
      hostAccess (.write .word (0x800 + 8 * b.toNat) v) s = .next ({ s with wrOvr := true }.answer .done) ∧
      hostAccess (.write .word (0x800 + 8 * b.toNat + 4) v) s = .next ({ s with wrOvr := true }.answer .done))

/-- 10_state.md R31, R49: a TOTAL write while idle replaces that word and touches neither validity bit; while BUSY = 1
it is dropped with WROVR.
R29, R37, R38, R49: a write to SRC, SLEN, DST, DLEN, CODESEL or NODESEL replaces that register, reserved bits ignored,
while BUSY = 1 too. R24: a CTRL write with SRST = 0 sets the two enables and nothing else. R22, R23 and section 2: a write
to a read-only register is ignored. -/
def Obligations.RegisterWritesTakeEffect : Prop :=
  ∀ (s : State) (v : Word),
    (s.busy = false →
      hostAccess (.write .word 0x034 v) s = .next ({ s with total := s.total.high ++ v }.answer .done) ∧
      hostAccess (.write .word 0x038 v) s = .next ({ s with total := v ++ s.total.low }.answer .done)) ∧
    (s.busy = true →
      hostAccess (.write .word 0x034 v) s = .next ({ s with wrOvr := true }.answer .done) ∧
      hostAccess (.write .word 0x038 v) s = .next ({ s with wrOvr := true }.answer .done)) ∧
    hostAccess (.write .word 0x01C v) s = .next ({ s with src := v }.answer .done) ∧
    hostAccess (.write .word 0x020 v) s = .next ({ s with slen := v }.answer .done) ∧
    hostAccess (.write .word 0x024 v) s = .next ({ s with dst := v }.answer .done) ∧
    hostAccess (.write .word 0x028 v) s = .next ({ s with dlen := v }.answer .done) ∧
    hostAccess (.write .word 0x064 v) s = .next ({ s with codeSel := BitVec.ofNat 8 v.toNat }.answer .done) ∧
    hostAccess (.write .word 0x06C v) s = .next ({ s with nodeSel := BitVec.ofNat 9 v.toNat }.answer .done) ∧
    (v.getLsbD 0 = false → hostAccess (.write .word 0x008 v) s =
      .next ({ s with ieDone := v.getLsbD 1, ieErr := v.getLsbD 2 }.answer .done)) ∧
    (∀ r : Reg, r.readOnly → hostAccess (.write .word r.offset v) s = .next (s.answer .done))

/-- Every register has an offset of its own; an aligned read gives what it holds while BUSY = 0, and for the registers
10_state.md R50 names while BUSY = 1 too. What each holds, at its offset of section 2: the constants of R22 and R23; CTRL
(R24); STATUS, whose bits StatusReadsItsBits gives; CMD_LAST (R26); ERRCODE's number (60_exceptions.md R225) and ERRINFO
(R28); the operands (R29), RIN and ROUT (R30), TOTAL (R31), UREM (R32), NSYM, ROOT and MAXLEN (R33), FSUM (R34), PACC
(R35), UACC (R36); the code of symbol CODESEL if the tree is valid and it has one, else 0 (R37); the node of handle
NODESEL if the tree is valid and it is one of its nodes, else 0 (R38); the words of FREQ that have been written (R40,
R48). -/
def Obligations.RegistersReadTheirValue : Prop :=
  (∀ r : Reg, Reg.ofOffset r.offset = some r) ∧
  (∀ (s : State) (r : Reg), s.busy = false →
    hostAccess (.read .word r.offset) s = .next (s.answer (.value (s.regValue r)))) ∧
  (∀ (s : State) (r : Reg), r ∈ [Reg.id, .version, .ctrl, .status, .cmd, .src, .slen, .dst, .dlen, .codesel,
      .nodesel] →
    hostAccess (.read .word r.offset) s = .next (s.answer (.value (s.regValue r)))) ∧
  ∀ s : State, s.busy = false →
    let reads (off n : Nat) : Prop :=
      n < 2 ^ 32 ∧ hostAccess (.read .word off) s = .next (s.answer (.value (BitVec.ofNat 32 n)))
    let coded := s.treeValid = true ∧ atSym s.codeV s.codeSel = true
    let shown := s.treeValid = true ∧ s.nsym ≠ 0#9 ∧ s.nodeSel.toNat ≤ s.root.toNat ∧ s.nodeSel ≠ 511#9
    (reads 0x000 0x48554631 ∧ reads 0x004 0x00010000 ∧ reads 0x008 (2 * s.ieDone.toNat + 4 * s.ieErr.toNat) ∧
      reads 0x00C s.statusWord.toNat ∧ reads 0x010 s.cmdLast.toNat ∧ reads 0x018 s.errInfo.toNat ∧
      reads 0x01C s.src.toNat ∧ reads 0x020 s.slen.toNat ∧ reads 0x024 s.dst.toNat ∧ reads 0x028 s.dlen.toNat ∧
      reads 0x02C s.rin.toNat ∧ reads 0x030 s.rout.toNat) ∧
    (∀ e n, (e, n) ∈ [(ErrCode.noError, 0x00), (.badCmd, 0x01), (.range, 0x02), (.overlap, 0x03), (.overflow, 0x04),
        (.noTree, 0x05), (.noCode, 0x06), (.dstFull, 0x07), (.truncated, 0x08), (.zeroCount, 0x09),
        (.shortHdr, 0x0A), (.notInit, 0x0B)] → s.errCode = e → reads 0x014 n) ∧
    (reads 0x034 (s.total.toNat % 2 ^ 32) ∧ reads 0x038 (s.total.toNat / 2 ^ 32) ∧
      reads 0x03C (s.urem.toNat % 2 ^ 32) ∧ reads 0x040 (s.urem.toNat / 2 ^ 32) ∧
      reads 0x044 s.nsym.toNat ∧ reads 0x048 s.root.toNat ∧ reads 0x04C s.maxLen.toNat ∧
      reads 0x050 (s.fsum.toNat % 2 ^ 32) ∧ reads 0x054 (s.fsum.toNat / 2 ^ 32 % 2 ^ 32) ∧
      reads 0x058 (s.fsum.toNat / 2 ^ 64) ∧ reads 0x05C (s.pbuf.toNat + 2 ^ 8 * s.pcnt.toNat) ∧
      reads 0x060 (s.ubuf.toNat + 2 ^ 8 * s.ucnt.toNat + 2 ^ 16 * s.ucur.toNat)) ∧
    (reads 0x064 s.codeSel.toNat ∧
      (coded → reads 0x068 (2 ^ 16 + (atSym s.code s.codeSel).length % 2 ^ 9)) ∧ (¬coded → reads 0x068 0) ∧
      (∀ k : Fin 8, ∃ n, reads (0x0A0 + 4 * k.val) n ∧ (¬coded → n = 0) ∧
        (coded → ∀ j, j < 32 → n.testBit (31 - j) = (atSym s.code s.codeSel).getD (32 * k.val + j) false))) ∧
    (reads 0x06C s.nodeSel.toNat ∧
      (¬shown → reads 0x070 0 ∧ reads 0x074 0 ∧ reads 0x078 0 ∧ reads 0x07C 0 ∧ reads 0x080 0) ∧
      (∀ sym w, shown → nodeOf s.arena s.nodeSel = .leaf sym w →
        reads 0x070 (3 + 2 ^ 8 * sym.toNat) ∧ reads 0x074 0) ∧
      (∀ l r w, shown → nodeOf s.arena s.nodeSel = .internal l r w →
        reads 0x070 1 ∧ reads 0x074 (l.toNat + 2 ^ 16 * r.toNat)) ∧
      (shown → let w := (nodeOf s.arena s.nodeSel).weight.toNat
        reads 0x078 (w % 2 ^ 32) ∧ reads 0x07C (w / 2 ^ 32 % 2 ^ 32) ∧ reads 0x080 (w / 2 ^ 64))) ∧
    (∀ b : Symbol,
      (atSym s.fdefLo b = true → reads (0x800 + 8 * b.toNat) ((atSym s.freq b).toNat % 2 ^ 32)) ∧
      (atSym s.fdefHi b = true → reads (0x800 + 8 * b.toNat + 4) ((atSym s.freq b).toNat / 2 ^ 32)))

/-- 20_memory.md R79: a host read, of any width at any offset, answers and changes no state of the block (the model's
own counter of free values apart). While BUSY = 0 it changes nothing at all, and any two reads of the same place with no
write, command or reset between them get the same answer, a place that nothing has written included (log entry 3). -/
def Obligations.HostReadsChangeNothing : Prop :=
  (∀ (s : State) (w : Width) (off : Nat), ∃ t r, hostAccess (.read w off) s = .next t ∧
    t = { s with draws := t.draws, replies := r :: s.replies }) ∧
  (∀ (s : State) (w : Width) (off : Nat), s.busy = false → ∃ r, ∀ (turns : List Turn) (given : List Reply),
    hostAccess (.read w off) { s with agenda := turns, replies := given } =
      .next ({ s with agenda := turns, replies := given }.answer r))

/-- 20_memory.md R75, R76: a register access that is not an aligned word, a window access that is not naturally aligned
and any access at or above 0x100000 + MEM_BYTES get a bus error response, read nothing, write nothing and change no
state; outside the aperture the block does not decode. -/
def Obligations.BadAccessesHaveNoEffect : Prop :=
  ∀ (s : State) (w : Width) (off : Nat) (v : Word),
    ((off < 0x100000 ∧ (w ≠ .word ∨ off % 4 ≠ 0)) ∨
      (0x100000 ≤ off ∧ off < 0x200000 ∧ (off % w.bytes ≠ 0 ∨ 0x100000 + s.memBytes ≤ off)) →
      hostAccess (.read w off) s = .next (s.answer .busError) ∧
      hostAccess (.write w off v) s = .next (s.answer .busError)) ∧
    (0x200000 ≤ off →
      hostAccess (.read w off) s = .next (s.answer .notDecoded) ∧
      hostAccess (.write w off v) s = .next (s.answer .notDecoded))

/-- 10_state.md R39 and the map of its section 2: a 32-bit aligned read of a reserved offset returns 0 and a write is
ignored. -/
def Obligations.ReservedOffsetsReadZero : Prop :=
  ∀ (s : State) (off : Nat) (v : Word), off % 4 = 0 →
    (0x084 ≤ off ∧ off ≤ 0x09C) ∨ (0x0C0 ≤ off ∧ off ≤ 0x7FC) ∨ (0x1000 ≤ off ∧ off ≤ 0xFFFFC) →
    hostAccess (.read .word off) s = .next (s.answer (.value 0#32)) ∧
    hostAccess (.write .word off v) s = .next (s.answer .done)

/-- 20_memory.md R70, R72, R74: an aligned window write stores its bytes least significant first and leaves every other
byte; reading the place back with the same width gives the value. R82: while a command runs it is the same for every
access that touches neither its read set nor its write set. -/
def Obligations.WindowReadsBackWhatWasWritten : Prop :=
  ∀ (s : State) (w : Width) (a : Nat) (v : Word),
    (∀ i k, s.busy = true → decodeWord s.cmdLast = .ok i → k < w.bytes → ¬ s.touches (a + k) i) →
    s.sizeOk → a < s.memBytes → a % w.bytes = 0 →
    ∃ t, hostAccess (.write w (0x100000 + a) v) s = .next t ∧
      (∀ k, k < w.bytes → Memory.read t.mem (a + k) = some ((v >>> (8 * k)).setWidth 8)) ∧
      (∀ x, x < a ∨ a + w.bytes ≤ x → Memory.read t.mem x = Memory.read s.mem x) ∧
      t = { s with mem := t.mem, replies := .done :: s.replies } ∧
      hostAccess (.read w (0x100000 + a)) t =
        .next (t.answer (.value (BitVec.ofNat 32 (v.toNat % 2 ^ (8 * w.bytes)))))

/-- 20_memory.md R82, 60_exceptions.md R240: a host write races exactly when a command is running and a byte of the
access lies in its read set or write set. That the race ends the machine in the outcome fault is the model's choice (log
entry 2), and so is that one byte of a wide write is enough (log entry 20; R82 speaks of one byte). -/
def Obligations.RacingWriteIsHostRace : Prop :=
  ∀ (s : State) (w : Width) (off : Nat) (v : Word),
    hostAccess (.write w off v) s = .fault .hostRace ↔
      (s.busy = true ∧ 0x100000 ≤ off ∧ off < 0x200000 ∧ off < 0x100000 + s.memBytes ∧ off % w.bytes = 0 ∧
        ∃ i k, decodeWord s.cmdLast = .ok i ∧ k < w.bytes ∧ s.touches (off - 0x100000 + k) i)

/-! ### Invariants of the step -/

/-- Every step keeps: canonical memory inside 0..MEM_BYTES−1 (20_memory.md R70, R78), a legal MEM_BYTES (00_scope.md R7),
the status rules (60_exceptions.md R236, 10_state.md R44), the accumulator's form (R45) and the cursor's (R46,
42_bitcodec.md R174). -/
def Obligations.StepKeepsTheMachineGood : Prop :=
  ∀ s t : State, s.Good → step s = .next t → t.Good

/-- The reset state has that invariant. -/
def Obligations.ResetIsGood : Prop := State.reset.Good

/-- 10_state.md R44: every step keeps what TREE_VALID means: the tree, the code table and their registers are those of a
BUILD over the current FREQ contents. -/
def Obligations.StepKeepsTheTreeTrue : Prop :=
  ∀ s t : State, s.treeOk → step s = .next t → t.treeOk

/-- 60_exceptions.md R240: a recorded model fault is never cleared. -/
def Obligations.RecordedFaultIsNeverCleared : Prop :=
  ∀ s t : State, s.undefRead = true → step s = .next t → t.undefRead = true
end

