-- ==== Sys2Proof/Laws/Memory.lean ====
section
/-! SUPPORT. Laws of buffer memory: read after write, bytes left alone, and the canonical form, for every memory
operation. -/

namespace Sys2Proof.Machine

theorem Memory.read_write (m : Memory) (a x : Nat) (b : Byte) :
    Memory.read (Memory.write m a b) x = if x = a then some b else Memory.read m x := by
  induction m with
  | nil => simp [Memory.write, Memory.read, eq_comm]
  | cons c r ih =>
    obtain ⟨k, v⟩ := c
    simp only [Memory.write]
    by_cases h1 : a < k
    · simp only [if_pos h1, Memory.read, eq_comm (a := a)]
    · by_cases h2 : a = k
      · subst h2
        simp only [lt_irrefl, if_false, if_true, Memory.read]
        by_cases hx : a = x <;> simp [hx, eq_comm]
      · simp only [if_neg h1, if_neg h2, Memory.read, ih]
        by_cases hx : k = x
        · simp [hx, show ¬ x = a by omega]
        · simp [hx]

@[simp] theorem Memory.read_write_same (m : Memory) (a : Nat) (b : Byte) :
    Memory.read (Memory.write m a b) a = some b := by simp [Memory.read_write]

theorem Memory.read_write_other (m : Memory) {a x : Nat} (b : Byte) (h : x ≠ a) :
    Memory.read (Memory.write m a b) x = Memory.read m x := by simp [Memory.read_write, h]

/-- A block write: inside the block the block's bytes, outside it what was there. -/
theorem Memory.read_writeAll (bs : List Byte) (m : Memory) (a x : Nat) :
    Memory.read (Memory.writeAll m a bs) x =
      if a ≤ x ∧ x < a + bs.length then bs[x - a]? else Memory.read m x := by
  induction bs generalizing m a with
  | nil =>
    have : ¬(a ≤ x ∧ x < a + ([] : List Byte).length) := by simp
    rw [if_neg this]; rfl
  | cons b bs ih =>
    rw [Memory.writeAll, ih, Memory.read_write]
    rcases lt_trichotomy x a with h | h | h
    · have h1 : ¬(a + 1 ≤ x ∧ x < a + 1 + bs.length) := by omega
      have h2 : ¬(a ≤ x ∧ x < a + (b :: bs).length) := by omega
      rw [if_neg h1, if_neg h2, if_neg h.ne]
    · subst h; simp
    · have e : x - a = (x - (a + 1)) + 1 := by omega
      have h1 : (a + 1 ≤ x ∧ x < a + 1 + bs.length) ↔ (a ≤ x ∧ x < a + (b :: bs).length) := by
        simp only [List.length_cons]; omega
      simp only [h1, e, List.getElem?_cons_succ, if_neg h.ne']

theorem Memory.mem_write (m : Memory) (a : Nat) (b : Byte) (c : Host.Cell) (h : c ∈ Memory.write m a b) :
    c = (a, b) ∨ c ∈ m := by
  induction m with
  | nil => simp_all [Memory.write]
  | cons d r ih =>
    obtain ⟨k, v⟩ := d
    simp only [Memory.write] at h
    split_ifs at h <;> simp only [List.mem_cons] at h ⊢ <;> tauto

theorem Memory.wf_write {m : Memory} (h : Memory.wf m) (a : Nat) (b : Byte) : Memory.wf (Memory.write m a b) := by
  induction m with
  | nil => simp [Memory.write]
  | cons d r ih =>
    obtain ⟨k, v⟩ := d
    obtain ⟨hk, hr⟩ := List.pairwise_cons.1 h
    simp only [Memory.write]
    split_ifs with h1 h2
    · refine List.pairwise_cons.2 ⟨fun c hc => ?_, h⟩
      rcases List.mem_cons.1 hc with rfl | hc
      · exact h1
      · exact lt_trans h1 (hk c hc)
    · subst h2; exact List.pairwise_cons.2 ⟨hk, hr⟩
    · refine List.pairwise_cons.2 ⟨fun c hc => ?_, ih hr⟩
      rcases Memory.mem_write r a b c hc with rfl | hc
      · show k < a; omega
      · exact hk c hc

theorem Memory.wf_writeAll {m : Memory} (h : Memory.wf m) (a : Nat) (bs : List Byte) :
    Memory.wf (Memory.writeAll m a bs) := by
  induction bs generalizing m a with
  | nil => exact h
  | cons b bs ih => exact ih (Memory.wf_write h a b) (a + 1)

theorem Memory.mem_writeAll (bs : List Byte) (m : Memory) (a : Nat) (c : Host.Cell)
    (h : c ∈ Memory.writeAll m a bs) : (a ≤ c.1 ∧ c.1 < a + bs.length) ∨ c ∈ m := by
  induction bs generalizing m a with
  | nil => exact .inr h
  | cons b bs ih =>
    rcases ih _ _ h with h | h
    · left; simp only [List.length_cons]; omega
    · rcases Memory.mem_write m a b c h with rfl | h
      · left; simp
      · exact .inr h

theorem Memory.wf_forget {m : Memory} (h : Memory.wf m) (lo hi : Nat) : Memory.wf (Memory.forget m lo hi) :=
  h.filter _

theorem Memory.mem_forget {m : Memory} {lo hi : Nat} {c : Host.Cell} (h : c ∈ Memory.forget m lo hi) : c ∈ m :=
  (List.mem_filter.1 h).1

theorem Memory.read_forget (m : Memory) (lo hi x : Nat) :
    Memory.read (Memory.forget m lo hi) x = if lo ≤ x ∧ x < hi then none else Memory.read m x := by
  induction m with
  | nil => simp [Memory.forget, Memory.read]
  | cons c r ih =>
    obtain ⟨k, v⟩ := c
    simp only [Memory.forget] at ih ⊢
    rw [List.filter_cons]
    by_cases hk : lo ≤ k ∧ k < hi
    · have e : (!(decide (lo ≤ k) && decide (k < hi))) = false := by simp [hk.1, hk.2]
      rw [if_neg (by simp [e]), ih]
      simp only [Memory.read]
      split_ifs <;> simp_all
    · have e : (!(decide (lo ≤ k) && decide (k < hi))) = true := by
        rw [Bool.not_eq_true', Bool.and_eq_false_iff]; simp only [decide_eq_false_iff_not]; omega
      rw [if_pos e]
      simp only [Memory.read, ih]
      split_ifs <;> simp_all

/-- A byte is read only where a cell lists it. -/
theorem Memory.mem_of_read {m : Memory} {a : Nat} {b : Byte} (h : Memory.read m a = some b) : (a, b) ∈ m := by
  induction m with
  | nil => simp [Memory.read] at h
  | cons c r ih =>
    obtain ⟨k, v⟩ := c
    simp only [Memory.read] at h
    split_ifs at h with hk
    · simp_all
    · exact List.mem_cons_of_mem _ (ih h)

/-- Equal reads everywhere make equal canonical memories: the list holds nothing but the bytes. -/
theorem Memory.ext_of_read {m m' : Memory} (h : Memory.wf m) (h' : Memory.wf m')
    (e : ∀ a, Memory.read m a = Memory.read m' a) : m = m' := by
  have tail_none : ∀ (k : Nat) (r : Memory), (∀ c ∈ r, k < c.1) → ∀ a, a ≤ k → Memory.read r a = none := by
    intro k r hr a ha
    by_contra hne
    obtain ⟨b, hb⟩ := Option.ne_none_iff_exists'.1 hne
    have := hr _ (Memory.mem_of_read hb)
    simp only at this; omega
  induction m generalizing m' with
  | nil =>
    cases m' with
    | nil => rfl
    | cons c r => have := e c.1; simp [Memory.read] at this
  | cons c r ih =>
    obtain ⟨k, v⟩ := c
    cases m' with
    | nil => have := e k; simp [Memory.read] at this
    | cons c' r' =>
      obtain ⟨k', v'⟩ := c'
      obtain ⟨hk, hr⟩ := List.pairwise_cons.1 h
      obtain ⟨hk', hr'⟩ := List.pairwise_cons.1 h'
      have hkk : k = k' := by
        rcases lt_trichotomy k k' with l | l | l
        · have := e k
          simp only [Memory.read, if_true, if_neg l.ne'] at this
          rw [tail_none k' r' hk' k l.le] at this; simp at this
        · exact l
        · have := e k'
          simp only [Memory.read, if_true, if_neg l.ne'] at this
          rw [tail_none k r hk k' l.le] at this; simp at this
      subst hkk
      have hv := e k
      simp only [Memory.read, if_true, Option.some.injEq] at hv
      subst hv
      refine congrArg _ (ih hr hr' fun a => ?_)
      by_cases ha : a ≤ k
      · rw [tail_none k r hk a ha, tail_none k r' hk' a ha]
      · have := e a
        simpa only [Memory.read, if_neg (show ¬ k = a by omega)] using this

theorem Memory.wf_reset : Memory.wf State.reset.mem := by simp [State.reset]

end Sys2Proof.Machine
end

