-- ==== Sys2Proof/Laws/State.lean ====
section
/-! SUPPORT. What each named update of the state does to each field, one lemma each, all true by rfl. -/

namespace Sys2Proof.Machine

/-! ### complete -/

@[simp] theorem State.complete_memBytes (s : State) : (s.complete).memBytes = s.memBytes := rfl
@[simp] theorem State.complete_ieDone (s : State) : (s.complete).ieDone = s.ieDone := rfl
@[simp] theorem State.complete_ieErr (s : State) : (s.complete).ieErr = s.ieErr := rfl
@[simp] theorem State.complete_busy (s : State) : (s.complete).busy = false := rfl
@[simp] theorem State.complete_done (s : State) : (s.complete).done = true := rfl
@[simp] theorem State.complete_err (s : State) : (s.complete).err = s.err := rfl
@[simp] theorem State.complete_cmdOvr (s : State) : (s.complete).cmdOvr = s.cmdOvr := rfl
@[simp] theorem State.complete_wrOvr (s : State) : (s.complete).wrOvr = s.wrOvr := rfl
@[simp] theorem State.complete_treeValid (s : State) : (s.complete).treeValid = s.treeValid := rfl
@[simp] theorem State.complete_uvalid (s : State) : (s.complete).uvalid = s.uvalid := rfl
@[simp] theorem State.complete_needIn (s : State) : (s.complete).needIn = s.needIn := rfl
@[simp] theorem State.complete_outFull (s : State) : (s.complete).outFull = s.outFull := rfl
@[simp] theorem State.complete_cmdLast (s : State) : (s.complete).cmdLast = s.cmdLast := rfl
@[simp] theorem State.complete_errCode (s : State) : (s.complete).errCode = s.errCode := rfl
@[simp] theorem State.complete_errInfo (s : State) : (s.complete).errInfo = s.errInfo := rfl
@[simp] theorem State.complete_src (s : State) : (s.complete).src = s.src := rfl
@[simp] theorem State.complete_slen (s : State) : (s.complete).slen = s.slen := rfl
@[simp] theorem State.complete_dst (s : State) : (s.complete).dst = s.dst := rfl
@[simp] theorem State.complete_dlen (s : State) : (s.complete).dlen = s.dlen := rfl
@[simp] theorem State.complete_rin (s : State) : (s.complete).rin = s.rin := rfl
@[simp] theorem State.complete_rout (s : State) : (s.complete).rout = s.rout := rfl
@[simp] theorem State.complete_total (s : State) : (s.complete).total = s.total := rfl
@[simp] theorem State.complete_nsym (s : State) : (s.complete).nsym = s.nsym := rfl
@[simp] theorem State.complete_root (s : State) : (s.complete).root = s.root := rfl
@[simp] theorem State.complete_maxLen (s : State) : (s.complete).maxLen = s.maxLen := rfl
@[simp] theorem State.complete_fsum (s : State) : (s.complete).fsum = s.fsum := rfl
@[simp] theorem State.complete_codeSel (s : State) : (s.complete).codeSel = s.codeSel := rfl
@[simp] theorem State.complete_nodeSel (s : State) : (s.complete).nodeSel = s.nodeSel := rfl
@[simp] theorem State.complete_lSrc (s : State) : (s.complete).lSrc = s.lSrc := rfl
@[simp] theorem State.complete_lSlen (s : State) : (s.complete).lSlen = s.lSlen := rfl
@[simp] theorem State.complete_lDst (s : State) : (s.complete).lDst = s.lDst := rfl
@[simp] theorem State.complete_lDlen (s : State) : (s.complete).lDlen = s.lDlen := rfl
@[simp] theorem State.complete_freq (s : State) : (s.complete).freq = s.freq := rfl
@[simp] theorem State.complete_fdefLo (s : State) : (s.complete).fdefLo = s.fdefLo := rfl
@[simp] theorem State.complete_fdefHi (s : State) : (s.complete).fdefHi = s.fdefHi := rfl
@[simp] theorem State.complete_arena (s : State) : (s.complete).arena = s.arena := rfl
@[simp] theorem State.complete_codeV (s : State) : (s.complete).codeV = s.codeV := rfl
@[simp] theorem State.complete_code (s : State) : (s.complete).code = s.code := rfl
@[simp] theorem State.complete_pbuf (s : State) : (s.complete).pbuf = s.pbuf := rfl
@[simp] theorem State.complete_pcnt (s : State) : (s.complete).pcnt = s.pcnt := rfl
@[simp] theorem State.complete_urem (s : State) : (s.complete).urem = s.urem := rfl
@[simp] theorem State.complete_ucur (s : State) : (s.complete).ucur = s.ucur := rfl
@[simp] theorem State.complete_ubuf (s : State) : (s.complete).ubuf = s.ubuf := rfl
@[simp] theorem State.complete_ucnt (s : State) : (s.complete).ucnt = s.ucnt := rfl
@[simp] theorem State.complete_mem (s : State) : (s.complete).mem = s.mem := rfl
@[simp] theorem State.complete_undefRead (s : State) : (s.complete).undefRead = s.undefRead := rfl
@[simp] theorem State.complete_draws (s : State) : (s.complete).draws = s.draws := rfl
@[simp] theorem State.complete_epoch (s : State) : (s.complete).epoch = s.epoch := rfl
@[simp] theorem State.complete_agenda (s : State) : (s.complete).agenda = s.agenda := rfl
@[simp] theorem State.complete_replies (s : State) : (s.complete).replies = s.replies := rfl

/-! ### raise -/

@[simp] theorem State.raise_memBytes (s : State) (e : ErrCode) (i : Word) : (State.raise e i s).memBytes = s.memBytes := rfl
@[simp] theorem State.raise_ieDone (s : State) (e : ErrCode) (i : Word) : (State.raise e i s).ieDone = s.ieDone := rfl
@[simp] theorem State.raise_ieErr (s : State) (e : ErrCode) (i : Word) : (State.raise e i s).ieErr = s.ieErr := rfl
@[simp] theorem State.raise_busy (s : State) (e : ErrCode) (i : Word) : (State.raise e i s).busy = false := rfl
@[simp] theorem State.raise_done (s : State) (e : ErrCode) (i : Word) : (State.raise e i s).done = s.done := rfl
@[simp] theorem State.raise_err (s : State) (e : ErrCode) (i : Word) : (State.raise e i s).err = true := rfl
@[simp] theorem State.raise_cmdOvr (s : State) (e : ErrCode) (i : Word) : (State.raise e i s).cmdOvr = s.cmdOvr := rfl
@[simp] theorem State.raise_wrOvr (s : State) (e : ErrCode) (i : Word) : (State.raise e i s).wrOvr = s.wrOvr := rfl
@[simp] theorem State.raise_treeValid (s : State) (e : ErrCode) (i : Word) : (State.raise e i s).treeValid = s.treeValid := rfl
@[simp] theorem State.raise_uvalid (s : State) (e : ErrCode) (i : Word) : (State.raise e i s).uvalid = s.uvalid := rfl
@[simp] theorem State.raise_needIn (s : State) (e : ErrCode) (i : Word) : (State.raise e i s).needIn = s.needIn := rfl
@[simp] theorem State.raise_outFull (s : State) (e : ErrCode) (i : Word) : (State.raise e i s).outFull = s.outFull := rfl
@[simp] theorem State.raise_cmdLast (s : State) (e : ErrCode) (i : Word) : (State.raise e i s).cmdLast = s.cmdLast := rfl
@[simp] theorem State.raise_errCode (s : State) (e : ErrCode) (i : Word) : (State.raise e i s).errCode = e := rfl
@[simp] theorem State.raise_errInfo (s : State) (e : ErrCode) (i : Word) : (State.raise e i s).errInfo = i := rfl
@[simp] theorem State.raise_src (s : State) (e : ErrCode) (i : Word) : (State.raise e i s).src = s.src := rfl
@[simp] theorem State.raise_slen (s : State) (e : ErrCode) (i : Word) : (State.raise e i s).slen = s.slen := rfl
@[simp] theorem State.raise_dst (s : State) (e : ErrCode) (i : Word) : (State.raise e i s).dst = s.dst := rfl
@[simp] theorem State.raise_dlen (s : State) (e : ErrCode) (i : Word) : (State.raise e i s).dlen = s.dlen := rfl
@[simp] theorem State.raise_rin (s : State) (e : ErrCode) (i : Word) : (State.raise e i s).rin = s.rin := rfl
@[simp] theorem State.raise_rout (s : State) (e : ErrCode) (i : Word) : (State.raise e i s).rout = s.rout := rfl
@[simp] theorem State.raise_total (s : State) (e : ErrCode) (i : Word) : (State.raise e i s).total = s.total := rfl
@[simp] theorem State.raise_nsym (s : State) (e : ErrCode) (i : Word) : (State.raise e i s).nsym = s.nsym := rfl
@[simp] theorem State.raise_root (s : State) (e : ErrCode) (i : Word) : (State.raise e i s).root = s.root := rfl
@[simp] theorem State.raise_maxLen (s : State) (e : ErrCode) (i : Word) : (State.raise e i s).maxLen = s.maxLen := rfl
@[simp] theorem State.raise_fsum (s : State) (e : ErrCode) (i : Word) : (State.raise e i s).fsum = s.fsum := rfl
@[simp] theorem State.raise_codeSel (s : State) (e : ErrCode) (i : Word) : (State.raise e i s).codeSel = s.codeSel := rfl
@[simp] theorem State.raise_nodeSel (s : State) (e : ErrCode) (i : Word) : (State.raise e i s).nodeSel = s.nodeSel := rfl
@[simp] theorem State.raise_lSrc (s : State) (e : ErrCode) (i : Word) : (State.raise e i s).lSrc = s.lSrc := rfl
@[simp] theorem State.raise_lSlen (s : State) (e : ErrCode) (i : Word) : (State.raise e i s).lSlen = s.lSlen := rfl
@[simp] theorem State.raise_lDst (s : State) (e : ErrCode) (i : Word) : (State.raise e i s).lDst = s.lDst := rfl
@[simp] theorem State.raise_lDlen (s : State) (e : ErrCode) (i : Word) : (State.raise e i s).lDlen = s.lDlen := rfl
@[simp] theorem State.raise_freq (s : State) (e : ErrCode) (i : Word) : (State.raise e i s).freq = s.freq := rfl
@[simp] theorem State.raise_fdefLo (s : State) (e : ErrCode) (i : Word) : (State.raise e i s).fdefLo = s.fdefLo := rfl
@[simp] theorem State.raise_fdefHi (s : State) (e : ErrCode) (i : Word) : (State.raise e i s).fdefHi = s.fdefHi := rfl
@[simp] theorem State.raise_arena (s : State) (e : ErrCode) (i : Word) : (State.raise e i s).arena = s.arena := rfl
@[simp] theorem State.raise_codeV (s : State) (e : ErrCode) (i : Word) : (State.raise e i s).codeV = s.codeV := rfl
@[simp] theorem State.raise_code (s : State) (e : ErrCode) (i : Word) : (State.raise e i s).code = s.code := rfl
@[simp] theorem State.raise_pbuf (s : State) (e : ErrCode) (i : Word) : (State.raise e i s).pbuf = s.pbuf := rfl
@[simp] theorem State.raise_pcnt (s : State) (e : ErrCode) (i : Word) : (State.raise e i s).pcnt = s.pcnt := rfl
@[simp] theorem State.raise_urem (s : State) (e : ErrCode) (i : Word) : (State.raise e i s).urem = s.urem := rfl
@[simp] theorem State.raise_ucur (s : State) (e : ErrCode) (i : Word) : (State.raise e i s).ucur = s.ucur := rfl
@[simp] theorem State.raise_ubuf (s : State) (e : ErrCode) (i : Word) : (State.raise e i s).ubuf = s.ubuf := rfl
@[simp] theorem State.raise_ucnt (s : State) (e : ErrCode) (i : Word) : (State.raise e i s).ucnt = s.ucnt := rfl
@[simp] theorem State.raise_mem (s : State) (e : ErrCode) (i : Word) : (State.raise e i s).mem = s.mem := rfl
@[simp] theorem State.raise_undefRead (s : State) (e : ErrCode) (i : Word) : (State.raise e i s).undefRead = s.undefRead := rfl
@[simp] theorem State.raise_draws (s : State) (e : ErrCode) (i : Word) : (State.raise e i s).draws = s.draws := rfl
@[simp] theorem State.raise_epoch (s : State) (e : ErrCode) (i : Word) : (State.raise e i s).epoch = s.epoch := rfl
@[simp] theorem State.raise_agenda (s : State) (e : ErrCode) (i : Word) : (State.raise e i s).agenda = s.agenda := rfl
@[simp] theorem State.raise_replies (s : State) (e : ErrCode) (i : Word) : (State.raise e i s).replies = s.replies := rfl

/-! ### clearErr -/

@[simp] theorem State.clearErr_memBytes (s : State) : (s.clearErr).memBytes = s.memBytes := rfl
@[simp] theorem State.clearErr_ieDone (s : State) : (s.clearErr).ieDone = s.ieDone := rfl
@[simp] theorem State.clearErr_ieErr (s : State) : (s.clearErr).ieErr = s.ieErr := rfl
@[simp] theorem State.clearErr_busy (s : State) : (s.clearErr).busy = s.busy := rfl
@[simp] theorem State.clearErr_done (s : State) : (s.clearErr).done = s.done := rfl
@[simp] theorem State.clearErr_err (s : State) : (s.clearErr).err = false := rfl
@[simp] theorem State.clearErr_cmdOvr (s : State) : (s.clearErr).cmdOvr = s.cmdOvr := rfl
@[simp] theorem State.clearErr_wrOvr (s : State) : (s.clearErr).wrOvr = s.wrOvr := rfl
@[simp] theorem State.clearErr_treeValid (s : State) : (s.clearErr).treeValid = s.treeValid := rfl
@[simp] theorem State.clearErr_uvalid (s : State) : (s.clearErr).uvalid = s.uvalid := rfl
@[simp] theorem State.clearErr_needIn (s : State) : (s.clearErr).needIn = s.needIn := rfl
@[simp] theorem State.clearErr_outFull (s : State) : (s.clearErr).outFull = s.outFull := rfl
@[simp] theorem State.clearErr_cmdLast (s : State) : (s.clearErr).cmdLast = s.cmdLast := rfl
@[simp] theorem State.clearErr_errCode (s : State) : (s.clearErr).errCode = s.errCode := rfl
@[simp] theorem State.clearErr_errInfo (s : State) : (s.clearErr).errInfo = s.errInfo := rfl
@[simp] theorem State.clearErr_src (s : State) : (s.clearErr).src = s.src := rfl
@[simp] theorem State.clearErr_slen (s : State) : (s.clearErr).slen = s.slen := rfl
@[simp] theorem State.clearErr_dst (s : State) : (s.clearErr).dst = s.dst := rfl
@[simp] theorem State.clearErr_dlen (s : State) : (s.clearErr).dlen = s.dlen := rfl
@[simp] theorem State.clearErr_rin (s : State) : (s.clearErr).rin = s.rin := rfl
@[simp] theorem State.clearErr_rout (s : State) : (s.clearErr).rout = s.rout := rfl
@[simp] theorem State.clearErr_total (s : State) : (s.clearErr).total = s.total := rfl
@[simp] theorem State.clearErr_nsym (s : State) : (s.clearErr).nsym = s.nsym := rfl
@[simp] theorem State.clearErr_root (s : State) : (s.clearErr).root = s.root := rfl
@[simp] theorem State.clearErr_maxLen (s : State) : (s.clearErr).maxLen = s.maxLen := rfl
@[simp] theorem State.clearErr_fsum (s : State) : (s.clearErr).fsum = s.fsum := rfl
@[simp] theorem State.clearErr_codeSel (s : State) : (s.clearErr).codeSel = s.codeSel := rfl
@[simp] theorem State.clearErr_nodeSel (s : State) : (s.clearErr).nodeSel = s.nodeSel := rfl
@[simp] theorem State.clearErr_lSrc (s : State) : (s.clearErr).lSrc = s.lSrc := rfl
@[simp] theorem State.clearErr_lSlen (s : State) : (s.clearErr).lSlen = s.lSlen := rfl
@[simp] theorem State.clearErr_lDst (s : State) : (s.clearErr).lDst = s.lDst := rfl
@[simp] theorem State.clearErr_lDlen (s : State) : (s.clearErr).lDlen = s.lDlen := rfl
@[simp] theorem State.clearErr_freq (s : State) : (s.clearErr).freq = s.freq := rfl
@[simp] theorem State.clearErr_fdefLo (s : State) : (s.clearErr).fdefLo = s.fdefLo := rfl
@[simp] theorem State.clearErr_fdefHi (s : State) : (s.clearErr).fdefHi = s.fdefHi := rfl
@[simp] theorem State.clearErr_arena (s : State) : (s.clearErr).arena = s.arena := rfl
@[simp] theorem State.clearErr_codeV (s : State) : (s.clearErr).codeV = s.codeV := rfl
@[simp] theorem State.clearErr_code (s : State) : (s.clearErr).code = s.code := rfl
@[simp] theorem State.clearErr_pbuf (s : State) : (s.clearErr).pbuf = s.pbuf := rfl
@[simp] theorem State.clearErr_pcnt (s : State) : (s.clearErr).pcnt = s.pcnt := rfl
@[simp] theorem State.clearErr_urem (s : State) : (s.clearErr).urem = s.urem := rfl
@[simp] theorem State.clearErr_ucur (s : State) : (s.clearErr).ucur = s.ucur := rfl
@[simp] theorem State.clearErr_ubuf (s : State) : (s.clearErr).ubuf = s.ubuf := rfl
@[simp] theorem State.clearErr_ucnt (s : State) : (s.clearErr).ucnt = s.ucnt := rfl
@[simp] theorem State.clearErr_mem (s : State) : (s.clearErr).mem = s.mem := rfl
@[simp] theorem State.clearErr_undefRead (s : State) : (s.clearErr).undefRead = s.undefRead := rfl
@[simp] theorem State.clearErr_draws (s : State) : (s.clearErr).draws = s.draws := rfl
@[simp] theorem State.clearErr_epoch (s : State) : (s.clearErr).epoch = s.epoch := rfl
@[simp] theorem State.clearErr_agenda (s : State) : (s.clearErr).agenda = s.agenda := rfl
@[simp] theorem State.clearErr_replies (s : State) : (s.clearErr).replies = s.replies := rfl

/-! ### writeByte -/

@[simp] theorem State.writeByte_memBytes (s : State) (a : Nat) (b : Byte) : (s.writeByte a b).memBytes = s.memBytes := rfl
@[simp] theorem State.writeByte_ieDone (s : State) (a : Nat) (b : Byte) : (s.writeByte a b).ieDone = s.ieDone := rfl
@[simp] theorem State.writeByte_ieErr (s : State) (a : Nat) (b : Byte) : (s.writeByte a b).ieErr = s.ieErr := rfl
@[simp] theorem State.writeByte_busy (s : State) (a : Nat) (b : Byte) : (s.writeByte a b).busy = s.busy := rfl
@[simp] theorem State.writeByte_done (s : State) (a : Nat) (b : Byte) : (s.writeByte a b).done = s.done := rfl
@[simp] theorem State.writeByte_err (s : State) (a : Nat) (b : Byte) : (s.writeByte a b).err = s.err := rfl
@[simp] theorem State.writeByte_cmdOvr (s : State) (a : Nat) (b : Byte) : (s.writeByte a b).cmdOvr = s.cmdOvr := rfl
@[simp] theorem State.writeByte_wrOvr (s : State) (a : Nat) (b : Byte) : (s.writeByte a b).wrOvr = s.wrOvr := rfl
@[simp] theorem State.writeByte_treeValid (s : State) (a : Nat) (b : Byte) : (s.writeByte a b).treeValid = s.treeValid := rfl
@[simp] theorem State.writeByte_uvalid (s : State) (a : Nat) (b : Byte) : (s.writeByte a b).uvalid = s.uvalid := rfl
@[simp] theorem State.writeByte_needIn (s : State) (a : Nat) (b : Byte) : (s.writeByte a b).needIn = s.needIn := rfl
@[simp] theorem State.writeByte_outFull (s : State) (a : Nat) (b : Byte) : (s.writeByte a b).outFull = s.outFull := rfl
@[simp] theorem State.writeByte_cmdLast (s : State) (a : Nat) (b : Byte) : (s.writeByte a b).cmdLast = s.cmdLast := rfl
@[simp] theorem State.writeByte_errCode (s : State) (a : Nat) (b : Byte) : (s.writeByte a b).errCode = s.errCode := rfl
@[simp] theorem State.writeByte_errInfo (s : State) (a : Nat) (b : Byte) : (s.writeByte a b).errInfo = s.errInfo := rfl
@[simp] theorem State.writeByte_src (s : State) (a : Nat) (b : Byte) : (s.writeByte a b).src = s.src := rfl
@[simp] theorem State.writeByte_slen (s : State) (a : Nat) (b : Byte) : (s.writeByte a b).slen = s.slen := rfl
@[simp] theorem State.writeByte_dst (s : State) (a : Nat) (b : Byte) : (s.writeByte a b).dst = s.dst := rfl
@[simp] theorem State.writeByte_dlen (s : State) (a : Nat) (b : Byte) : (s.writeByte a b).dlen = s.dlen := rfl
@[simp] theorem State.writeByte_rin (s : State) (a : Nat) (b : Byte) : (s.writeByte a b).rin = s.rin := rfl
@[simp] theorem State.writeByte_rout (s : State) (a : Nat) (b : Byte) : (s.writeByte a b).rout = s.rout := rfl
@[simp] theorem State.writeByte_total (s : State) (a : Nat) (b : Byte) : (s.writeByte a b).total = s.total := rfl
@[simp] theorem State.writeByte_nsym (s : State) (a : Nat) (b : Byte) : (s.writeByte a b).nsym = s.nsym := rfl
@[simp] theorem State.writeByte_root (s : State) (a : Nat) (b : Byte) : (s.writeByte a b).root = s.root := rfl
@[simp] theorem State.writeByte_maxLen (s : State) (a : Nat) (b : Byte) : (s.writeByte a b).maxLen = s.maxLen := rfl
@[simp] theorem State.writeByte_fsum (s : State) (a : Nat) (b : Byte) : (s.writeByte a b).fsum = s.fsum := rfl
@[simp] theorem State.writeByte_codeSel (s : State) (a : Nat) (b : Byte) : (s.writeByte a b).codeSel = s.codeSel := rfl
@[simp] theorem State.writeByte_nodeSel (s : State) (a : Nat) (b : Byte) : (s.writeByte a b).nodeSel = s.nodeSel := rfl
@[simp] theorem State.writeByte_lSrc (s : State) (a : Nat) (b : Byte) : (s.writeByte a b).lSrc = s.lSrc := rfl
@[simp] theorem State.writeByte_lSlen (s : State) (a : Nat) (b : Byte) : (s.writeByte a b).lSlen = s.lSlen := rfl
@[simp] theorem State.writeByte_lDst (s : State) (a : Nat) (b : Byte) : (s.writeByte a b).lDst = s.lDst := rfl
@[simp] theorem State.writeByte_lDlen (s : State) (a : Nat) (b : Byte) : (s.writeByte a b).lDlen = s.lDlen := rfl
@[simp] theorem State.writeByte_freq (s : State) (a : Nat) (b : Byte) : (s.writeByte a b).freq = s.freq := rfl
@[simp] theorem State.writeByte_fdefLo (s : State) (a : Nat) (b : Byte) : (s.writeByte a b).fdefLo = s.fdefLo := rfl
@[simp] theorem State.writeByte_fdefHi (s : State) (a : Nat) (b : Byte) : (s.writeByte a b).fdefHi = s.fdefHi := rfl
@[simp] theorem State.writeByte_arena (s : State) (a : Nat) (b : Byte) : (s.writeByte a b).arena = s.arena := rfl
@[simp] theorem State.writeByte_codeV (s : State) (a : Nat) (b : Byte) : (s.writeByte a b).codeV = s.codeV := rfl
@[simp] theorem State.writeByte_code (s : State) (a : Nat) (b : Byte) : (s.writeByte a b).code = s.code := rfl
@[simp] theorem State.writeByte_pbuf (s : State) (a : Nat) (b : Byte) : (s.writeByte a b).pbuf = s.pbuf := rfl
@[simp] theorem State.writeByte_pcnt (s : State) (a : Nat) (b : Byte) : (s.writeByte a b).pcnt = s.pcnt := rfl
@[simp] theorem State.writeByte_urem (s : State) (a : Nat) (b : Byte) : (s.writeByte a b).urem = s.urem := rfl
@[simp] theorem State.writeByte_ucur (s : State) (a : Nat) (b : Byte) : (s.writeByte a b).ucur = s.ucur := rfl
@[simp] theorem State.writeByte_ubuf (s : State) (a : Nat) (b : Byte) : (s.writeByte a b).ubuf = s.ubuf := rfl
@[simp] theorem State.writeByte_ucnt (s : State) (a : Nat) (b : Byte) : (s.writeByte a b).ucnt = s.ucnt := rfl
@[simp] theorem State.writeByte_mem (s : State) (a : Nat) (b : Byte) : (s.writeByte a b).mem = Memory.write s.mem a b := rfl
@[simp] theorem State.writeByte_undefRead (s : State) (a : Nat) (b : Byte) : (s.writeByte a b).undefRead = s.undefRead := rfl
@[simp] theorem State.writeByte_draws (s : State) (a : Nat) (b : Byte) : (s.writeByte a b).draws = s.draws := rfl
@[simp] theorem State.writeByte_epoch (s : State) (a : Nat) (b : Byte) : (s.writeByte a b).epoch = s.epoch := rfl
@[simp] theorem State.writeByte_agenda (s : State) (a : Nat) (b : Byte) : (s.writeByte a b).agenda = s.agenda := rfl
@[simp] theorem State.writeByte_replies (s : State) (a : Nat) (b : Byte) : (s.writeByte a b).replies = s.replies := rfl

/-! ### writeBytes -/

@[simp] theorem State.writeBytes_memBytes (s : State) (a : Nat) (bs : List Byte) : (s.writeBytes a bs).memBytes = s.memBytes := rfl
@[simp] theorem State.writeBytes_ieDone (s : State) (a : Nat) (bs : List Byte) : (s.writeBytes a bs).ieDone = s.ieDone := rfl
@[simp] theorem State.writeBytes_ieErr (s : State) (a : Nat) (bs : List Byte) : (s.writeBytes a bs).ieErr = s.ieErr := rfl
@[simp] theorem State.writeBytes_busy (s : State) (a : Nat) (bs : List Byte) : (s.writeBytes a bs).busy = s.busy := rfl
@[simp] theorem State.writeBytes_done (s : State) (a : Nat) (bs : List Byte) : (s.writeBytes a bs).done = s.done := rfl
@[simp] theorem State.writeBytes_err (s : State) (a : Nat) (bs : List Byte) : (s.writeBytes a bs).err = s.err := rfl
@[simp] theorem State.writeBytes_cmdOvr (s : State) (a : Nat) (bs : List Byte) : (s.writeBytes a bs).cmdOvr = s.cmdOvr := rfl
@[simp] theorem State.writeBytes_wrOvr (s : State) (a : Nat) (bs : List Byte) : (s.writeBytes a bs).wrOvr = s.wrOvr := rfl
@[simp] theorem State.writeBytes_treeValid (s : State) (a : Nat) (bs : List Byte) : (s.writeBytes a bs).treeValid = s.treeValid := rfl
@[simp] theorem State.writeBytes_uvalid (s : State) (a : Nat) (bs : List Byte) : (s.writeBytes a bs).uvalid = s.uvalid := rfl
@[simp] theorem State.writeBytes_needIn (s : State) (a : Nat) (bs : List Byte) : (s.writeBytes a bs).needIn = s.needIn := rfl
@[simp] theorem State.writeBytes_outFull (s : State) (a : Nat) (bs : List Byte) : (s.writeBytes a bs).outFull = s.outFull := rfl
@[simp] theorem State.writeBytes_cmdLast (s : State) (a : Nat) (bs : List Byte) : (s.writeBytes a bs).cmdLast = s.cmdLast := rfl
@[simp] theorem State.writeBytes_errCode (s : State) (a : Nat) (bs : List Byte) : (s.writeBytes a bs).errCode = s.errCode := rfl
@[simp] theorem State.writeBytes_errInfo (s : State) (a : Nat) (bs : List Byte) : (s.writeBytes a bs).errInfo = s.errInfo := rfl
@[simp] theorem State.writeBytes_src (s : State) (a : Nat) (bs : List Byte) : (s.writeBytes a bs).src = s.src := rfl
@[simp] theorem State.writeBytes_slen (s : State) (a : Nat) (bs : List Byte) : (s.writeBytes a bs).slen = s.slen := rfl
@[simp] theorem State.writeBytes_dst (s : State) (a : Nat) (bs : List Byte) : (s.writeBytes a bs).dst = s.dst := rfl
@[simp] theorem State.writeBytes_dlen (s : State) (a : Nat) (bs : List Byte) : (s.writeBytes a bs).dlen = s.dlen := rfl
@[simp] theorem State.writeBytes_rin (s : State) (a : Nat) (bs : List Byte) : (s.writeBytes a bs).rin = s.rin := rfl
@[simp] theorem State.writeBytes_rout (s : State) (a : Nat) (bs : List Byte) : (s.writeBytes a bs).rout = s.rout := rfl
@[simp] theorem State.writeBytes_total (s : State) (a : Nat) (bs : List Byte) : (s.writeBytes a bs).total = s.total := rfl
@[simp] theorem State.writeBytes_nsym (s : State) (a : Nat) (bs : List Byte) : (s.writeBytes a bs).nsym = s.nsym := rfl
@[simp] theorem State.writeBytes_root (s : State) (a : Nat) (bs : List Byte) : (s.writeBytes a bs).root = s.root := rfl
@[simp] theorem State.writeBytes_maxLen (s : State) (a : Nat) (bs : List Byte) : (s.writeBytes a bs).maxLen = s.maxLen := rfl
@[simp] theorem State.writeBytes_fsum (s : State) (a : Nat) (bs : List Byte) : (s.writeBytes a bs).fsum = s.fsum := rfl
@[simp] theorem State.writeBytes_codeSel (s : State) (a : Nat) (bs : List Byte) : (s.writeBytes a bs).codeSel = s.codeSel := rfl
@[simp] theorem State.writeBytes_nodeSel (s : State) (a : Nat) (bs : List Byte) : (s.writeBytes a bs).nodeSel = s.nodeSel := rfl
@[simp] theorem State.writeBytes_lSrc (s : State) (a : Nat) (bs : List Byte) : (s.writeBytes a bs).lSrc = s.lSrc := rfl
@[simp] theorem State.writeBytes_lSlen (s : State) (a : Nat) (bs : List Byte) : (s.writeBytes a bs).lSlen = s.lSlen := rfl
@[simp] theorem State.writeBytes_lDst (s : State) (a : Nat) (bs : List Byte) : (s.writeBytes a bs).lDst = s.lDst := rfl
@[simp] theorem State.writeBytes_lDlen (s : State) (a : Nat) (bs : List Byte) : (s.writeBytes a bs).lDlen = s.lDlen := rfl
@[simp] theorem State.writeBytes_freq (s : State) (a : Nat) (bs : List Byte) : (s.writeBytes a bs).freq = s.freq := rfl
@[simp] theorem State.writeBytes_fdefLo (s : State) (a : Nat) (bs : List Byte) : (s.writeBytes a bs).fdefLo = s.fdefLo := rfl
@[simp] theorem State.writeBytes_fdefHi (s : State) (a : Nat) (bs : List Byte) : (s.writeBytes a bs).fdefHi = s.fdefHi := rfl
@[simp] theorem State.writeBytes_arena (s : State) (a : Nat) (bs : List Byte) : (s.writeBytes a bs).arena = s.arena := rfl
@[simp] theorem State.writeBytes_codeV (s : State) (a : Nat) (bs : List Byte) : (s.writeBytes a bs).codeV = s.codeV := rfl
@[simp] theorem State.writeBytes_code (s : State) (a : Nat) (bs : List Byte) : (s.writeBytes a bs).code = s.code := rfl
@[simp] theorem State.writeBytes_pbuf (s : State) (a : Nat) (bs : List Byte) : (s.writeBytes a bs).pbuf = s.pbuf := rfl
@[simp] theorem State.writeBytes_pcnt (s : State) (a : Nat) (bs : List Byte) : (s.writeBytes a bs).pcnt = s.pcnt := rfl
@[simp] theorem State.writeBytes_urem (s : State) (a : Nat) (bs : List Byte) : (s.writeBytes a bs).urem = s.urem := rfl
@[simp] theorem State.writeBytes_ucur (s : State) (a : Nat) (bs : List Byte) : (s.writeBytes a bs).ucur = s.ucur := rfl
@[simp] theorem State.writeBytes_ubuf (s : State) (a : Nat) (bs : List Byte) : (s.writeBytes a bs).ubuf = s.ubuf := rfl
@[simp] theorem State.writeBytes_ucnt (s : State) (a : Nat) (bs : List Byte) : (s.writeBytes a bs).ucnt = s.ucnt := rfl
@[simp] theorem State.writeBytes_mem (s : State) (a : Nat) (bs : List Byte) : (s.writeBytes a bs).mem = Memory.writeAll s.mem a bs := rfl
@[simp] theorem State.writeBytes_undefRead (s : State) (a : Nat) (bs : List Byte) : (s.writeBytes a bs).undefRead = s.undefRead := rfl
@[simp] theorem State.writeBytes_draws (s : State) (a : Nat) (bs : List Byte) : (s.writeBytes a bs).draws = s.draws := rfl
@[simp] theorem State.writeBytes_epoch (s : State) (a : Nat) (bs : List Byte) : (s.writeBytes a bs).epoch = s.epoch := rfl
@[simp] theorem State.writeBytes_agenda (s : State) (a : Nat) (bs : List Byte) : (s.writeBytes a bs).agenda = s.agenda := rfl
@[simp] theorem State.writeBytes_replies (s : State) (a : Nat) (bs : List Byte) : (s.writeBytes a bs).replies = s.replies := rfl

/-! ### writeFreq -/

@[simp] theorem State.writeFreq_memBytes (s : State) (b : Symbol) (c : Count) : (s.writeFreq b c).memBytes = s.memBytes := rfl
@[simp] theorem State.writeFreq_ieDone (s : State) (b : Symbol) (c : Count) : (s.writeFreq b c).ieDone = s.ieDone := rfl
@[simp] theorem State.writeFreq_ieErr (s : State) (b : Symbol) (c : Count) : (s.writeFreq b c).ieErr = s.ieErr := rfl
@[simp] theorem State.writeFreq_busy (s : State) (b : Symbol) (c : Count) : (s.writeFreq b c).busy = s.busy := rfl
@[simp] theorem State.writeFreq_done (s : State) (b : Symbol) (c : Count) : (s.writeFreq b c).done = s.done := rfl
@[simp] theorem State.writeFreq_err (s : State) (b : Symbol) (c : Count) : (s.writeFreq b c).err = s.err := rfl
@[simp] theorem State.writeFreq_cmdOvr (s : State) (b : Symbol) (c : Count) : (s.writeFreq b c).cmdOvr = s.cmdOvr := rfl
@[simp] theorem State.writeFreq_wrOvr (s : State) (b : Symbol) (c : Count) : (s.writeFreq b c).wrOvr = s.wrOvr := rfl
@[simp] theorem State.writeFreq_treeValid (s : State) (b : Symbol) (c : Count) : (s.writeFreq b c).treeValid = s.treeValid := rfl
@[simp] theorem State.writeFreq_uvalid (s : State) (b : Symbol) (c : Count) : (s.writeFreq b c).uvalid = s.uvalid := rfl
@[simp] theorem State.writeFreq_needIn (s : State) (b : Symbol) (c : Count) : (s.writeFreq b c).needIn = s.needIn := rfl
@[simp] theorem State.writeFreq_outFull (s : State) (b : Symbol) (c : Count) : (s.writeFreq b c).outFull = s.outFull := rfl
@[simp] theorem State.writeFreq_cmdLast (s : State) (b : Symbol) (c : Count) : (s.writeFreq b c).cmdLast = s.cmdLast := rfl
@[simp] theorem State.writeFreq_errCode (s : State) (b : Symbol) (c : Count) : (s.writeFreq b c).errCode = s.errCode := rfl
@[simp] theorem State.writeFreq_errInfo (s : State) (b : Symbol) (c : Count) : (s.writeFreq b c).errInfo = s.errInfo := rfl
@[simp] theorem State.writeFreq_src (s : State) (b : Symbol) (c : Count) : (s.writeFreq b c).src = s.src := rfl
@[simp] theorem State.writeFreq_slen (s : State) (b : Symbol) (c : Count) : (s.writeFreq b c).slen = s.slen := rfl
@[simp] theorem State.writeFreq_dst (s : State) (b : Symbol) (c : Count) : (s.writeFreq b c).dst = s.dst := rfl
@[simp] theorem State.writeFreq_dlen (s : State) (b : Symbol) (c : Count) : (s.writeFreq b c).dlen = s.dlen := rfl
@[simp] theorem State.writeFreq_rin (s : State) (b : Symbol) (c : Count) : (s.writeFreq b c).rin = s.rin := rfl
@[simp] theorem State.writeFreq_rout (s : State) (b : Symbol) (c : Count) : (s.writeFreq b c).rout = s.rout := rfl
@[simp] theorem State.writeFreq_total (s : State) (b : Symbol) (c : Count) : (s.writeFreq b c).total = s.total := rfl
@[simp] theorem State.writeFreq_nsym (s : State) (b : Symbol) (c : Count) : (s.writeFreq b c).nsym = s.nsym := rfl
@[simp] theorem State.writeFreq_root (s : State) (b : Symbol) (c : Count) : (s.writeFreq b c).root = s.root := rfl
@[simp] theorem State.writeFreq_maxLen (s : State) (b : Symbol) (c : Count) : (s.writeFreq b c).maxLen = s.maxLen := rfl
@[simp] theorem State.writeFreq_fsum (s : State) (b : Symbol) (c : Count) : (s.writeFreq b c).fsum = s.fsum := rfl
@[simp] theorem State.writeFreq_codeSel (s : State) (b : Symbol) (c : Count) : (s.writeFreq b c).codeSel = s.codeSel := rfl
@[simp] theorem State.writeFreq_nodeSel (s : State) (b : Symbol) (c : Count) : (s.writeFreq b c).nodeSel = s.nodeSel := rfl
@[simp] theorem State.writeFreq_lSrc (s : State) (b : Symbol) (c : Count) : (s.writeFreq b c).lSrc = s.lSrc := rfl
@[simp] theorem State.writeFreq_lSlen (s : State) (b : Symbol) (c : Count) : (s.writeFreq b c).lSlen = s.lSlen := rfl
@[simp] theorem State.writeFreq_lDst (s : State) (b : Symbol) (c : Count) : (s.writeFreq b c).lDst = s.lDst := rfl
@[simp] theorem State.writeFreq_lDlen (s : State) (b : Symbol) (c : Count) : (s.writeFreq b c).lDlen = s.lDlen := rfl
@[simp] theorem State.writeFreq_freq (s : State) (b : Symbol) (c : Count) : (s.writeFreq b c).freq = setSym s.freq b c := rfl
@[simp] theorem State.writeFreq_fdefLo (s : State) (b : Symbol) (c : Count) : (s.writeFreq b c).fdefLo = setSym s.fdefLo b true := rfl
@[simp] theorem State.writeFreq_fdefHi (s : State) (b : Symbol) (c : Count) : (s.writeFreq b c).fdefHi = setSym s.fdefHi b true := rfl
@[simp] theorem State.writeFreq_arena (s : State) (b : Symbol) (c : Count) : (s.writeFreq b c).arena = s.arena := rfl
@[simp] theorem State.writeFreq_codeV (s : State) (b : Symbol) (c : Count) : (s.writeFreq b c).codeV = s.codeV := rfl
@[simp] theorem State.writeFreq_code (s : State) (b : Symbol) (c : Count) : (s.writeFreq b c).code = s.code := rfl
@[simp] theorem State.writeFreq_pbuf (s : State) (b : Symbol) (c : Count) : (s.writeFreq b c).pbuf = s.pbuf := rfl
@[simp] theorem State.writeFreq_pcnt (s : State) (b : Symbol) (c : Count) : (s.writeFreq b c).pcnt = s.pcnt := rfl
@[simp] theorem State.writeFreq_urem (s : State) (b : Symbol) (c : Count) : (s.writeFreq b c).urem = s.urem := rfl
@[simp] theorem State.writeFreq_ucur (s : State) (b : Symbol) (c : Count) : (s.writeFreq b c).ucur = s.ucur := rfl
@[simp] theorem State.writeFreq_ubuf (s : State) (b : Symbol) (c : Count) : (s.writeFreq b c).ubuf = s.ubuf := rfl
@[simp] theorem State.writeFreq_ucnt (s : State) (b : Symbol) (c : Count) : (s.writeFreq b c).ucnt = s.ucnt := rfl
@[simp] theorem State.writeFreq_mem (s : State) (b : Symbol) (c : Count) : (s.writeFreq b c).mem = s.mem := rfl
@[simp] theorem State.writeFreq_undefRead (s : State) (b : Symbol) (c : Count) : (s.writeFreq b c).undefRead = s.undefRead := rfl
@[simp] theorem State.writeFreq_draws (s : State) (b : Symbol) (c : Count) : (s.writeFreq b c).draws = s.draws := rfl
@[simp] theorem State.writeFreq_epoch (s : State) (b : Symbol) (c : Count) : (s.writeFreq b c).epoch = s.epoch := rfl
@[simp] theorem State.writeFreq_agenda (s : State) (b : Symbol) (c : Count) : (s.writeFreq b c).agenda = s.agenda := rfl
@[simp] theorem State.writeFreq_replies (s : State) (b : Symbol) (c : Count) : (s.writeFreq b c).replies = s.replies := rfl

/-! ### invalidate -/

@[simp] theorem State.invalidate_memBytes (s : State) : (s.invalidate).memBytes = s.memBytes := rfl
@[simp] theorem State.invalidate_ieDone (s : State) : (s.invalidate).ieDone = s.ieDone := rfl
@[simp] theorem State.invalidate_ieErr (s : State) : (s.invalidate).ieErr = s.ieErr := rfl
@[simp] theorem State.invalidate_busy (s : State) : (s.invalidate).busy = s.busy := rfl
@[simp] theorem State.invalidate_done (s : State) : (s.invalidate).done = s.done := rfl
@[simp] theorem State.invalidate_err (s : State) : (s.invalidate).err = s.err := rfl
@[simp] theorem State.invalidate_cmdOvr (s : State) : (s.invalidate).cmdOvr = s.cmdOvr := rfl
@[simp] theorem State.invalidate_wrOvr (s : State) : (s.invalidate).wrOvr = s.wrOvr := rfl
@[simp] theorem State.invalidate_treeValid (s : State) : (s.invalidate).treeValid = false := rfl
@[simp] theorem State.invalidate_uvalid (s : State) : (s.invalidate).uvalid = false := rfl
@[simp] theorem State.invalidate_needIn (s : State) : (s.invalidate).needIn = s.needIn := rfl
@[simp] theorem State.invalidate_outFull (s : State) : (s.invalidate).outFull = s.outFull := rfl
@[simp] theorem State.invalidate_cmdLast (s : State) : (s.invalidate).cmdLast = s.cmdLast := rfl
@[simp] theorem State.invalidate_errCode (s : State) : (s.invalidate).errCode = s.errCode := rfl
@[simp] theorem State.invalidate_errInfo (s : State) : (s.invalidate).errInfo = s.errInfo := rfl
@[simp] theorem State.invalidate_src (s : State) : (s.invalidate).src = s.src := rfl
@[simp] theorem State.invalidate_slen (s : State) : (s.invalidate).slen = s.slen := rfl
@[simp] theorem State.invalidate_dst (s : State) : (s.invalidate).dst = s.dst := rfl
@[simp] theorem State.invalidate_dlen (s : State) : (s.invalidate).dlen = s.dlen := rfl
@[simp] theorem State.invalidate_rin (s : State) : (s.invalidate).rin = s.rin := rfl
@[simp] theorem State.invalidate_rout (s : State) : (s.invalidate).rout = s.rout := rfl
@[simp] theorem State.invalidate_total (s : State) : (s.invalidate).total = s.total := rfl
@[simp] theorem State.invalidate_nsym (s : State) : (s.invalidate).nsym = s.nsym := rfl
@[simp] theorem State.invalidate_root (s : State) : (s.invalidate).root = s.root := rfl
@[simp] theorem State.invalidate_maxLen (s : State) : (s.invalidate).maxLen = s.maxLen := rfl
@[simp] theorem State.invalidate_fsum (s : State) : (s.invalidate).fsum = s.fsum := rfl
@[simp] theorem State.invalidate_codeSel (s : State) : (s.invalidate).codeSel = s.codeSel := rfl
@[simp] theorem State.invalidate_nodeSel (s : State) : (s.invalidate).nodeSel = s.nodeSel := rfl
@[simp] theorem State.invalidate_lSrc (s : State) : (s.invalidate).lSrc = s.lSrc := rfl
@[simp] theorem State.invalidate_lSlen (s : State) : (s.invalidate).lSlen = s.lSlen := rfl
@[simp] theorem State.invalidate_lDst (s : State) : (s.invalidate).lDst = s.lDst := rfl
@[simp] theorem State.invalidate_lDlen (s : State) : (s.invalidate).lDlen = s.lDlen := rfl
@[simp] theorem State.invalidate_freq (s : State) : (s.invalidate).freq = s.freq := rfl
@[simp] theorem State.invalidate_fdefLo (s : State) : (s.invalidate).fdefLo = s.fdefLo := rfl
@[simp] theorem State.invalidate_fdefHi (s : State) : (s.invalidate).fdefHi = s.fdefHi := rfl
@[simp] theorem State.invalidate_arena (s : State) : (s.invalidate).arena = s.arena := rfl
@[simp] theorem State.invalidate_codeV (s : State) : (s.invalidate).codeV = s.codeV := rfl
@[simp] theorem State.invalidate_code (s : State) : (s.invalidate).code = s.code := rfl
@[simp] theorem State.invalidate_pbuf (s : State) : (s.invalidate).pbuf = s.pbuf := rfl
@[simp] theorem State.invalidate_pcnt (s : State) : (s.invalidate).pcnt = s.pcnt := rfl
@[simp] theorem State.invalidate_urem (s : State) : (s.invalidate).urem = s.urem := rfl
@[simp] theorem State.invalidate_ucur (s : State) : (s.invalidate).ucur = s.ucur := rfl
@[simp] theorem State.invalidate_ubuf (s : State) : (s.invalidate).ubuf = s.ubuf := rfl
@[simp] theorem State.invalidate_ucnt (s : State) : (s.invalidate).ucnt = s.ucnt := rfl
@[simp] theorem State.invalidate_mem (s : State) : (s.invalidate).mem = s.mem := rfl
@[simp] theorem State.invalidate_undefRead (s : State) : (s.invalidate).undefRead = s.undefRead := rfl
@[simp] theorem State.invalidate_draws (s : State) : (s.invalidate).draws = s.draws := rfl
@[simp] theorem State.invalidate_epoch (s : State) : (s.invalidate).epoch = s.epoch := rfl
@[simp] theorem State.invalidate_agenda (s : State) : (s.invalidate).agenda = s.agenda := rfl
@[simp] theorem State.invalidate_replies (s : State) : (s.invalidate).replies = s.replies := rfl

/-! ### accept -/

@[simp] theorem State.accept_memBytes (s : State) (w : Word) : (s.accept w).memBytes = s.memBytes := rfl
@[simp] theorem State.accept_ieDone (s : State) (w : Word) : (s.accept w).ieDone = s.ieDone := rfl
@[simp] theorem State.accept_ieErr (s : State) (w : Word) : (s.accept w).ieErr = s.ieErr := rfl
@[simp] theorem State.accept_busy (s : State) (w : Word) : (s.accept w).busy = true := rfl
@[simp] theorem State.accept_done (s : State) (w : Word) : (s.accept w).done = false := rfl
@[simp] theorem State.accept_err (s : State) (w : Word) : (s.accept w).err = s.err := rfl
@[simp] theorem State.accept_cmdOvr (s : State) (w : Word) : (s.accept w).cmdOvr = s.cmdOvr := rfl
@[simp] theorem State.accept_wrOvr (s : State) (w : Word) : (s.accept w).wrOvr = s.wrOvr := rfl
@[simp] theorem State.accept_treeValid (s : State) (w : Word) : (s.accept w).treeValid = s.treeValid := rfl
@[simp] theorem State.accept_uvalid (s : State) (w : Word) : (s.accept w).uvalid = s.uvalid := rfl
@[simp] theorem State.accept_needIn (s : State) (w : Word) : (s.accept w).needIn = false := rfl
@[simp] theorem State.accept_outFull (s : State) (w : Word) : (s.accept w).outFull = false := rfl
@[simp] theorem State.accept_cmdLast (s : State) (w : Word) : (s.accept w).cmdLast = w := rfl
@[simp] theorem State.accept_errCode (s : State) (w : Word) : (s.accept w).errCode = .noError := rfl
@[simp] theorem State.accept_errInfo (s : State) (w : Word) : (s.accept w).errInfo = 0#32 := rfl
@[simp] theorem State.accept_src (s : State) (w : Word) : (s.accept w).src = s.src := rfl
@[simp] theorem State.accept_slen (s : State) (w : Word) : (s.accept w).slen = s.slen := rfl
@[simp] theorem State.accept_dst (s : State) (w : Word) : (s.accept w).dst = s.dst := rfl
@[simp] theorem State.accept_dlen (s : State) (w : Word) : (s.accept w).dlen = s.dlen := rfl
@[simp] theorem State.accept_rin (s : State) (w : Word) : (s.accept w).rin = 0#32 := rfl
@[simp] theorem State.accept_rout (s : State) (w : Word) : (s.accept w).rout = 0#32 := rfl
@[simp] theorem State.accept_total (s : State) (w : Word) : (s.accept w).total = s.total := rfl
@[simp] theorem State.accept_nsym (s : State) (w : Word) : (s.accept w).nsym = s.nsym := rfl
@[simp] theorem State.accept_root (s : State) (w : Word) : (s.accept w).root = s.root := rfl
@[simp] theorem State.accept_maxLen (s : State) (w : Word) : (s.accept w).maxLen = s.maxLen := rfl
@[simp] theorem State.accept_fsum (s : State) (w : Word) : (s.accept w).fsum = s.fsum := rfl
@[simp] theorem State.accept_codeSel (s : State) (w : Word) : (s.accept w).codeSel = s.codeSel := rfl
@[simp] theorem State.accept_nodeSel (s : State) (w : Word) : (s.accept w).nodeSel = s.nodeSel := rfl
@[simp] theorem State.accept_lSrc (s : State) (w : Word) : (s.accept w).lSrc = s.src := rfl
@[simp] theorem State.accept_lSlen (s : State) (w : Word) : (s.accept w).lSlen = s.slen := rfl
@[simp] theorem State.accept_lDst (s : State) (w : Word) : (s.accept w).lDst = s.dst := rfl
@[simp] theorem State.accept_lDlen (s : State) (w : Word) : (s.accept w).lDlen = s.dlen := rfl
@[simp] theorem State.accept_freq (s : State) (w : Word) : (s.accept w).freq = s.freq := rfl
@[simp] theorem State.accept_fdefLo (s : State) (w : Word) : (s.accept w).fdefLo = s.fdefLo := rfl
@[simp] theorem State.accept_fdefHi (s : State) (w : Word) : (s.accept w).fdefHi = s.fdefHi := rfl
@[simp] theorem State.accept_arena (s : State) (w : Word) : (s.accept w).arena = s.arena := rfl
@[simp] theorem State.accept_codeV (s : State) (w : Word) : (s.accept w).codeV = s.codeV := rfl
@[simp] theorem State.accept_code (s : State) (w : Word) : (s.accept w).code = s.code := rfl
@[simp] theorem State.accept_pbuf (s : State) (w : Word) : (s.accept w).pbuf = s.pbuf := rfl
@[simp] theorem State.accept_pcnt (s : State) (w : Word) : (s.accept w).pcnt = s.pcnt := rfl
@[simp] theorem State.accept_urem (s : State) (w : Word) : (s.accept w).urem = s.urem := rfl
@[simp] theorem State.accept_ucur (s : State) (w : Word) : (s.accept w).ucur = s.ucur := rfl
@[simp] theorem State.accept_ubuf (s : State) (w : Word) : (s.accept w).ubuf = s.ubuf := rfl
@[simp] theorem State.accept_ucnt (s : State) (w : Word) : (s.accept w).ucnt = s.ucnt := rfl
@[simp] theorem State.accept_mem (s : State) (w : Word) : (s.accept w).mem = s.mem := rfl
@[simp] theorem State.accept_undefRead (s : State) (w : Word) : (s.accept w).undefRead = s.undefRead := rfl
@[simp] theorem State.accept_draws (s : State) (w : Word) : (s.accept w).draws = s.draws := rfl
@[simp] theorem State.accept_epoch (s : State) (w : Word) : (s.accept w).epoch = s.epoch := rfl
@[simp] theorem State.accept_agenda (s : State) (w : Word) : (s.accept w).agenda = s.agenda := rfl
@[simp] theorem State.accept_replies (s : State) (w : Word) : (s.accept w).replies = s.replies := rfl

/-! ### answer -/

@[simp] theorem State.answer_memBytes (s : State) (r : Reply) : (s.answer r).memBytes = s.memBytes := rfl
@[simp] theorem State.answer_ieDone (s : State) (r : Reply) : (s.answer r).ieDone = s.ieDone := rfl
@[simp] theorem State.answer_ieErr (s : State) (r : Reply) : (s.answer r).ieErr = s.ieErr := rfl
@[simp] theorem State.answer_busy (s : State) (r : Reply) : (s.answer r).busy = s.busy := rfl
@[simp] theorem State.answer_done (s : State) (r : Reply) : (s.answer r).done = s.done := rfl
@[simp] theorem State.answer_err (s : State) (r : Reply) : (s.answer r).err = s.err := rfl
@[simp] theorem State.answer_cmdOvr (s : State) (r : Reply) : (s.answer r).cmdOvr = s.cmdOvr := rfl
@[simp] theorem State.answer_wrOvr (s : State) (r : Reply) : (s.answer r).wrOvr = s.wrOvr := rfl
@[simp] theorem State.answer_treeValid (s : State) (r : Reply) : (s.answer r).treeValid = s.treeValid := rfl
@[simp] theorem State.answer_uvalid (s : State) (r : Reply) : (s.answer r).uvalid = s.uvalid := rfl
@[simp] theorem State.answer_needIn (s : State) (r : Reply) : (s.answer r).needIn = s.needIn := rfl
@[simp] theorem State.answer_outFull (s : State) (r : Reply) : (s.answer r).outFull = s.outFull := rfl
@[simp] theorem State.answer_cmdLast (s : State) (r : Reply) : (s.answer r).cmdLast = s.cmdLast := rfl
@[simp] theorem State.answer_errCode (s : State) (r : Reply) : (s.answer r).errCode = s.errCode := rfl
@[simp] theorem State.answer_errInfo (s : State) (r : Reply) : (s.answer r).errInfo = s.errInfo := rfl
@[simp] theorem State.answer_src (s : State) (r : Reply) : (s.answer r).src = s.src := rfl
@[simp] theorem State.answer_slen (s : State) (r : Reply) : (s.answer r).slen = s.slen := rfl
@[simp] theorem State.answer_dst (s : State) (r : Reply) : (s.answer r).dst = s.dst := rfl
@[simp] theorem State.answer_dlen (s : State) (r : Reply) : (s.answer r).dlen = s.dlen := rfl
@[simp] theorem State.answer_rin (s : State) (r : Reply) : (s.answer r).rin = s.rin := rfl
@[simp] theorem State.answer_rout (s : State) (r : Reply) : (s.answer r).rout = s.rout := rfl
@[simp] theorem State.answer_total (s : State) (r : Reply) : (s.answer r).total = s.total := rfl
@[simp] theorem State.answer_nsym (s : State) (r : Reply) : (s.answer r).nsym = s.nsym := rfl
@[simp] theorem State.answer_root (s : State) (r : Reply) : (s.answer r).root = s.root := rfl
@[simp] theorem State.answer_maxLen (s : State) (r : Reply) : (s.answer r).maxLen = s.maxLen := rfl
@[simp] theorem State.answer_fsum (s : State) (r : Reply) : (s.answer r).fsum = s.fsum := rfl
@[simp] theorem State.answer_codeSel (s : State) (r : Reply) : (s.answer r).codeSel = s.codeSel := rfl
@[simp] theorem State.answer_nodeSel (s : State) (r : Reply) : (s.answer r).nodeSel = s.nodeSel := rfl
@[simp] theorem State.answer_lSrc (s : State) (r : Reply) : (s.answer r).lSrc = s.lSrc := rfl
@[simp] theorem State.answer_lSlen (s : State) (r : Reply) : (s.answer r).lSlen = s.lSlen := rfl
@[simp] theorem State.answer_lDst (s : State) (r : Reply) : (s.answer r).lDst = s.lDst := rfl
@[simp] theorem State.answer_lDlen (s : State) (r : Reply) : (s.answer r).lDlen = s.lDlen := rfl
@[simp] theorem State.answer_freq (s : State) (r : Reply) : (s.answer r).freq = s.freq := rfl
@[simp] theorem State.answer_fdefLo (s : State) (r : Reply) : (s.answer r).fdefLo = s.fdefLo := rfl
@[simp] theorem State.answer_fdefHi (s : State) (r : Reply) : (s.answer r).fdefHi = s.fdefHi := rfl
@[simp] theorem State.answer_arena (s : State) (r : Reply) : (s.answer r).arena = s.arena := rfl
@[simp] theorem State.answer_codeV (s : State) (r : Reply) : (s.answer r).codeV = s.codeV := rfl
@[simp] theorem State.answer_code (s : State) (r : Reply) : (s.answer r).code = s.code := rfl
@[simp] theorem State.answer_pbuf (s : State) (r : Reply) : (s.answer r).pbuf = s.pbuf := rfl
@[simp] theorem State.answer_pcnt (s : State) (r : Reply) : (s.answer r).pcnt = s.pcnt := rfl
@[simp] theorem State.answer_urem (s : State) (r : Reply) : (s.answer r).urem = s.urem := rfl
@[simp] theorem State.answer_ucur (s : State) (r : Reply) : (s.answer r).ucur = s.ucur := rfl
@[simp] theorem State.answer_ubuf (s : State) (r : Reply) : (s.answer r).ubuf = s.ubuf := rfl
@[simp] theorem State.answer_ucnt (s : State) (r : Reply) : (s.answer r).ucnt = s.ucnt := rfl
@[simp] theorem State.answer_mem (s : State) (r : Reply) : (s.answer r).mem = s.mem := rfl
@[simp] theorem State.answer_undefRead (s : State) (r : Reply) : (s.answer r).undefRead = s.undefRead := rfl
@[simp] theorem State.answer_draws (s : State) (r : Reply) : (s.answer r).draws = s.draws := rfl
@[simp] theorem State.answer_epoch (s : State) (r : Reply) : (s.answer r).epoch = s.epoch := rfl
@[simp] theorem State.answer_agenda (s : State) (r : Reply) : (s.answer r).agenda = s.agenda := rfl
@[simp] theorem State.answer_replies (s : State) (r : Reply) : (s.answer r).replies = r :: s.replies := rfl

/-! ### clearRegisters -/

@[simp] theorem State.clearRegisters_memBytes (s : State) : (s.clearRegisters).memBytes = s.memBytes := rfl
@[simp] theorem State.clearRegisters_ieDone (s : State) : (s.clearRegisters).ieDone = false := rfl
@[simp] theorem State.clearRegisters_ieErr (s : State) : (s.clearRegisters).ieErr = false := rfl
@[simp] theorem State.clearRegisters_busy (s : State) : (s.clearRegisters).busy = false := rfl
@[simp] theorem State.clearRegisters_done (s : State) : (s.clearRegisters).done = false := rfl
@[simp] theorem State.clearRegisters_err (s : State) : (s.clearRegisters).err = false := rfl
@[simp] theorem State.clearRegisters_cmdOvr (s : State) : (s.clearRegisters).cmdOvr = false := rfl
@[simp] theorem State.clearRegisters_wrOvr (s : State) : (s.clearRegisters).wrOvr = false := rfl
@[simp] theorem State.clearRegisters_treeValid (s : State) : (s.clearRegisters).treeValid = false := rfl
@[simp] theorem State.clearRegisters_uvalid (s : State) : (s.clearRegisters).uvalid = false := rfl
@[simp] theorem State.clearRegisters_needIn (s : State) : (s.clearRegisters).needIn = false := rfl
@[simp] theorem State.clearRegisters_outFull (s : State) : (s.clearRegisters).outFull = false := rfl
@[simp] theorem State.clearRegisters_cmdLast (s : State) : (s.clearRegisters).cmdLast = 0#32 := rfl
@[simp] theorem State.clearRegisters_errCode (s : State) : (s.clearRegisters).errCode = .noError := rfl
@[simp] theorem State.clearRegisters_errInfo (s : State) : (s.clearRegisters).errInfo = 0#32 := rfl
@[simp] theorem State.clearRegisters_src (s : State) : (s.clearRegisters).src = 0#32 := rfl
@[simp] theorem State.clearRegisters_slen (s : State) : (s.clearRegisters).slen = 0#32 := rfl
@[simp] theorem State.clearRegisters_dst (s : State) : (s.clearRegisters).dst = 0#32 := rfl
@[simp] theorem State.clearRegisters_dlen (s : State) : (s.clearRegisters).dlen = 0#32 := rfl
@[simp] theorem State.clearRegisters_rin (s : State) : (s.clearRegisters).rin = 0#32 := rfl
@[simp] theorem State.clearRegisters_rout (s : State) : (s.clearRegisters).rout = 0#32 := rfl
@[simp] theorem State.clearRegisters_total (s : State) : (s.clearRegisters).total = 0#64 := rfl
@[simp] theorem State.clearRegisters_nsym (s : State) : (s.clearRegisters).nsym = 0#9 := rfl
@[simp] theorem State.clearRegisters_root (s : State) : (s.clearRegisters).root = 0#9 := rfl
@[simp] theorem State.clearRegisters_maxLen (s : State) : (s.clearRegisters).maxLen = 0#9 := rfl
@[simp] theorem State.clearRegisters_fsum (s : State) : (s.clearRegisters).fsum = 0#72 := rfl
@[simp] theorem State.clearRegisters_codeSel (s : State) : (s.clearRegisters).codeSel = 0#8 := rfl
@[simp] theorem State.clearRegisters_nodeSel (s : State) : (s.clearRegisters).nodeSel = 0#9 := rfl
@[simp] theorem State.clearRegisters_lSrc (s : State) : (s.clearRegisters).lSrc = 0#32 := rfl
@[simp] theorem State.clearRegisters_lSlen (s : State) : (s.clearRegisters).lSlen = 0#32 := rfl
@[simp] theorem State.clearRegisters_lDst (s : State) : (s.clearRegisters).lDst = 0#32 := rfl
@[simp] theorem State.clearRegisters_lDlen (s : State) : (s.clearRegisters).lDlen = 0#32 := rfl
@[simp] theorem State.clearRegisters_freq (s : State) : (s.clearRegisters).freq = s.freq := rfl
@[simp] theorem State.clearRegisters_fdefLo (s : State) : (s.clearRegisters).fdefLo = s.fdefLo := rfl
@[simp] theorem State.clearRegisters_fdefHi (s : State) : (s.clearRegisters).fdefHi = s.fdefHi := rfl
@[simp] theorem State.clearRegisters_arena (s : State) : (s.clearRegisters).arena = s.arena := rfl
@[simp] theorem State.clearRegisters_codeV (s : State) : (s.clearRegisters).codeV = s.codeV := rfl
@[simp] theorem State.clearRegisters_code (s : State) : (s.clearRegisters).code = s.code := rfl
@[simp] theorem State.clearRegisters_pbuf (s : State) : (s.clearRegisters).pbuf = 0#8 := rfl
@[simp] theorem State.clearRegisters_pcnt (s : State) : (s.clearRegisters).pcnt = 0#4 := rfl
@[simp] theorem State.clearRegisters_urem (s : State) : (s.clearRegisters).urem = 0#64 := rfl
@[simp] theorem State.clearRegisters_ucur (s : State) : (s.clearRegisters).ucur = 0#9 := rfl
@[simp] theorem State.clearRegisters_ubuf (s : State) : (s.clearRegisters).ubuf = 0#8 := rfl
@[simp] theorem State.clearRegisters_ucnt (s : State) : (s.clearRegisters).ucnt = 0#4 := rfl
@[simp] theorem State.clearRegisters_mem (s : State) : (s.clearRegisters).mem = s.mem := rfl
@[simp] theorem State.clearRegisters_undefRead (s : State) : (s.clearRegisters).undefRead = s.undefRead := rfl
@[simp] theorem State.clearRegisters_draws (s : State) : (s.clearRegisters).draws = s.draws := rfl
@[simp] theorem State.clearRegisters_epoch (s : State) : (s.clearRegisters).epoch = s.epoch := rfl
@[simp] theorem State.clearRegisters_agenda (s : State) : (s.clearRegisters).agenda = s.agenda := rfl
@[simp] theorem State.clearRegisters_replies (s : State) : (s.clearRegisters).replies = s.replies := rfl

/-! ### hardReset -/

@[simp] theorem State.hardReset_memBytes (s : State) : (s.hardReset).memBytes = s.memBytes := rfl
@[simp] theorem State.hardReset_ieDone (s : State) : (s.hardReset).ieDone = false := rfl
@[simp] theorem State.hardReset_ieErr (s : State) : (s.hardReset).ieErr = false := rfl
@[simp] theorem State.hardReset_busy (s : State) : (s.hardReset).busy = false := rfl
@[simp] theorem State.hardReset_done (s : State) : (s.hardReset).done = false := rfl
@[simp] theorem State.hardReset_err (s : State) : (s.hardReset).err = false := rfl
@[simp] theorem State.hardReset_cmdOvr (s : State) : (s.hardReset).cmdOvr = false := rfl
@[simp] theorem State.hardReset_wrOvr (s : State) : (s.hardReset).wrOvr = false := rfl
@[simp] theorem State.hardReset_treeValid (s : State) : (s.hardReset).treeValid = false := rfl
@[simp] theorem State.hardReset_uvalid (s : State) : (s.hardReset).uvalid = false := rfl
@[simp] theorem State.hardReset_needIn (s : State) : (s.hardReset).needIn = false := rfl
@[simp] theorem State.hardReset_outFull (s : State) : (s.hardReset).outFull = false := rfl
@[simp] theorem State.hardReset_cmdLast (s : State) : (s.hardReset).cmdLast = 0#32 := rfl
@[simp] theorem State.hardReset_errCode (s : State) : (s.hardReset).errCode = .noError := rfl
@[simp] theorem State.hardReset_errInfo (s : State) : (s.hardReset).errInfo = 0#32 := rfl
@[simp] theorem State.hardReset_src (s : State) : (s.hardReset).src = 0#32 := rfl
@[simp] theorem State.hardReset_slen (s : State) : (s.hardReset).slen = 0#32 := rfl
@[simp] theorem State.hardReset_dst (s : State) : (s.hardReset).dst = 0#32 := rfl
@[simp] theorem State.hardReset_dlen (s : State) : (s.hardReset).dlen = 0#32 := rfl
@[simp] theorem State.hardReset_rin (s : State) : (s.hardReset).rin = 0#32 := rfl
@[simp] theorem State.hardReset_rout (s : State) : (s.hardReset).rout = 0#32 := rfl
@[simp] theorem State.hardReset_total (s : State) : (s.hardReset).total = 0#64 := rfl
@[simp] theorem State.hardReset_nsym (s : State) : (s.hardReset).nsym = 0#9 := rfl
@[simp] theorem State.hardReset_root (s : State) : (s.hardReset).root = 0#9 := rfl
@[simp] theorem State.hardReset_maxLen (s : State) : (s.hardReset).maxLen = 0#9 := rfl
@[simp] theorem State.hardReset_fsum (s : State) : (s.hardReset).fsum = 0#72 := rfl
@[simp] theorem State.hardReset_codeSel (s : State) : (s.hardReset).codeSel = 0#8 := rfl
@[simp] theorem State.hardReset_nodeSel (s : State) : (s.hardReset).nodeSel = 0#9 := rfl
@[simp] theorem State.hardReset_lSrc (s : State) : (s.hardReset).lSrc = 0#32 := rfl
@[simp] theorem State.hardReset_lSlen (s : State) : (s.hardReset).lSlen = 0#32 := rfl
@[simp] theorem State.hardReset_lDst (s : State) : (s.hardReset).lDst = 0#32 := rfl
@[simp] theorem State.hardReset_lDlen (s : State) : (s.hardReset).lDlen = 0#32 := rfl
@[simp] theorem State.hardReset_freq (s : State) : (s.hardReset).freq = Vector.replicate 256 0#64 := rfl
@[simp] theorem State.hardReset_fdefLo (s : State) : (s.hardReset).fdefLo = Vector.replicate 256 false := rfl
@[simp] theorem State.hardReset_fdefHi (s : State) : (s.hardReset).fdefHi = Vector.replicate 256 false := rfl
@[simp] theorem State.hardReset_arena (s : State) : (s.hardReset).arena = Vector.replicate 511 (.leaf 0#8 0#72) := rfl
@[simp] theorem State.hardReset_codeV (s : State) : (s.hardReset).codeV = Vector.replicate 256 false := rfl
@[simp] theorem State.hardReset_code (s : State) : (s.hardReset).code = Vector.replicate 256 [] := rfl
@[simp] theorem State.hardReset_pbuf (s : State) : (s.hardReset).pbuf = 0#8 := rfl
@[simp] theorem State.hardReset_pcnt (s : State) : (s.hardReset).pcnt = 0#4 := rfl
@[simp] theorem State.hardReset_urem (s : State) : (s.hardReset).urem = 0#64 := rfl
@[simp] theorem State.hardReset_ucur (s : State) : (s.hardReset).ucur = 0#9 := rfl
@[simp] theorem State.hardReset_ubuf (s : State) : (s.hardReset).ubuf = 0#8 := rfl
@[simp] theorem State.hardReset_ucnt (s : State) : (s.hardReset).ucnt = 0#4 := rfl
@[simp] theorem State.hardReset_mem (s : State) : (s.hardReset).mem = [] := rfl
@[simp] theorem State.hardReset_undefRead (s : State) : (s.hardReset).undefRead = s.undefRead := rfl
@[simp] theorem State.hardReset_draws (s : State) : (s.hardReset).draws = s.draws := rfl
@[simp] theorem State.hardReset_epoch (s : State) : (s.hardReset).epoch = s.epoch + 1 := rfl
@[simp] theorem State.hardReset_agenda (s : State) : (s.hardReset).agenda = s.agenda := rfl
@[simp] theorem State.hardReset_replies (s : State) : (s.hardReset).replies = s.replies := rfl

end Sys2Proof.Machine
end

