-- ==== Sys2Proof/Laws/Ops.lean ====
section
/-! SUPPORT. One spec lemma for each shared operation: what it answers and everything it changes. -/

namespace Sys2Proof.Machine

/-! ### Arrays -/

@[simp] theorem atSym_setSym_same {α : Type} (v : Vector α 256) (b : Symbol) (x : α) :
    atSym (setSym v b x) b = x := by simp [atSym, setSym]

theorem atSym_setSym {α : Type} (v : Vector α 256) (b c : Symbol) (x : α) :
    atSym (setSym v b x) c = if c = b then x else atSym v c := by
  unfold atSym setSym
  rw [Vector.getElem_set]
  by_cases h : c = b
  · simp [h]
  · have : ¬ b.toNat = c.toNat := fun e => h (BitVec.eq_of_toNat_eq e.symm)
    simp [h, this]

theorem atSym_setSym_other {α : Type} (v : Vector α 256) {b c : Symbol} (x : α) (h : c ≠ b) :
    atSym (setSym v b x) c = atSym v c := by simp [atSym_setSym, h]

@[simp] theorem atSym_replicate {α : Type} (x : α) (b : Symbol) : atSym (Vector.replicate 256 x) b = x := by
  simp [atSym]

/-- Two arrays indexed by symbol are equal when they agree at every symbol. -/
theorem ext_atSym {α : Type} {v w : Vector α 256} (h : ∀ b, atSym v b = atSym w b) : v = w := by
  apply Vector.ext
  intro i hi
  have := h (BitVec.ofNat 8 i)
  simpa [atSym, Nat.mod_eq_of_lt hi] using this

theorem setSym_same {α : Type} {v : Vector α 256} {b : Symbol} {x : α} (h : atSym v b = x) : setSym v b x = v := by
  apply ext_atSym
  intro c
  rw [atSym_setSym]
  split_ifs with e
  · rw [e, h]
  · rfl

/-- An overlay: the list's entries from `k` on, the old ones elsewhere. -/
theorem getElem?_overlay {α : Type} {n : Nat} (xs : List α) (k : Nat) (v : Vector α n) (i : Nat) (hi : i < n) :
    (overlay k xs v)[i]? = if k ≤ i ∧ i < k + xs.length then xs[i - k]? else v[i]? := by
  induction xs generalizing k v with
  | nil =>
    rw [if_neg (by simp)]; rfl
  | cons x xs ih =>
    rw [overlay, ih]
    rcases lt_trichotomy i k with h | h | h
    · rw [if_neg (by omega), if_neg (by omega), Vector.getElem?_setIfInBounds_ne (by omega)]
    · subst h
      rw [if_neg (by omega), if_pos (by simp)]
      simp [hi]
    · have e : i - k = (i - (k + 1)) + 1 := by omega
      by_cases hl : i < k + (x :: xs).length
      · have hl' : i < k + 1 + xs.length := by simp only [List.length_cons] at hl; omega
        rw [if_pos ⟨by omega, hl'⟩, if_pos ⟨by omega, hl⟩, e, List.getElem?_cons_succ]
      · have hl' : ¬ i < k + 1 + xs.length := by simp only [List.length_cons] at hl; omega
        rw [if_neg (by omega), if_neg (by omega), Vector.getElem?_setIfInBounds_ne (by omega)]

/-- Overlaying the same entries twice is overlaying them once. -/
theorem overlay_overlay {α : Type} {n : Nat} (xs : List α) (k : Nat) (v : Vector α n) :
    overlay k xs (overlay k xs v) = overlay k xs v := by
  apply Vector.ext
  intro i hi
  have h := getElem?_overlay xs k (overlay k xs v) i hi
  rw [getElem?_overlay xs k v i hi] at h
  have h' := getElem?_overlay xs k v i hi
  simp only [Vector.getElem?_eq_getElem hi] at h h'
  apply Option.some.inj
  rw [h, h']
  split_ifs <;> rfl

/-! ### Byte order -/

@[simp] theorem length_leBytes (n v : Nat) : (leBytes n v).length = n := by
  induction n generalizing v with
  | zero => rfl
  | succ n ih => simp [leBytes, ih]

theorem leValue_leBytes (n v : Nat) : leValue (leBytes n v) = v % 256 ^ n := by
  induction n generalizing v with
  | zero => simp [leBytes, leValue, Nat.mod_one]
  | succ n ih =>
    have e : (BitVec.ofNat 8 v).toNat = v % 256 := BitVec.toNat_ofNat v 8
    rw [leBytes, leValue, ih, e, Nat.pow_succ', Nat.mod_mul]

theorem leBytes_leValue (bs : List Byte) : leBytes bs.length (leValue bs) = bs := by
  induction bs with
  | nil => rfl
  | cons b bs ih =>
    have hb : b.toNat < 256 := b.isLt
    rw [List.length_cons, leBytes, leValue]
    congr 1
    · apply BitVec.eq_of_toNat_eq
      rw [BitVec.toNat_ofNat]; omega
    · rw [show (b.toNat + 256 * leValue bs) / 256 = leValue bs by omega, ih]

/-! ### Reads that may record UNDEF_READ -/

/-- `t` is `s` after some Engine reads: at most, UNDEF_READ has been recorded. -/
def HasRead (s t : State) : Prop :=
  t = { s with undefRead := t.undefRead } ∧ (s.undefRead = true → t.undefRead = true)

theorem HasRead.refl (s : State) : HasRead s s := ⟨rfl, id⟩

theorem HasRead.trans {s t u : State} (h : HasRead s t) (k : HasRead t u) : HasRead s u := by
  refine ⟨?_, fun e => k.2 (h.2 e)⟩
  have h1 := h.1
  have k1 := k.1
  rw [h1] at k1
  exact k1

/-- A byte that is defined is read and nothing changes. -/
theorem State.readByte_defined {s : State} {a : Nat} {b : Byte} (h : Memory.read s.mem a = some b) :
    s.readByte a = (b, s) := by simp [State.readByte, h]

/-- A byte that is undefined is what its storage holds, a free value, and UNDEF_READ is recorded. -/
theorem State.readByte_undefined {s : State} {a : Nat} (h : Memory.read s.mem a = none) :
    s.readByte a = (Config.storedByte s.epoch a, { s with undefRead := true }) := by
  simp [State.readByte, State.storedByte, h]

/-- The Engine reads what the Host would read of that place (20_memory.md R79). -/
theorem State.readByte_stored (s : State) (a : Nat) : (s.readByte a).1 = s.storedByte a := by
  cases h : Memory.read s.mem a with
  | none => simp [State.readByte, h]
  | some b => simp [State.readByte, State.storedByte, h]

theorem State.readByte_hasRead (s : State) (a : Nat) : HasRead s (s.readByte a).2 := by
  cases h : Memory.read s.mem a with
  | none => rw [State.readByte_undefined h]; exact ⟨rfl, fun _ => rfl⟩
  | some b => rw [State.readByte_defined h]; exact HasRead.refl s

theorem State.readBytes_hasRead (n a : Nat) (s : State) : HasRead s (State.readBytes n a s).2 := by
  induction n generalizing a s with
  | zero => exact HasRead.refl s
  | succ n ih => exact (s.readByte_hasRead a).trans (ih (a + 1) (s.readByte a).2)

@[simp] theorem State.length_readBytes (n a : Nat) (s : State) : (State.readBytes n a s).1.length = n := by
  induction n generalizing a s with
  | zero => rfl
  | succ n ih => simp [State.readBytes, ih]

/-- A block whose bytes are all defined is read as it is and nothing changes. -/
theorem State.readBytes_defined {s : State} (bs : List Byte) (a : Nat)
    (h : ∀ k (hk : k < bs.length), Memory.read s.mem (a + k) = some bs[k]) :
    State.readBytes bs.length a s = (bs, s) := by
  induction bs generalizing a with
  | nil => rfl
  | cons b bs ih =>
    have h0 : s.readByte a = (b, s) := State.readByte_defined (h 0 (by simp))
    have h1 := ih (a + 1) fun k hk => by
      have := h (k + 1) (by simpa using hk)
      simpa [Nat.add_assoc, Nat.add_comm 1 k] using this
    simp [State.readBytes, h0, h1]

theorem State.readFreq_defined {s : State} {b : Symbol} (h : s.freqDefined b = true) :
    s.readFreq b = (atSym s.freq b, s) := by simp [State.readFreq, h]

theorem State.readFreq_hasRead (s : State) (b : Symbol) : HasRead s (s.readFreq b).2 := by
  by_cases h : s.freqDefined b = true
  · rw [State.readFreq_defined h]; exact HasRead.refl s
  · simp only [State.readFreq, h, Bool.false_eq_true, if_false]; exact ⟨rfl, fun _ => rfl⟩

theorem State.readFreqs_hasRead (n k : Nat) (s : State) : HasRead s (State.readFreqs n k s).2 := by
  induction n generalizing k s with
  | zero => exact HasRead.refl s
  | succ n ih => exact (s.readFreq_hasRead _).trans (ih (k + 1) (s.readFreq _).2)

@[simp] theorem State.length_readFreqs (n k : Nat) (s : State) : (State.readFreqs n k s).1.length = n := by
  induction n generalizing k s with
  | zero => rfl
  | succ n ih => simp [State.readFreqs, ih]

theorem State.readAllFreq_hasRead (s : State) : HasRead s s.readAllFreq.2 := State.readFreqs_hasRead 256 0 s

@[simp] theorem State.length_readAllFreq (s : State) : s.readAllFreq.1.length = 256 := State.length_readFreqs 256 0 s

theorem State.allFreqDefined_iff (s : State) :
    s.allFreqDefined = true ↔ ∀ b, s.freqDefined b = true := by
  have all_iff : ∀ v : Vector Bool 256, v.toList.all id = true ↔ ∀ b, atSym v b = true := by
    intro v
    rw [List.all_eq_true]
    constructor
    · intro h b
      exact h _ (by simp)
    · intro h x hx
      obtain ⟨i, hi, rfl⟩ := List.mem_iff_getElem.1 hx
      have hi' : i < 256 := by simpa using hi
      have := h (BitVec.ofNat 8 i)
      simpa [atSym, Nat.mod_eq_of_lt hi'] using this
  simp only [State.allFreqDefined, State.freqDefined, Bool.and_eq_true, all_iff]
  exact ⟨fun h b => ⟨h.1 b, h.2 b⟩, fun h => ⟨fun b => (h b).1, fun b => (h b).2⟩⟩

theorem State.readFreqs_defined {s : State} (h : s.allFreqDefined = true) (n k : Nat) (hk : k + n ≤ 256) :
    State.readFreqs n k s = ((s.freq.toList.drop k).take n, s) := by
  induction n generalizing k with
  | zero => simp [State.readFreqs]
  | succ n ih =>
    have hk' : k < 256 := by omega
    have hl : k < s.freq.toList.length := by simpa using hk'
    have e : s.readFreq (BitVec.ofNat 8 k) = (s.freq[k], s) := by
      rw [State.readFreq_defined ((s.allFreqDefined_iff.1 h) _)]
      simp [atSym, Nat.mod_eq_of_lt hk']
    rw [State.readFreqs, e]
    simp only [ih (k + 1) (by omega)]
    rw [List.drop_eq_getElem_cons hl, List.take_succ_cons]
    simp

/-- A table that is all defined is read as it is and nothing changes. -/
theorem State.readAllFreq_defined {s : State} (h : s.allFreqDefined = true) :
    s.readAllFreq = (s.freq.toList, s) := by
  rw [State.readAllFreq, State.readFreqs_defined h 256 0 (by omega)]
  simp

/-- A table with an undefined word: the read records UNDEF_READ. -/
theorem State.readAllFreq_undefined {s : State} (h : s.allFreqDefined = false) :
    s.readAllFreq.2.undefRead = true := by
  have key : ∀ (b : Symbol) (n k : Nat) (u : State), u.freqDefined b = false → k ≤ b.toNat → b.toNat < k + n →
      (State.readFreqs n k u).2.undefRead = true := by
    intro b n
    induction n with
    | zero => intro k u _ h1 h2; omega
    | succ n ih =>
      intro k u hu h1 h2
      rw [State.readFreqs]
      by_cases e : k = b.toNat
      · apply (State.readFreqs_hasRead n (k + 1) (u.readFreq (BitVec.ofNat 8 k)).2).2
        rw [e]
        simp [State.readFreq, hu]
      · apply ih (k + 1) _ _ (by omega) (by omega)
        rw [(State.readFreq_hasRead u (BitVec.ofNat 8 k)).1]; exact hu
  obtain ⟨b, hb⟩ : ∃ b, s.freqDefined b = false := by
    by_contra hc
    have := s.allFreqDefined_iff.2 (fun b => by by_contra h; exact hc ⟨b, by simpa using h⟩)
    rw [h] at this
    exact absurd this nofun
  unfold State.readAllFreq
  exact key b 256 0 s hb (by omega) (by have := b.isLt; omega)

/-! ### Loops -/

/-- A loop of `m + n` elements is the first `m` and then, unless one of them ended the command, the other `n`. -/
theorem forElems_add {σ : Type} (body : Nat → σ → Progress σ) (m n k : Nat) (x : σ) :
    forElems body (m + n) k x =
      match forElems body m k x with
      | .going y => forElems body n (k + m) y
      | .ended s => .ended s := by
  induction m generalizing k x with
  | zero => simp [forElems]
  | succ m ih =>
    rw [Nat.add_right_comm, forElems, forElems]
    cases body k x with
    | going y => simp only [ih, Nat.add_assoc, Nat.add_comm 1 m]
    | ended s => rfl

/-- What every element keeps, the loop keeps: `Q` of the local value as long as the loop goes on, `R` of the state in
which an element ends the command. -/
theorem forElems_induct {σ : Type} {body : Nat → σ → Progress σ} (Q : Nat → σ → Prop) (R : State → Prop)
    (n k : Nat) (x : σ)
    (go : ∀ i x y, i < k + n → Q i x → body i x = .going y → Q (i + 1) y)
    (stop : ∀ i x s, i < k + n → Q i x → body i x = .ended s → R s) (h : Q k x) :
    match forElems body n k x with
    | .going y => Q (k + n) y
    | .ended s => R s := by
  induction n generalizing k x with
  | zero => simpa [forElems] using h
  | succ n ih =>
    rw [forElems]
    cases e : body k x with
    | going y =>
      have := ih (k + 1) y (fun i x y hi => go i x y (by omega)) (fun i x s hi => stop i x s (by omega))
        (go k x y (by omega) h e)
      simpa [Nat.add_assoc, Nat.add_comm 1 n] using this
    | ended s => exact stop k x s (by omega) h e

/-- The loop and what follows it: a property of the final state. -/
theorem andThen_induct {σ : Type} {body : Nat → σ → Progress σ} {rest : σ → State} (Q : Nat → σ → Prop)
    (R : State → Prop)
    (n k : Nat) (x : σ)
    (go : ∀ i x y, i < k + n → Q i x → body i x = .going y → Q (i + 1) y)
    (stop : ∀ i x s, i < k + n → Q i x → body i x = .ended s → R s) (h : Q k x) (fin : ∀ y, Q (k + n) y → R (rest y)) :
    R ((forElems body n k x).andThen rest) := by
  have := forElems_induct Q R n k x go stop h
  cases e : forElems body n k x with
  | going y => rw [e] at this; exact fin y this
  | ended s => rw [e] at this; exact this

end Sys2Proof.Machine
end

