-- ==== Sys2Proof/Laws/Operands.lean ====
section
/-! SUPPORT. The operand checks and the access routing in arithmetic terms, one lemma each. -/

namespace Sys2Proof.Machine

theorem State.inputBeyond_iff (s : State) :
    s.inputBeyond = true ↔ s.memBytes < s.lSrc.toNat + s.lSlen.toNat := by
  simp [State.inputBeyond, beyondMemory]

theorem State.outputBeyond_iff (s : State) :
    s.outputBeyond = true ↔ s.memBytes < s.lDst.toNat + s.lDlen.toNat := by
  simp [State.outputBeyond, beyondMemory]

theorem State.areasOverlap_iff (s : State) :
    s.areasOverlap = true ↔ 0 < s.lSlen.toNat ∧ 0 < s.lDlen.toNat ∧
      s.lSrc.toNat < s.lDst.toNat + s.lDlen.toNat ∧ s.lDst.toNat < s.lSrc.toNat + s.lSlen.toNat := by
  simp [State.areasOverlap, and_assoc]

theorem inArea_iff (r : Nat × Nat) (a : Nat) : inArea r a = true ↔ r.1 ≤ a ∧ a < r.2 := by simp [inArea]

theorem State.hasTree_iff (s : State) : s.hasTree = true ↔ s.treeValid = true ∧ s.nsym ≠ 0#9 := by
  simp [State.hasTree]

/-- The areas fit exactly when none of the three checks raises an error. -/
theorem State.areasFit_iff (s : State) :
    s.areasFit ↔ s.inputBeyond = false ∧ s.outputBeyond = false ∧ s.areasOverlap = false := by
  rw [← Bool.not_eq_true, ← Bool.not_eq_true, ← Bool.not_eq_true, s.inputBeyond_iff, s.outputBeyond_iff,
    s.areasOverlap_iff]
  unfold State.areasFit
  omega

/-- Whoever passes the checks gets to the loop: PACK. -/
theorem execPack_passes {f : Bool} {s : State} (h : s.areasFit) (ht : s.lSlen.toNat = 0 ∨ s.hasTree = true) :
    execPack f s = .next (packAll f s) := by
  obtain ⟨h1, h2, h3⟩ := s.areasFit_iff.1 h
  have h4 : (decide (s.lSlen.toNat > 0) && !s.hasTree) = false := by
    rcases ht with ht | ht <;> simp [ht]
  simp [execPack, h1, h2, h3, h4]

/-- Whoever passes the checks gets to the loop: UNPACK. -/
theorem execUnpack_passes {f : Bool} {s : State} (h : s.areasFit) (hu : s.uvalid = true) :
    execUnpack f s = .next (unpackAll f s) := by
  obtain ⟨h1, h2, h3⟩ := s.areasFit_iff.1 h
  simp [execUnpack, h1, h2, h3, hu]

/-- PACK answers the state unchanged but for an error, or what its loop makes of it. -/
theorem execPack_cases (f : Bool) (s : State) :
    (∃ e i, execPack f s = .next (s.raise e i) ∧ e ≠ .noError) ∨ (execPack f s = .next (packAll f s) ∧ s.areasFit) := by
  unfold execPack
  split_ifs with h1 h2 h3 h4
  · exact .inl ⟨_, _, rfl, by decide⟩
  · exact .inl ⟨_, _, rfl, by decide⟩
  · exact .inl ⟨_, _, rfl, by decide⟩
  · exact .inl ⟨_, _, rfl, by decide⟩
  · exact .inr ⟨rfl, s.areasFit_iff.2 ⟨by simpa using h2, by simpa using h3, by simpa using h4⟩⟩

/-- UNPACK answers the state unchanged but for an error, or what its loop makes of it. -/
theorem execUnpack_cases (f : Bool) (s : State) :
    (∃ e i, execUnpack f s = .next (s.raise e i) ∧ e ≠ .noError) ∨
    (execUnpack f s = .next (unpackAll f s) ∧ s.areasFit ∧ s.uvalid = true) := by
  unfold execUnpack
  split_ifs with h1 h2 h3 h4
  · exact .inl ⟨_, _, rfl, by decide⟩
  · exact .inl ⟨_, _, rfl, by decide⟩
  · exact .inl ⟨_, _, rfl, by decide⟩
  · exact .inl ⟨_, _, rfl, by decide⟩
  · exact .inr ⟨rfl, s.areasFit_iff.2 ⟨by simpa using h2, by simpa using h3, by simpa using h4⟩, by simpa using h1⟩

/-! ### Routing -/

/-- An aligned word access below 0x1000 to a register's offset reaches that register. -/
theorem route_register {m off : Nat} {r : Reg} (h : off < 0x1000) (h4 : off % 4 = 0)
    (hr : Reg.ofOffset off = some r) : route m .word off = .register r := by
  unfold route
  rw [if_neg (by simp only [Config.apertureBytes]; omega), if_pos (by simp only [Config.windowBase]; omega),
    if_pos ⟨rfl, h4⟩, hr]

/-- A host write to a register is the register's own write rule. -/
theorem hostAccess_write_register {s : State} {off : Nat} {r : Reg} (v : Word) (h : off < 0x1000) (h4 : off % 4 = 0)
    (hr : Reg.ofOffset off = some r) :
    hostAccess (.write .word off v) s = .next ((s.writeRegister r v).answer .done) := by
  simp [hostAccess, State.races, State.busWrite, route_register h h4 hr]

/-- A host read of a register is the register's read rule. -/
theorem hostAccess_read_register {s : State} {off : Nat} {r : Reg} (h : off < 0x1000) (h4 : off % 4 = 0)
    (hr : Reg.ofOffset off = some r) :
    hostAccess (.read .word off) s = .next ((s.readRegister r).2.answer (.value (s.readRegister r).1)) := by
  simp [hostAccess, State.busRead, route_register h h4 hr]

/-- An access reaches the window exactly when it is aligned and inside buffer memory. -/
theorem route_window_iff {m : Nat} {w : Width} {off a : Nat} :
    route m w off = .window a ↔
      0x100000 ≤ off ∧ off < 0x200000 ∧ off % w.bytes = 0 ∧ off < 0x100000 + m ∧ a = off - 0x100000 := by
  unfold route
  by_cases h1 : 0x200000 ≤ off
  · rw [if_pos (show Config.apertureBytes ≤ off from h1)]
    exact ⟨nofun, fun h => absurd h.2.1 (by omega)⟩
  rw [if_neg (show ¬ Config.apertureBytes ≤ off from h1)]
  by_cases h2 : off < 0x100000
  · rw [if_pos (show off < Config.windowBase from h2)]
    refine ⟨fun h => ?_, fun h => absurd h.1 (by omega)⟩
    split_ifs at h
    · cases e : Reg.ofOffset off <;> simp [e] at h
  rw [if_neg (show ¬ off < Config.windowBase from h2)]
  by_cases h3 : off % w.bytes = 0
  · rw [if_neg (not_not.2 h3)]
    by_cases h4 : 0x100000 + m ≤ off
    · rw [if_pos (show Config.windowBase + m ≤ off from h4)]
      exact ⟨nofun, fun h => absurd h.2.2.2.1 (by omega)⟩
    · rw [if_neg (show ¬ Config.windowBase + m ≤ off from h4)]
      constructor
      · intro h
        injection h with h
        exact ⟨by omega, by omega, h3, by omega, h.symm⟩
      · intro h
        rw [h.2.2.2.2]; rfl
  · rw [if_pos h3]
    exact ⟨nofun, fun h => absurd h.2.2.1 h3⟩

/-- A host write outside the window is no race and leaves memory alone unless a register's rule says otherwise. -/
theorem State.races_iff (s : State) (w : Width) (off : Nat) :
    s.races w off = true ↔ ∃ a, route s.memBytes w off = .window a ∧
      ∃ k, k < w.bytes ∧ (s.inReadSet (a + k) = true ∨ s.inWriteSet (a + k) = true) := by
  unfold State.races
  cases h : route s.memBytes w off <;> simp

end Sys2Proof.Machine
end

