-- ==== Sys2Proof/Laws/Bus.lean ====
section
/-! SUPPORT. Where a host access goes, and what a host read can change. -/

namespace Sys2Proof.Machine

theorem route_outside {m off : Nat} {w : Width} (h : 0x200000 ≤ off) : route m w off = .outside := by
  unfold route
  rw [if_pos (show Config.apertureBytes ≤ off from h)]

/-- Below the window anything but an aligned word access is refused. -/
theorem route_refused_register {m off : Nat} {w : Width} (h : off < 0x100000) (h' : w ≠ .word ∨ off % 4 ≠ 0) :
    route m w off = .refused := by
  unfold route
  have h1 : ¬ Config.apertureBytes ≤ off := by unfold Config.apertureBytes; omega
  have h2 : ¬ (w = .word ∧ off % 4 = 0) := fun e => h'.elim (fun f => f e.1) (fun f => f e.2)
  rw [if_neg h1, if_pos (show off < Config.windowBase from h), if_neg h2]

/-- In the window a misaligned access, and one behind buffer memory, is refused. -/
theorem route_refused_window {m off : Nat} {w : Width} (h : 0x100000 ≤ off) (h' : off < 0x200000)
    (hb : off % w.bytes ≠ 0 ∨ 0x100000 + m ≤ off) : route m w off = .refused := by
  unfold route
  have h1 : ¬ Config.apertureBytes ≤ off := by unfold Config.apertureBytes; omega
  have h2 : ¬ off < Config.windowBase := by unfold Config.windowBase; omega
  rw [if_neg h1, if_neg h2]
  by_cases h3 : off % w.bytes ≠ 0
  · rw [if_pos h3]
  · rw [if_neg h3, if_pos (show Config.windowBase + m ≤ off from hb.resolve_left h3)]

/-- An aligned word access below the window to an offset that names no register reaches no register. -/
theorem route_reserved {m off : Nat} (h : off < 0x100000) (h4 : off % 4 = 0) (hr : Reg.ofOffset off = none) :
    route m .word off = .reserved := by
  unfold route
  have h1 : ¬ Config.apertureBytes ≤ off := by unfold Config.apertureBytes; omega
  rw [if_neg h1, if_pos (show off < Config.windowBase from h), if_pos ⟨rfl, h4⟩, hr]

theorem Reg.ofOffset_freqLo (b : Symbol) : Reg.ofOffset (0x800 + 8 * b.toNat) = some (.freqLo b) := by
  have := b.isLt
  unfold Reg.ofOffset
  rw [if_pos (by omega), if_pos (by omega), show (0x800 + 8 * b.toNat - 0x800) / 8 = b.toNat by omega]
  simp

theorem Reg.ofOffset_freqHi (b : Symbol) : Reg.ofOffset (0x800 + 8 * b.toNat + 4) = some (.freqHi b) := by
  have := b.isLt
  unfold Reg.ofOffset
  rw [if_pos (by omega), if_neg (by omega), show (0x800 + 8 * b.toNat + 4 - 0x800) / 8 = b.toNat by omega]
  simp

theorem Reg.offset_bounds (r : Reg) : r.offset < 0x1000 ∧ r.offset % 4 = 0 := by
  cases r with
  | codebits k => have := k.isLt; simp only [Reg.offset]; omega
  | freqLo b => have := b.isLt; simp only [Reg.offset]; omega
  | freqHi b => have := b.isLt; simp only [Reg.offset]; omega
  | _ => constructor <;> decide

/-! ### Host reads only draw free values -/

theorem State.readRegister_state (s : State) (r : Reg) :
    (s.readRegister r).2 = { s with draws := (s.readRegister r).2.draws } := by
  unfold State.readRegister
  split_ifs <;> rfl

theorem State.windowByte_state (s : State) (a : Nat) :
    (s.windowByte a).2 = { s with draws := (s.windowByte a).2.draws } := by
  unfold State.windowByte
  split_ifs <;> rfl

theorem State.windowBytes_state (n a : Nat) (s : State) :
    (State.windowBytes n a s).2 = { s with draws := (State.windowBytes n a s).2.draws } := by
  induction n generalizing a s with
  | zero => rfl
  | succ n ih =>
    rw [State.windowBytes]
    have h := ih (a + 1) (s.windowByte a).2
    rw [s.windowByte_state a] at h
    simp only
    rw [s.windowByte_state a]
    exact h

/-- Window bytes that are defined and in no write set are read as they are. -/
theorem State.windowBytes_defined {s : State} (bs : List Byte) (a : Nat)
    (h : ∀ k (hk : k < bs.length), s.inWriteSet (a + k) = false ∧ Memory.read s.mem (a + k) = some bs[k]) :
    State.windowBytes bs.length a s = (bs, s) := by
  induction bs generalizing a with
  | nil => rfl
  | cons b bs ih =>
    have h0 : s.windowByte a = (b, s) := by
      obtain ⟨h1, h2⟩ := h 0 (by simp)
      simp only [Nat.add_zero, List.getElem_cons_zero] at h1 h2
      simp [State.windowByte, State.storedByte, h1, h2]
    have h1 := ih (a + 1) fun k hk => by
      have := h (k + 1) (by simpa using hk)
      simpa [Nat.add_assoc, Nat.add_comm 1 k] using this
    simp [State.windowBytes, h0, h1]

/-- With no command running there is no write set. -/
theorem State.inWriteSet_idle {s : State} (h : s.busy = false) (a : Nat) : s.inWriteSet a = false := by
  unfold State.inWriteSet
  split <;> simp [h]

/-- With no command running, window bytes are what the storage holds, and nothing changes. -/
theorem State.windowBytes_idle {s : State} (h : s.busy = false) (n a : Nat) :
    State.windowBytes n a s = ((List.range n).map (fun k => s.storedByte (a + k)), s) := by
  induction n generalizing a with
  | zero => rfl
  | succ n ih =>
    simp only [State.windowBytes, State.windowByte, State.inWriteSet_idle h, Bool.false_eq_true, if_false, ih,
      List.range_succ_eq_map, List.map_cons, List.map_map, Nat.add_zero]
    congr 2
    apply List.map_congr_left
    intro k _
    simp [Nat.add_assoc, Nat.add_comm 1 k]

/-- What a host read answers with no command running. -/
def State.idleReply (s : State) (w : Width) (off : Nat) : Reply :=
  match route s.memBytes w off with
  | .outside => .notDecoded
  | .refused => .busError
  | .reserved => .value 0#32
  | .register r => .value (s.regValue r)
  | .window a => .value (BitVec.ofNat 32 (leValue ((List.range w.bytes).map (fun k => s.storedByte (a + k)))))

/-- With no command running a host read has no side effect (20_memory.md R79). -/
theorem State.busRead_idle {s : State} (h : s.busy = false) (w : Width) (off : Nat) :
    s.busRead w off = (s.idleReply w off, s) := by
  unfold State.busRead State.idleReply
  cases route s.memBytes w off with
  | register r => simp [State.readRegister, h]
  | window a => simp [State.windowBytes_idle h]
  | _ => rfl

/-- The answer does not depend on the turns to come or on the answers given before. -/
theorem State.idleReply_record (s : State) (turns : List Turn) (given : List Reply) (w : Width) (off : Nat) :
    { s with agenda := turns, replies := given }.idleReply w off = s.idleReply w off := by
  unfold State.idleReply
  dsimp only
  cases route s.memBytes w off with
  | register r => cases r <;> rfl
  | _ => rfl

/-- A host read draws free values and gives a reply; nothing else. -/
theorem State.busRead_state (s : State) (w : Width) (off : Nat) :
    (s.busRead w off).2 = { s with draws := (s.busRead w off).2.draws } := by
  unfold State.busRead
  cases route s.memBytes w off with
  | register r => exact s.readRegister_state r
  | window a => exact State.windowBytes_state w.bytes a s
  | _ => rfl

end Sys2Proof.Machine
end

