-- ==== Sys2Proof/Laws/Frequency.lean ====
section
/-! SUPPORT. HIST's pass and loop over defined bytes and a defined table, in arithmetic terms. -/

namespace Sys2Proof.Machine

theorem countFull_iff (t f : Count) :
    countFull t f = true ↔ 2 ^ 63 - 1 ≤ t.toNat ∨ f.toNat = 2 ^ 64 - 1 := by
  have e : (f == Config.maxCount) = true ↔ f.toNat = 2 ^ 64 - 1 := by
    rw [beq_iff_eq, ← BitVec.toNat_inj]; rfl
  simp only [countFull, Bool.or_eq_true, decide_eq_true_eq, BitVec.le_def, e]
  rfl

/-- A write into a defined table leaves the definedness flags as they are. -/
theorem State.writeFreq_defined {s : State} (h : s.allFreqDefined = true) (b : Symbol) (c : Count) :
    s.writeFreq b c = { s with freq := setSym s.freq b c } := by
  have hb := (s.allFreqDefined_iff.1 h) b
  simp only [State.freqDefined, Bool.and_eq_true] at hb
  simp only [State.writeFreq, setSym_same hb.1, setSym_same hb.2]

/-- A pass over a defined byte and a defined table: the byte is counted or OVERFLOW is raised. -/
theorem histByte_defined {s : State} {i : Nat} {b : Byte} (hb : Memory.read s.mem (s.lSrc.toNat + i) = some b)
    (hf : s.allFreqDefined = true) :
    histByte i s =
      if countFull s.total (atSym s.freq b) then .ended (s.raise .overflow (BitVec.ofNat 32 i))
      else .going { s with
        freq := setSym s.freq b (atSym s.freq b + 1#64)
        total := s.total + 1#64
        rin := BitVec.ofNat 32 (i + 1) } := by
  have h1 := State.readByte_defined hb
  have h2 := State.readFreq_defined ((s.allFreqDefined_iff.1 hf) b)
  simp only [histByte, h1, h2, State.writeFreq_defined hf]

/-- Everything one pass of HIST can do, whatever is defined: `s₂` is `s` after the reads, `f` the count read. -/
theorem histByte_cases (i : Nat) (s : State) :
    ∃ (s₂ : State) (b : Symbol) (f : Count), HasRead s s₂ ∧ (s.freqDefined b = true → f = atSym s.freq b) ∧
      histByte i s =
        if countFull s.total f then .ended (s₂.raise .overflow (BitVec.ofNat 32 i))
        else .going { s₂.writeFreq b (f + 1#64) with total := s.total + 1#64, rin := BitVec.ofNat 32 (i + 1) } := by
  have d := State.readByte_hasRead s (s.lSrc.toNat + i)
  rcases e : s.readByte (s.lSrc.toNat + i) with ⟨b, s₁⟩
  have d' := State.readFreq_hasRead s₁ b
  rcases e' : s₁.readFreq b with ⟨f, s₂⟩
  rw [e] at d
  rw [e'] at d'
  replace d : HasRead s s₁ := d
  replace d' : HasRead s₁ s₂ := d'
  have h := d.trans d'
  have ht : s₂.total = s.total := by rw [h.1]
  refine ⟨s₂, b, f, h, fun hb => ?_, ?_⟩
  · have hb' : s₁.freqDefined b = true := by rw [d.1]; exact hb
    rw [State.readFreq_defined hb'] at e'
    rw [← (Prod.mk.inj e').1, d.1]
  · simp only [histByte, e, e', ht]

/-- The loop over defined bytes that all can be counted. -/
theorem histLoop_counts (bs : List Byte) (k : Nat) (s : State)
    (hm : ∀ j (hj : j < bs.length), Memory.read s.mem (s.lSrc.toNat + (k + j)) = some bs[j])
    (hf : s.allFreqDefined = true) (ht : bs = [] ∨ s.total.toNat + bs.length ≤ 2 ^ 63 - 1)
    (hc : ∀ b, (atSym s.freq b).toNat + bs.count b ≤ 2 ^ 64 - 1) :
    ∃ t, forElems histByte bs.length k s = .going t ∧
      (∀ b, (atSym t.freq b).toNat = (atSym s.freq b).toNat + bs.count b) ∧
      t.total.toNat = s.total.toNat + bs.length ∧
      t = { s with freq := t.freq, total := t.total,
                   rin := if bs = [] then s.rin else BitVec.ofNat 32 (k + bs.length) } := by
  induction bs generalizing k s with
  | nil => exact ⟨s, rfl, by simp, by simp, by simp⟩
  | cons x xs ih =>
    have ht' : s.total.toNat + (xs.length + 1) ≤ 2 ^ 63 - 1 := by simpa using ht
    have hx := hc x
    rw [List.count_cons_self] at hx
    have hfull : countFull s.total (atSym s.freq x) = false := by
      rw [← Bool.not_eq_true, countFull_iff]; omega
    have h0 := histByte_defined (i := k) (b := x) (hm 0 (Nat.succ_pos _)) hf
    rw [hfull] at h0
    simp only [Bool.false_eq_true, if_false] at h0
    have eT : (s.total + 1#64).toNat = s.total.toNat + 1 := by
      rw [BitVec.toNat_add]; simp only [BitVec.toNat_ofNat]; omega
    have eF : (atSym s.freq x + 1#64).toNat = (atSym s.freq x).toNat + 1 := by
      rw [BitVec.toNat_add]; simp only [BitVec.toNat_ofNat]; omega
    obtain ⟨t, h1, h2, h3, h4⟩ := ih (k + 1)
      { s with
        freq := setSym s.freq x (atSym s.freq x + 1#64)
        total := s.total + 1#64
        rin := BitVec.ofNat 32 (k + 1) }
      (fun j hj => by
        have := hm (j + 1) (by simpa using hj)
        simpa [Nat.add_assoc, Nat.add_comm 1 j] using this) hf
      (.inr (by simp only [eT]; omega))
      (fun b => by
        have := hc b
        simp only [atSym_setSym]
        rw [List.count_cons] at this
        split_ifs with e
        · subst e; rw [eF]; simp at this; omega
        · omega)
    refine ⟨t, ?_, ?_, ?_, ?_⟩
    · rw [List.length_cons, forElems, h0]; exact h1
    · intro b
      rw [h2 b, List.count_cons]
      simp only [atSym_setSym]
      by_cases e : b = x
      · subst e; simp [eF]; omega
      · have : ¬ x = b := fun h => e h.symm
        simp [e, this]
    · rw [h3]; simp only [eT, List.length_cons]; omega
    · rw [h4]
      congr 1
      by_cases e : xs = []
      · simp [e]
      · simp [e, Nat.add_assoc, Nat.add_comm 1 xs.length]

end Sys2Proof.Machine
end

