-- ==== Sys2Proof/Laws/Header.lean ====
section
/-! SUPPORT. The header image: its bytes, and reading it back. -/

namespace Sys2Proof.Machine

theorem getElem?_leBytes (n v k : Nat) (h : k < n) : (leBytes n v)[k]? = some (BitVec.ofNat 8 (v / 256 ^ k)) := by
  induction n generalizing v k with
  | zero => omega
  | succ n ih =>
    cases k with
    | zero => simp [leBytes]
    | succ k => rw [leBytes, List.getElem?_cons_succ, ih _ _ (by omega), Nat.div_div_eq_div_mul, Nat.pow_succ']

theorem byteOf_eq (c : Count) (k : Nat) : byteOf c k = BitVec.ofNat 8 (c.toNat / 256 ^ k) := by
  apply BitVec.eq_of_toNat_eq
  rw [byteOf, BitVec.toNat_setWidth, BitVec.toNat_ushiftRight, Nat.shiftRight_eq_div_pow, BitVec.toNat_ofNat, Nat.pow_mul]

/-- Byte `k` of the eight bytes of a count. -/
theorem getElem?_leBytes_count (c : Count) {k : Nat} (h : k < 8) : (leBytes 8 c.toNat)[k]? = some (byteOf c k) := by
  rw [getElem?_leBytes 8 c.toNat k h, byteOf_eq]

theorem leValue_leBytes_count (c : Count) : BitVec.ofNat 64 (leValue (leBytes 8 c.toNat)) = c := by
  rw [leValue_leBytes]
  apply BitVec.eq_of_toNat_eq
  have := c.isLt
  rw [BitVec.toNat_ofNat]; omega

theorem length_countBytes (fs : List Count) : (fs.flatMap (fun f => leBytes 8 f.toNat)).length = 8 * fs.length := by
  induction fs with
  | nil => rfl
  | cons f fs ih => simp [ih]; omega

theorem getElem?_countBytes (fs : List Count) (i k : Nat) (hi : i < fs.length) (hk : k < 8) :
    (fs.flatMap (fun f => leBytes 8 f.toNat))[8 * i + k]? = some (byteOf fs[i] k) := by
  induction fs generalizing i with
  | nil => simp at hi
  | cons f fs ih =>
    rw [List.flatMap_cons]
    cases i with
    | zero =>
      rw [List.getElem?_append_left (by simp; omega), Nat.mul_zero, Nat.zero_add, getElem?_leBytes_count f hk]; rfl
    | succ i =>
      rw [List.getElem?_append_right (by simp; omega), length_leBytes, show 8 * (i + 1) + k - 8 = 8 * i + k by omega,
        ih i (by simpa using hi)]
      rfl

@[simp] theorem length_headerImage (total : Count) (fs : List Count) :
    (headerImage total fs).length = 8 + 8 * fs.length := by
  rw [headerImage, List.length_append, length_leBytes, length_countBytes]

theorem headerImage_total (total : Count) (fs : List Count) {k : Nat} (h : k < 8) :
    (headerImage total fs)[k]? = some (byteOf total k) := by
  rw [headerImage, List.getElem?_append_left (by simpa using h), getElem?_leBytes_count total h]

theorem headerImage_count (total : Count) (fs : List Count) {i k : Nat} (hi : i < fs.length) (hk : k < 8) :
    (headerImage total fs)[8 + 8 * i + k]? = some (byteOf fs[i] k) := by
  rw [headerImage, List.getElem?_append_right (by simp; omega), length_leBytes,
    show 8 + 8 * i + k - 8 = 8 * i + k by omega, getElem?_countBytes fs i k hi hk]

theorem countsOf_countBytes (fs : List Count) : countsOf fs.length (fs.flatMap (fun f => leBytes 8 f.toNat)) = fs := by
  induction fs with
  | nil => rfl
  | cons f fs ih =>
    have h8 : (leBytes 8 f.toNat).length = 8 := length_leBytes 8 _
    rw [List.length_cons, countsOf, List.flatMap_cons, List.take_left' h8, List.drop_left' h8, ih,
      leValue_leBytes_count]

@[simp] theorem length_countsOf (n : Nat) (bs : List Byte) : (countsOf n bs).length = n := by
  induction n generalizing bs with
  | zero => rfl
  | succ n ih => simp [countsOf, ih]

/-- Overlaying a whole table replaces it. -/
theorem overlay_all (v w : Vector Count 256) : overlay 0 v.toList w = v := by
  apply Vector.ext
  intro i hi
  have h := getElem?_overlay v.toList 0 w i hi
  rw [if_pos (by simpa using hi), Vector.getElem?_eq_getElem hi] at h
  simpa [hi] using h

/-- HDRLD over defined bytes that are a header image loads what the image was made of. -/
theorem loadHeader_image {s : State} {total : Count} {freq : Vector Count 256}
    (h : ∀ k (hk : k < (headerImage total freq.toList).length),
      Memory.read s.mem (s.lSrc.toNat + k) = some (headerImage total freq.toList)[k]) :
    loadHeader s = ({ s.invalidate with
      total := total
      freq := freq
      fdefLo := Vector.replicate 256 true
      fdefHi := Vector.replicate 256 true
      rin := BitVec.ofNat 32 Config.headerBytes }).complete := by
  have hb := State.readBytes_defined _ _ h
  have hl : (headerImage total freq.toList).length = Config.headerBytes := by simp [Config.headerBytes]
  have h8 : (leBytes 8 total.toNat).length = 8 := length_leBytes 8 _
  have hc : countsOf Config.symbols (freq.toList.flatMap (fun f => leBytes 8 f.toNat)) = freq.toList := by
    have := countsOf_countBytes freq.toList
    simpa [Config.symbols] using this
  rw [hl] at hb
  unfold loadHeader
  rw [hb]
  simp only [headerImage]
  rw [List.take_left' h8, List.drop_left' h8, leValue_leBytes_count, hc, overlay_all]

end Sys2Proof.Machine
end

