-- ==== Sys2Proof/Laws/TreeBuild.lean ====
section
/-! SUPPORT. What BUILD makes of its counts: the leaves, the merges, the arena and the code table. -/

namespace Sys2Proof.Machine

/-- BUILD reads the whole table, then works on the counts read. -/
theorem execBuild_eq (s : State) : execBuild s = .next (buildFrom s.readAllFreq.1 s.readAllFreq.2).complete := by
  unfold execBuild buildAll
  generalize s.readAllFreq = x
  rfl

/-- BUILD over a defined table records no fault. -/
theorem execBuild_defined {s : State} (h : s.allFreqDefined = true) :
    execBuild s = .next (buildFrom s.freq.toList s).complete := by rw [execBuild_eq, State.readAllFreq_defined h]

/-! ### The leaves -/

theorem length_leafNodes (fs : List Count) (k : Nat) :
    (leafNodes k fs).length = (fs.filter (fun f => f != 0#64)).length := by
  induction fs generalizing k with
  | nil => rfl
  | cons f fs ih =>
    by_cases h : f = 0#64
    · subst h; simp [leafNodes, ih]
    · simp [leafNodes, ih, h]

/-- The leaf of the `i`-th count stands behind those of the nonzero counts before it. -/
theorem getElem?_leafNodes (fs : List Count) (k i : Nat) (hi : i < fs.length) (h : fs[i] ≠ 0#64) :
    (leafNodes k fs)[((fs.take i).filter (fun f => f != 0#64)).length]? =
      some (.leaf (BitVec.ofNat 8 (k + i)) (fs[i].setWidth 72)) := by
  induction fs generalizing k i with
  | nil => simp at hi
  | cons f fs ih =>
    cases i with
    | zero =>
      have h' : ¬ f = 0#64 := h
      simp [leafNodes, h']
    | succ i =>
      have hi' : i < fs.length := by simpa using hi
      have := ih (k + 1) i hi' h
      rw [show k + 1 + i = k + (i + 1) by omega] at this
      by_cases hf : f = 0#64
      · subst hf; simpa [leafNodes] using this
      · simpa [leafNodes, hf] using this

/-- Every node made for the counts is a leaf of a symbol whose count is nonzero. -/
theorem mem_leafNodes {fs : List Count} {k : Nat} {x : Node} (h : x ∈ leafNodes k fs) :
    ∃ (i : Nat) (hi : i < fs.length), fs[i] ≠ 0#64 ∧ x = .leaf (BitVec.ofNat 8 (k + i)) (fs[i].setWidth 72) := by
  induction fs generalizing k with
  | nil => simp [leafNodes] at h
  | cons f fs ih =>
    by_cases hf : f = 0#64
    · rw [leafNodes, if_pos hf] at h
      obtain ⟨i, hi, h1, h2⟩ := ih h
      exact ⟨i + 1, by simpa using hi, h1, by rw [h2, show k + 1 + i = k + (i + 1) by omega]; rfl⟩
    · rw [leafNodes, if_neg hf, List.mem_cons] at h
      rcases h with h | h
      · exact ⟨0, by simp, hf, h⟩
      · obtain ⟨i, hi, h1, h2⟩ := ih h
        exact ⟨i + 1, by simpa using hi, h1, by rw [h2, show k + 1 + i = k + (i + 1) by omega]; rfl⟩

/-- The leaves weigh the sum of the counts. -/
theorem sum_weight_leafNodes (fs : List Count) (k : Nat) :
    ((leafNodes k fs).map (fun x => x.weight.toNat)).sum = (fs.map BitVec.toNat).sum := by
  induction fs generalizing k with
  | nil => rfl
  | cons f fs ih =>
    by_cases h : f = 0#64
    · subst h; simp [leafNodes, ih]
    · have : f.toNat % 4722366482869645213696 = f.toNat := Nat.mod_eq_of_lt (by have := f.isLt; omega)
      rw [leafNodes, if_neg h, List.map_cons, List.sum_cons, ih, List.map_cons, List.sum_cons]
      simp [Node.weight, this]

theorem sum_counts_le (fs : List Count) : (fs.map BitVec.toNat).sum ≤ fs.length * (2 ^ 64 - 1) := by
  induction fs with
  | nil => simp
  | cons f fs ih =>
    have := f.isLt
    simp only [List.map_cons, List.sum_cons, List.length_cons]
    omega

/-- FSUM is the exact sum of the counts: 256 of them never wrap. -/
theorem freqSum_toNat (fs : List Count) (h : fs.length ≤ 256) : (freqSum fs).toNat = (fs.map BitVec.toNat).sum := by
  have key : ∀ (gs : List Count) (acc : Weight), acc.toNat + gs.length * (2 ^ 64 - 1) < 2 ^ 72 →
      (gs.foldl (fun a f => a + f.setWidth 72) acc).toNat = acc.toNat + (gs.map BitVec.toNat).sum := by
    intro gs
    induction gs with
    | nil => intro acc _; simp
    | cons g gs ih =>
      intro acc hacc
      have hg := g.isLt
      rw [List.length_cons] at hacc
      have e : (acc + g.setWidth 72).toNat = acc.toNat + g.toNat := by
        rw [BitVec.toNat_add, BitVec.toNat_setWidth]; omega
      rw [List.foldl_cons, ih _ (by rw [e]; omega), e]
      simp only [List.map_cons, List.sum_cons]; omega
  rw [freqSum, key fs 0#72 (by simp only [BitVec.toNat_ofNat]; omega)]
  simp

/-! ### The key order -/

theorem lighter_iff (nodes : List Node) (g h : Nat) :
    lighter nodes g h = true ↔ (weightAt nodes g).toNat < (weightAt nodes h).toNat ∨
      ((weightAt nodes g).toNat = (weightAt nodes h).toNat ∧ g < h) := by
  simp only [lighter, Bool.or_eq_true, Bool.and_eq_true, decide_eq_true_eq, BitVec.lt_def, beq_iff_eq,
    ← BitVec.toNat_inj]

/-- `argmin` answers one of the handles, and none of them comes before it. -/
theorem argmin_spec (nodes : List Node) (q : List Nat) (best : Nat) :
    argmin nodes best q ∈ best :: q ∧ ∀ h ∈ best :: q, lighter nodes h (argmin nodes best q) = false := by
  induction q generalizing best with
  | nil =>
    refine ⟨by simp [argmin], fun h hh => ?_⟩
    rw [List.mem_singleton] at hh
    rw [← Bool.not_eq_true, lighter_iff, argmin, hh]
    omega
  | cons x q ih =>
    rw [argmin]
    by_cases hl : lighter nodes x best = true
    · rw [if_pos hl]
      obtain ⟨h1, h2⟩ := ih x
      refine ⟨List.mem_cons_of_mem _ h1, fun h hh => ?_⟩
      rcases List.mem_cons.1 hh with rfl | hh
      · have := h2 x (by simp)
        rw [← Bool.not_eq_true, lighter_iff] at this ⊢
        rw [lighter_iff] at hl
        omega
      · exact h2 h hh
    · rw [if_neg hl]
      obtain ⟨h1, h2⟩ := ih best
      refine ⟨?_, fun h hh => ?_⟩
      · rcases List.mem_cons.1 h1 with h1 | h1
        · rw [h1]; simp
        · simp [h1]
      · rcases List.mem_cons.1 hh with rfl | hh
        · exact h2 _ (by simp)
        · rcases List.mem_cons.1 hh with rfl | hh
          · have := h2 best (by simp)
            rw [← Bool.not_eq_true, lighter_iff] at this ⊢
            rw [lighter_iff] at hl
            omega
          · exact h2 h (by simp [hh])

/-- `takeLeast` takes out a handle of the collection that no other comes before. -/
theorem takeLeast_spec {nodes : List Node} {q q' : List Nat} {a : Nat} (h : takeLeast nodes q = some (a, q')) :
    a ∈ q ∧ q' = q.erase a ∧ ∀ x ∈ q, lighter nodes x a = false := by
  cases q with
  | nil => simp [takeLeast] at h
  | cons x q =>
    simp only [takeLeast, Option.some.injEq, Prod.mk.injEq] at h
    obtain ⟨h1, h2⟩ := argmin_spec nodes q x
    rw [h.1] at h1 h2 h
    exact ⟨h1, h.2.symm, h2⟩

theorem takeLeast_none {nodes : List Node} {q : List Nat} (h : takeLeast nodes q = none) : q = [] := by
  cases q with
  | nil => rfl
  | cons x q => simp [takeLeast] at h

/-! ### The merge loop -/

theorem weightAt_append {nodes ext : List Node} {h : Nat} (hh : h < nodes.length) :
    weightAt (nodes ++ ext) h = weightAt nodes h := by
  simp [weightAt, List.getElem?_append_left hh]

/-- Handle `h` is in the subtree of handle `r`. -/
inductive Below (nodes : List Node) : Nat → Nat → Prop
  | here (h : Nat) : Below nodes h h
  | left {r h : Nat} {a b : Nat} {w : Weight} :
      nodes[r]? = some (.internal (BitVec.ofNat 9 a) (BitVec.ofNat 9 b) w) → a < r → b < r → Below nodes a h →
      Below nodes r h
  | right {r h : Nat} {a b : Nat} {w : Weight} :
      nodes[r]? = some (.internal (BitVec.ofNat 9 a) (BitVec.ofNat 9 b) w) → a < r → b < r → Below nodes b h →
      Below nodes r h

theorem Below.append {nodes : List Node} {r h : Nat} (x : Node) (b : Below nodes r h) : Below (nodes ++ [x]) r h := by
  induction b with
  | here h => exact .here h
  | left e h1 h2 _ ih =>
    exact .left (by rw [List.getElem?_append_left (List.getElem?_eq_some_iff.1 e).1]; exact e) h1 h2 ih
  | right e h1 h2 _ ih =>
    exact .right (by rw [List.getElem?_append_left (List.getElem?_eq_some_iff.1 e).1]; exact e) h1 h2 ih

/-- Handle `g` is in the collection when node `h` is made: no node before `h` has it as a child. -/
def Free (nodes : List Node) (h g : Nat) : Prop :=
  g < h ∧ ∀ (k : Nat) (l r : Handle) (w : Weight), k < h → nodes[k]? = some (.internal l r w) →
    BitVec.ofNat 9 g ≠ l ∧ BitVec.ofNat 9 g ≠ r

/-- A node put behind the others does not matter for the handles before it. -/
theorem free_append {nodes : List Node} {h : Nat} (x : Node) (hh : h ≤ nodes.length) (g : Nat) :
    Free (nodes ++ [x]) h g ↔ Free nodes h g := by
  unfold Free
  refine and_congr_right fun _ => forall_congr' fun k => ?_
  refine forall_congr' fun l => forall_congr' fun r => forall_congr' fun w => imp_congr_right fun hk => ?_
  rw [List.getElem?_append_left (by omega)]

/-- What holds of the nodes and the collection at every pass of the merge loop over these leaves. -/
structure Forest (leaves nodes : List Node) (q : List Nat) : Prop where
  /-- The leaves come first. -/
  first : nodes.take leaves.length = leaves
  enough : leaves.length ≤ nodes.length
  nodup : q.Nodup
  known : ∀ h ∈ q, h < nodes.length
  size : nodes.length + q.length = 2 * leaves.length
  nonempty : leaves ≠ [] → q ≠ []
  /-- The collection ends with the newest handle. -/
  newest : ∀ x ∈ q.getLast?, x + 1 = nodes.length
  /-- The collection weighs what the leaves weigh. -/
  weight : (q.map (fun h => (weightAt nodes h).toNat)).sum = (leaves.map (fun x => x.weight.toNat)).sum
  /-- Every handle is below one of the collection. -/
  covers : ∀ h, h < nodes.length → ∃ r ∈ q, Below nodes r h
  /-- The collection is what no node has as a child. -/
  members : ∀ g, g ∈ q ↔ Free nodes nodes.length g
  /-- Every handle behind the leaves was made by a merge of the two least handles of the collection. -/
  merged : ∀ h, leaves.length ≤ h → h < nodes.length → ∃ a b, nodes[h]? = some (mergedNode nodes a b) ∧
    Free nodes h a ∧ Free nodes h b ∧ lighter nodes a b = true ∧
    (∀ g, Free nodes h g → g ≠ a → g ≠ b → lighter nodes b g = true) ∧
    (weightAt nodes a).toNat + (weightAt nodes b).toNat ≤ (leaves.map (fun x => x.weight.toNat)).sum

theorem Forest.start (leaves : List Node) (hl : ∀ x ∈ leaves, x.isLeaf = true) :
    Forest leaves leaves (List.range leaves.length) where
  first := by simp
  enough := le_refl _
  nodup := List.nodup_range
  known := by simp
  size := by simp; omega
  nonempty := by simp
  newest := by
    intro x hx
    cases hl : leaves.length with
    | zero => simp [hl] at hx
    | succ n => simp [hl, List.range_succ] at hx; omega
  weight := by
    congr 1
    apply List.ext_getElem
    · simp
    · intro i h1 h2
      have : i < leaves.length := by simpa using h2
      simp [weightAt, this]
  covers := fun h hh => ⟨h, by simpa using hh, .here h⟩
  members := by
    intro g
    rw [List.mem_range]
    refine ⟨fun hg => ⟨hg, fun k l r w hk e => ?_⟩, fun h => h.1⟩
    have := hl _ (List.mem_of_getElem? e)
    exact absurd this (by simp [Node.isLeaf])
  merged := by omega

/-- The first nodes are the leaves. -/
theorem Forest.leafAt {leaves nodes : List Node} {q : List Nat} (h : Forest leaves nodes q) {k : Nat}
    (hk : k < leaves.length) : nodes[k]? = leaves[k]? := by
  conv_rhs => rw [← h.first]
  rw [List.getElem?_take_of_lt hk]

/-- One merge keeps it. -/
theorem Forest.merge {leaves nodes : List Node} {q q₁ q₂ : List Nat} {a b : Nat} (h : Forest leaves nodes q)
    (ha : takeLeast nodes q = some (a, q₁)) (hb : takeLeast nodes q₁ = some (b, q₂))
    (hw : (leaves.map (fun x => x.weight.toNat)).sum < 2 ^ 72) (hl : leaves.length ≤ 256)
    (hlf : ∀ x ∈ leaves, x.isLeaf = true) :
    Forest leaves (nodes ++ [mergedNode nodes a b]) (q₂ ++ [nodes.length]) := by
  obtain ⟨a1, a2, a3⟩ := takeLeast_spec ha
  obtain ⟨b1, b2, b3⟩ := takeLeast_spec hb
  have pa : q.Perm (a :: q₁) := by rw [a2]; exact List.perm_cons_erase a1
  have pb : q₁.Perm (b :: q₂) := by rw [b2]; exact List.perm_cons_erase b1
  have pq : q.Perm (a :: b :: q₂) := pa.trans (pb.cons a)
  have nd : (a :: b :: q₂).Nodup := pq.nodup_iff.1 h.nodup
  have kn : ∀ x ∈ a :: b :: q₂, x < nodes.length := fun x hx => h.known x (pq.mem_iff.2 hx)
  have ka := kn a (by simp)
  have kb := kn b (by simp)
  have ab : a ≠ b := by
    intro e; rw [e] at nd; simp at nd
  have lab : lighter nodes a b = true := by
    have := a3 b (pq.mem_iff.2 (by simp))
    rw [← Bool.not_eq_true, lighter_iff] at this
    rw [lighter_iff]
    omega
  have hsum : (weightAt nodes a).toNat + ((weightAt nodes b).toNat +
      (q₂.map (fun h => (weightAt nodes h).toNat)).sum) = (leaves.map (fun x => x.weight.toNat)).sum := by
    rw [← h.weight, (pq.map _).sum_eq]; simp
  have hlen : q.length = q₂.length + 2 := by rw [pq.length_eq]; rfl
  have hsize := h.size
  refine ⟨?_, ?_, ?_, ?_, ?_, ?_, ?_, ?_, ?_, ?_, ?_⟩
  · rw [List.take_append_of_le_length h.enough, h.first]
  · have := h.enough; simp; omega
  · rw [List.nodup_append]
    refine ⟨(nd.of_cons).of_cons, by simp, ?_⟩
    intro x hx y hy
    have := kn x (by simp [hx])
    simp at hy; omega
  · intro x hx
    simp only [List.mem_append, List.mem_singleton, List.length_append, List.length_singleton] at hx ⊢
    rcases hx with hx | hx
    · have := kn x (by simp [hx]); omega
    · omega
  · simp only [List.length_append, List.length_singleton]; omega
  · simp
  · intro x hx; simp at hx; simp [hx]
  · have e : (weightAt (nodes ++ [mergedNode nodes a b]) nodes.length).toNat =
        (weightAt nodes a).toNat + (weightAt nodes b).toNat := by
      simp only [weightAt, List.getElem?_concat_length, mergedNode, Option.map_some, Node.weight, Option.getD_some]
      rw [BitVec.toNat_add]
      exact Nat.mod_eq_of_lt (by unfold weightAt at hsum; omega)
    have e2 : q₂.map (fun h => (weightAt (nodes ++ [mergedNode nodes a b]) h).toNat) =
        q₂.map (fun h => (weightAt nodes h).toNat) := by
      apply List.map_congr_left
      intro x hx
      rw [weightAt_append (kn x (by simp [hx]))]
    rw [List.map_append, List.sum_append, e2]
    simp only [List.map_cons, List.map_nil, List.sum_cons, List.sum_nil, e]
    omega
  · have top : (nodes ++ [mergedNode nodes a b])[nodes.length]? = some (mergedNode nodes a b) := by simp
    intro x hx
    simp only [List.length_append, List.length_singleton] at hx
    by_cases hx' : x = nodes.length
    · subst hx'; exact ⟨nodes.length, by simp, .here _⟩
    · obtain ⟨r, hr, hB⟩ := h.covers x (by omega)
      have hB' := hB.append (mergedNode nodes a b)
      rcases List.mem_cons.1 (pq.mem_iff.1 hr) with rfl | hr
      · exact ⟨nodes.length, by simp, .left top ka kb hB'⟩
      · rcases List.mem_cons.1 hr with rfl | hr
        · exact ⟨nodes.length, by simp, .right top ka kb hB'⟩
        · exact ⟨r, by simp [hr], hB'⟩
  · have inj : ∀ {x y : Nat}, x ≤ nodes.length → y ≤ nodes.length → BitVec.ofNat 9 x = BitVec.ofNat 9 y → x = y := by
      intro x y hx hy e
      have := congrArg BitVec.toNat e
      simp only [BitVec.toNat_ofNat] at this
      omega
    intro g
    have hg : g ∈ q₂ ++ [nodes.length] ↔ (g ∈ q ∧ g ≠ a ∧ g ≠ b) ∨ g = nodes.length := by
      rw [List.mem_append, List.mem_singleton, pq.mem_iff]
      refine or_congr_left ⟨fun hm => ⟨by simp [hm], ?_, ?_⟩, fun ⟨hm, h1, h2⟩ => by simpa [h1, h2] using hm⟩
      · rintro rfl; simp [hm] at nd
      · rintro rfl; simp [hm] at nd
    rw [hg, h.members]
    simp only [List.length_append, List.length_singleton]
    constructor
    · rintro (⟨⟨g1, g2⟩, g3, g4⟩ | rfl)
      · refine ⟨by omega, fun k l r w hk e => ?_⟩
        by_cases hk' : k = nodes.length
        · subst hk'
          rw [List.getElem?_concat_length, Option.some.injEq, mergedNode] at e
          injection e with e1 e2 e3
          rw [← e1, ← e2]
          exact ⟨fun e => g3 (inj (by omega) (by omega) e), fun e => g4 (inj (by omega) (by omega) e)⟩
        · rw [List.getElem?_append_left (by omega)] at e
          exact g2 k l r w (by omega) e
      · refine ⟨by omega, fun k l r w hk e => ?_⟩
        by_cases hk' : k = nodes.length
        · subst hk'
          rw [List.getElem?_concat_length, Option.some.injEq, mergedNode] at e
          injection e with e1 e2 e3
          rw [← e1, ← e2]
          exact ⟨fun e => by have := inj (le_refl _) (by omega) e; omega,
            fun e => by have := inj (le_refl _) (by omega) e; omega⟩
        · rw [List.getElem?_append_left (by omega)] at e
          have hk2 : leaves.length ≤ k := by
            by_contra hc
            rw [h.leafAt (by omega)] at e
            exact absurd (hlf _ (List.mem_of_getElem? e)) (by simp [Node.isLeaf])
          obtain ⟨c, d, e', hc, hd, -⟩ := h.merged k hk2 (by omega)
          rw [e, Option.some.injEq, mergedNode] at e'
          injection e' with e1 e2 e3
          rw [e1, e2]
          have := hc.1
          have := hd.1
          exact ⟨fun e => by have := inj (le_refl _) (by omega) e; omega,
            fun e => by have := inj (le_refl _) (by omega) e; omega⟩
    · rintro ⟨g1, g2⟩
      by_cases hg' : g = nodes.length
      · exact .inr hg'
      · have := g2 nodes.length _ _ _ (by omega) (by rw [List.getElem?_concat_length, mergedNode])
        refine .inl ⟨⟨by omega, fun k l r w hk e => g2 k l r w (by omega) ?_⟩, ?_, ?_⟩
        · rw [List.getElem?_append_left hk]; exact e
        · rintro rfl; exact this.1 rfl
        · rintro rfl; exact this.2 rfl
  · intro x h1 h2
    simp only [List.length_append, List.length_singleton] at h2
    have light : ∀ c d, c < nodes.length → d < nodes.length →
        lighter (nodes ++ [mergedNode nodes a b]) c d = lighter nodes c d := by
      intro c d hc hd
      simp only [lighter, weightAt_append hc, weightAt_append hd]
    have same : ∀ c d, c < nodes.length → d < nodes.length →
        mergedNode (nodes ++ [mergedNode nodes a b]) c d = mergedNode nodes c d := by
      intro c d hc hd
      simp only [mergedNode, weightAt_append hc, weightAt_append hd]
    by_cases hx' : x = nodes.length
    · subst hx'
      simp only [free_append _ (le_refl _), ← h.members]
      refine ⟨a, b, by rw [same a b ka kb]; simp, pq.mem_iff.2 (by simp), pq.mem_iff.2 (by simp),
        by rw [light a b ka kb]; exact lab, fun g hg g1 g2 => ?_, ?_⟩
      · have hg1 : g ∈ q₁ := by simpa [g1] using pa.mem_iff.1 hg
        have := b3 g hg1
        have kg := h.known g hg
        rw [light b g kb kg, lighter_iff]
        rw [← Bool.not_eq_true, lighter_iff] at this
        omega
      · rw [weightAt_append ka, weightAt_append kb]; omega
    · obtain ⟨c, d, e, hc, hd, hl, hm, hs⟩ := h.merged x h1 (by omega)
      have hc' : c < nodes.length := by have := hc.1; omega
      have hd' : d < nodes.length := by have := hd.1; omega
      simp only [free_append _ (show x ≤ nodes.length by omega)]
      refine ⟨c, d, ?_, hc, hd, by rw [light c d hc' hd']; exact hl, fun g hg g1 g2 => ?_, ?_⟩
      · rw [same c d hc' hd', List.getElem?_append_left (by omega), e]
      · rw [light d g hd' (by have := hg.1; omega)]; exact hm g hg g1 g2
      · rw [weightAt_append hc', weightAt_append hd']; exact hs

/-- The loop ends with at most one handle in the collection. -/
theorem mergeAll_forest (leaves : List Node)
    (hw : (leaves.map (fun x => x.weight.toNat)).sum < 2 ^ 72) (hl : leaves.length ≤ 256)
    (hlf : ∀ x ∈ leaves, x.isLeaf = true) (k : Nat) (nodes : List Node) (q : List Nat)
    (h : Forest leaves nodes q) (hk : q.length ≤ k + 1) :
    ∃ q', q'.length ≤ 1 ∧ Forest leaves (mergeAll k nodes q) q' := by
  induction k generalizing nodes q with
  | zero => exact ⟨q, by omega, h⟩
  | succ k ih =>
    rw [mergeAll]
    cases ha : takeLeast nodes q with
    | none => exact ⟨q, by rw [takeLeast_none ha]; simp, h⟩
    | some x =>
      obtain ⟨a, q₁⟩ := x
      obtain ⟨a1, a2, _⟩ := takeLeast_spec ha
      have e1 : q₁.length + 1 = q.length := by
        rw [a2, List.length_erase_of_mem a1]; have := List.length_pos_of_mem a1; omega
      cases hb : takeLeast nodes q₁ with
      | none =>
        have := takeLeast_none hb
        subst this
        exact ⟨q, by simp at e1; omega, by simpa [hb] using h⟩
      | some y =>
        obtain ⟨b, q₂⟩ := y
        obtain ⟨b1, b2, _⟩ := takeLeast_spec hb
        have e2 : q₂.length + 1 = q₁.length := by
          rw [b2, List.length_erase_of_mem b1]; have := List.length_pos_of_mem b1; omega
        simp only [hb]
        exact ih _ _ (h.merge ha hb hw hl hlf) (by simp; omega)

/-- What BUILD's nodes are: those of a forest whose collection is the root alone, or empty without a leaf. -/
theorem treeNodes_forest (fs : List Count) (h : fs.length ≤ 256) :
    ∃ q, q.length ≤ 1 ∧ Forest (leafNodes 0 fs) (treeNodes fs) q := by
  have hs := sum_counts_le fs
  have hl : (leafNodes 0 fs).length ≤ 256 := by
    rw [length_leafNodes]; exact le_trans (List.length_filter_le _ _) h
  have hlf : ∀ x ∈ leafNodes 0 fs, x.isLeaf = true := by
    intro x hx
    obtain ⟨i, hi, -, e⟩ := mem_leafNodes hx
    rw [e]; rfl
  exact mergeAll_forest _ (by rw [sum_weight_leafNodes]; omega) hl hlf _ _ _ (Forest.start _ hlf) (by simp)

/-! ### The walk and the code table -/

/-- An entry of the walk is the walk's prefix followed by a path to a leaf of that symbol. -/
theorem codeEntries_lead {arena : Vector Node 511} {k : Nat} {h : Handle} {p p' : List Bool} {b : Symbol}
    (e : (b, p') ∈ codeEntries arena k h p) :
    ∃ (x : List Bool) (g : Handle) (w : Weight), p' = p ++ x ∧ follow arena h x = some g ∧
      nodeOf arena g = .leaf b w := by
  induction k generalizing h p with
  | zero => simp [codeEntries] at e
  | succ k ih =>
    rw [codeEntries] at e
    cases hn : nodeOf arena h with
    | leaf sym w =>
      rw [hn] at e
      simp only [List.mem_singleton, Prod.mk.injEq] at e
      obtain ⟨rfl, rfl⟩ := e
      exact ⟨[], h, w, by simp, rfl, hn⟩
    | internal l r w =>
      rw [hn] at e
      simp only [List.mem_append] at e
      rcases e with e | e
      · obtain ⟨x, g, w, h1, h2, h3⟩ := ih e
        exact ⟨false :: x, g, w, by rw [h1]; simp, by rw [follow, hn]; simpa using h2, h3⟩
      · obtain ⟨x, g, w, h1, h2, h3⟩ := ih e
        exact ⟨true :: x, g, w, by rw [h1]; simp, by rw [follow, hn]; simpa using h2, h3⟩

theorem codeValidOf_iff (entries : List (Symbol × List Bool)) (b : Symbol) :
    atSym (codeValidOf entries) b = true ↔ ∃ p, (b, p) ∈ entries := by
  have key : ∀ (v : Vector Bool 256), atSym (entries.foldl (fun v e => setSym v e.1 true) v) b = true ↔
      atSym v b = true ∨ ∃ p, (b, p) ∈ entries := by
    induction entries with
    | nil => simp
    | cons e es ih =>
      intro v
      rw [List.foldl_cons, ih, atSym_setSym]
      by_cases h : b = e.1
      · subst h; simp only [if_true, true_or, true_iff]; exact .inr ⟨e.2, by simp⟩
      · rw [if_neg h]
        constructor
        · rintro (h' | ⟨p, hp⟩)
          · exact .inl h'
          · exact .inr ⟨p, by simp [hp]⟩
        · rintro (h' | ⟨p, hp⟩)
          · exact .inl h'
          · rcases List.mem_cons.1 hp with rfl | hp
            · exact absurd rfl h
            · exact .inr ⟨p, hp⟩
  rw [codeValidOf, key]; simp

/-- The code of a symbol with an entry is one of its entries. -/
theorem codeBitsOf_mem {entries : List (Symbol × List Bool)} {b : Symbol}
    (h : atSym (codeValidOf entries) b = true) : (b, atSym (codeBitsOf entries) b) ∈ entries := by
  have key : ∀ (es : List (Symbol × List Bool)) (v : Vector (List Bool) 256),
      (b, atSym (es.foldl (fun v e => setSym v e.1 e.2) v) b) ∈ es ∨
      ((∀ p, (b, p) ∉ es) ∧ atSym (es.foldl (fun v e => setSym v e.1 e.2) v) b = atSym v b) := by
    intro es
    induction es with
    | nil => intro v; right; simp
    | cons e es ih =>
      intro v
      rw [List.foldl_cons]
      rcases ih (setSym v e.1 e.2) with h | ⟨h, h'⟩
      · exact .inl (List.mem_cons_of_mem _ h)
      · rw [h', atSym_setSym]
        by_cases hb : b = e.1
        · subst hb; left; simp
        · right
          rw [if_neg hb]
          refine ⟨fun p hp => ?_, rfl⟩
          rcases List.mem_cons.1 hp with rfl | hp
          · exact hb rfl
          · exact h p hp
  obtain ⟨p, hp⟩ := (codeValidOf_iff entries b).1 h
  rcases key entries (Vector.replicate 256 []) with h | ⟨h, -⟩
  · exact h
  · exact absurd hp (h p)

/-- No path to a leaf goes on to another node. -/
theorem follow_append {arena : Vector Node 511} {h g : Handle} {x y : List Bool} (e : follow arena h x = some g) :
    follow arena h (x ++ y) = follow arena g y := by
  induction x generalizing h with
  | nil => simp [follow] at e; simp [e]
  | cons c x ih =>
    rw [List.cons_append, follow]
    rw [follow] at e
    cases hn : nodeOf arena h with
    | leaf sym w => rw [hn] at e; simp at e
    | internal l r w => rw [hn] at e; exact ih e

/-- Of two paths to leaves one is the beginning of the other only if they are the same. -/
theorem follow_leaf_prefix {arena : Vector Node 511} {h g g' : Handle} {x y : List Bool} {b c : Symbol} {w w' : Weight}
    (e : follow arena h x = some g) (l : nodeOf arena g = .leaf b w) (e' : follow arena h (x ++ y) = some g')
    (l' : nodeOf arena g' = .leaf c w') : y = [] ∧ b = c := by
  rw [follow_append e] at e'
  cases y with
  | nil =>
    simp only [follow, Option.some.injEq] at e'
    subst e'
    rw [l] at l'
    injection l' with h1
    exact ⟨rfl, h1⟩
  | cons d y => rw [follow, l] at e'; simp at e'

/-! ### The arena BUILD leaves -/

/-- The nodes of the tree, by handle; above them the arena is as it was. -/
theorem nodeOf_builtArena (fs : List Count) (old : Vector Node 511) (h : Handle) :
    nodeOf (builtArena fs old) h =
      if h.toNat < 511 then ((treeNodes fs)[h.toNat]?).getD (nodeOf old h) else nodeOf old h := by
  unfold nodeOf builtArena
  by_cases hh : h.toNat < 511
  · rw [if_pos hh, getElem?_overlay _ _ _ _ hh]
    by_cases hl : h.toNat < (treeNodes fs).length
    · rw [if_pos ⟨by omega, by omega⟩]; simp [hl]
    · rw [if_neg (by omega)]; simp [hl]
  · rw [if_neg hh]
    have : ∀ v : Vector Node 511, v[h.toNat]? = none := fun v => Vector.getElem?_eq_none_iff.2 (by omega)
    rw [this, this]

/-- The facts of a tree over `fs`, with n leaves, in terms of the arena that holds it. -/
structure Built (fs : List Count) (arena : Vector Node 511) (n : Nat) : Prop where
  count : n = (leafNodes 0 fs).length
  bound : n ≤ 256
  total : (fs.map BitVec.toNat).sum < 2 ^ 72
  /-- The handles below n are the leaves. -/
  leaf : ∀ h : Handle, h.toNat < n → (leafNodes 0 fs)[h.toNat]? = some (nodeOf arena h)
  /-- The handles from n to 2n - 2 are merges of two earlier handles. -/
  inner : ∀ h : Handle, n ≤ h.toNat → h.toNat + 1 < 2 * n →
    ∃ l r w, nodeOf arena h = .internal l r w ∧ l.toNat < h.toNat ∧ r.toNat < h.toNat ∧
      w.toNat = (nodeOf arena l).weight.toNat + (nodeOf arena r).weight.toNat ∧
      ((nodeOf arena l).weight.toNat < (nodeOf arena r).weight.toNat ∨
        ((nodeOf arena l).weight = (nodeOf arena r).weight ∧ l.toNat < r.toNat))
  /-- Each takes the two least handles of the collection at that time. -/
  least : ∀ (h l r : Handle) (w : Weight), n ≤ h.toNat → h.toNat + 1 < 2 * n → nodeOf arena h = .internal l r w →
    InCollection arena h l ∧ InCollection arena h r ∧
      ∀ g, InCollection arena h g → g ≠ l → g ≠ r → KeyBefore arena r g
  /-- The root weighs the sum. -/
  rootWeight : 0 < n → (nodeOf arena (rootFor n)).weight.toNat = (fs.map BitVec.toNat).sum
  /-- Every handle of the tree lies on the walk from the root. -/
  covers : ∀ h : Handle, h.toNat + 1 < 2 * n → ∃ x, follow arena (rootFor n) x = some h

theorem below_follow {nodes : List Node} {arena : Vector Node 511} {r h : Nat} (b : Below nodes r h)
    (hr : r < 512) (same : ∀ g : Handle, g.toNat ≤ r → ∀ x, nodes[g.toNat]? = some x → nodeOf arena g = x) :
    ∃ x, follow arena (BitVec.ofNat 9 r) x = some (BitVec.ofNat 9 h) := by
  induction b with
  | here h => exact ⟨[], rfl⟩
  | @left r h a b w e h1 h2 _ ih =>
    obtain ⟨x, hx⟩ := ih (by omega) (fun g hg => same g (by omega))
    have hr' : (BitVec.ofNat 9 r).toNat = r := by simp; omega
    have := same (BitVec.ofNat 9 r) (by omega) _ (by rw [hr']; exact e)
    exact ⟨false :: x, by rw [follow, this]; simpa using hx⟩
  | @right r h a b w e h1 h2 _ ih =>
    obtain ⟨x, hx⟩ := ih (by omega) (fun g hg => same g (by omega))
    have hr' : (BitVec.ofNat 9 r).toNat = r := by simp; omega
    have := same (BitVec.ofNat 9 r) (by omega) _ (by rw [hr']; exact e)
    exact ⟨true :: x, by rw [follow, this]; simpa using hx⟩

theorem rootFor_toNat {n : Nat} (h : n ≤ 256) : (rootFor n).toNat = 2 * n - 2 := by
  unfold rootFor
  split_ifs with e
  · subst e; rfl
  · simp only [BitVec.toNat_ofNat]; omega

/-- BUILD's arena holds the tree. -/
theorem built (fs : List Count) (hfs : fs.length ≤ 256) (old : Vector Node 511) :
    Built fs (builtArena fs old) (leafNodes 0 fs).length := by
  obtain ⟨q, hq, F⟩ := treeNodes_forest fs hfs
  have hn : (leafNodes 0 fs).length ≤ 256 := by
    rw [length_leafNodes]; exact le_trans (List.length_filter_le _ _) hfs
  have hs := sum_counts_le fs
  have size := F.size
  have hlen : (treeNodes fs).length ≤ 511 ∧ ((treeNodes fs).length + 1 = 2 * (leafNodes 0 fs).length ∨
      (leafNodes 0 fs).length = 0 ∧ (treeNodes fs).length = 0) := by
    by_cases he : leafNodes 0 fs = []
    · have : (leafNodes 0 fs).length = 0 := by rw [he]; rfl
      omega
    · have h1 := List.length_pos_iff.2 (F.nonempty he)
      omega
  have node : ∀ h : Handle, ∀ x, (treeNodes fs)[h.toNat]? = some x → nodeOf (builtArena fs old) h = x := by
    intro h x hx
    have : h.toNat < (treeNodes fs).length := (List.getElem?_eq_some_iff.1 hx).1
    rw [nodeOf_builtArena, if_pos (by omega), hx]; rfl
  have wt : ∀ h, h < (treeNodes fs).length →
      (nodeOf (builtArena fs old) (BitVec.ofNat 9 h)).weight = weightAt (treeNodes fs) h := by
    intro h hh
    have e : (BitVec.ofNat 9 h).toNat = h := by simp only [BitVec.toNat_ofNat]; omega
    rw [node (BitVec.ofNat 9 h) (treeNodes fs)[h] (by rw [e]; simp [hh])]
    simp [weightAt, hh]
  have free : ∀ h g : Handle, h.toNat < (treeNodes fs).length →
      (InCollection (builtArena fs old) h g ↔ Free (treeNodes fs) h.toNat g.toNat) := by
    intro h g hh
    have eg : BitVec.ofNat 9 g.toNat = g := by simp
    unfold InCollection Free
    rw [eg]
    refine and_congr_right fun _ => ⟨fun p k l r w hk e => ?_, fun p k l r w hk e => ?_⟩
    · have ek : (BitVec.ofNat 9 k).toNat = k := by simp only [BitVec.toNat_ofNat]; omega
      exact p (BitVec.ofNat 9 k) l r w (by omega) (node _ _ (by rw [ek]; exact e))
    · have hk' : k.toNat < (treeNodes fs).length := by omega
      refine p k.toNat l r w hk ?_
      rw [List.getElem?_eq_getElem hk', ← node k _ (List.getElem?_eq_getElem hk'), e]
  refine ⟨rfl, hn, by omega, ?_, ?_, ?_, ?_, ?_⟩
  · intro h hh
    have h1 : h.toNat < (treeNodes fs).length := by have := F.enough; omega
    have h2 := node h _ (List.getElem?_eq_getElem h1)
    rw [h2]
    conv_lhs => rw [← F.first]
    rw [List.getElem?_take_of_lt hh, List.getElem?_eq_getElem h1]
  · intro h h1 h2
    obtain ⟨a, b, e, ⟨ha, -⟩, ⟨hb, -⟩, hl, -, hsum⟩ := F.merged h.toNat h1 (by omega)
    have hh := node h _ e
    have ea : (BitVec.ofNat 9 a).toNat = a := by simp only [BitVec.toNat_ofNat]; omega
    have eb : (BitVec.ofNat 9 b).toNat = b := by simp only [BitVec.toNat_ofNat]; omega
    refine ⟨_, _, _, hh, by omega, by omega, ?_, ?_⟩
    · rw [wt a (by omega), wt b (by omega), BitVec.toNat_add]
      rw [sum_weight_leafNodes] at hsum
      exact Nat.mod_eq_of_lt (by omega)
    · rw [wt a (by omega), wt b (by omega), ea, eb, ← BitVec.toNat_inj]
      exact (lighter_iff _ _ _).1 hl
  · intro h l r w h1 h2 en
    obtain ⟨a, b, e, ha, hb, -, hm, -⟩ := F.merged h.toNat h1 (by omega)
    have ha1 := ha.1
    have hb1 := hb.1
    have hlt : h.toNat < (treeNodes fs).length := by omega
    have ea : (BitVec.ofNat 9 a).toNat = a := by simp only [BitVec.toNat_ofNat]; omega
    have eb : (BitVec.ofNat 9 b).toNat = b := by simp only [BitVec.toNat_ofNat]; omega
    have hh := node h _ e
    rw [en, mergedNode] at hh
    injection hh with e1 e2 e3
    subst e1 e2
    refine ⟨(free h _ hlt).2 (by rw [ea]; exact ha), (free h _ hlt).2 (by rw [eb]; exact hb), fun g hg g1 g2 => ?_⟩
    have hg' := (free h g hlt).1 hg
    have hg1 := hg'.1
    have := hm g.toNat hg' (fun c => g1 (by rw [← c]; simp)) (fun c => g2 (by rw [← c]; simp))
    rw [lighter_iff] at this
    have wg := wt g.toNat (by omega)
    rw [show BitVec.ofNat 9 g.toNat = g by simp] at wg
    unfold KeyBefore
    rw [wt b (by omega), wg, eb, ← BitVec.toNat_inj]
    exact this
  · intro hpos
    have hne : leafNodes 0 fs ≠ [] := List.length_pos_iff.1 hpos
    obtain ⟨x, rfl⟩ : ∃ x, q = [x] := by
      have := List.length_pos_iff.2 (F.nonempty hne)
      exact List.length_eq_one_iff.1 (by omega)
    have hx := F.newest x (by simp)
    have hw := F.weight
    rw [sum_weight_leafNodes] at hw
    have e : rootFor (leafNodes 0 fs).length = BitVec.ofNat 9 x := by
      apply BitVec.eq_of_toNat_eq
      rw [rootFor_toNat hn]; simp only [BitVec.toNat_ofNat]; omega
    rw [e, wt x (by omega)]; simpa using hw
  · intro h hh
    have hpos : 0 < (leafNodes 0 fs).length := by omega
    have hne : leafNodes 0 fs ≠ [] := List.length_pos_iff.1 hpos
    obtain ⟨x, rfl⟩ : ∃ x, q = [x] := by
      have := List.length_pos_iff.2 (F.nonempty hne)
      exact List.length_eq_one_iff.1 (by omega)
    have hx := F.newest x (by simp)
    obtain ⟨r, hr, hB⟩ := F.covers h.toNat (by omega)
    rw [List.mem_singleton] at hr
    subst hr
    have e : rootFor (leafNodes 0 fs).length = BitVec.ofNat 9 r := by
      apply BitVec.eq_of_toNat_eq
      rw [rootFor_toNat hn]; simp only [BitVec.toNat_ofNat]; omega
    have := below_follow hB (by omega) (arena := builtArena fs old) (fun g _ x hx => node g x hx)
    rw [e]; simpa using this

/-- A path in the tree goes down through earlier and earlier handles, all but its end behind the leaves. -/
theorem Built.follow_bounds {fs : List Count} {arena : Vector Node 511} {n : Nat} (B : Built fs arena n) {h g : Handle}
    {x : List Bool} (hh : h.toNat + 1 < 2 * n) (e : follow arena h x = some g) :
    g.toNat + x.length ≤ h.toNat ∧ (x = [] ∨ x.length + n ≤ h.toNat + 1) := by
  induction x generalizing h with
  | nil => simp only [follow, Option.some.injEq] at e; subst e; simp
  | cons c x ih =>
    rw [follow] at e
    by_cases hl : h.toNat < n
    · obtain ⟨i, hi, -, h2⟩ := mem_leafNodes (List.mem_of_getElem? (B.leaf h hl))
      rw [h2] at e; simp at e
    · obtain ⟨l, r, w, h1, h2, h3, -⟩ := B.inner h (by omega) hh
      rw [h1] at e
      cases c with
      | false =>
        obtain ⟨i1, i2⟩ := ih (h := l) (by omega) (by simpa using e)
        refine ⟨by rw [List.length_cons]; omega, .inr ?_⟩
        rcases i2 with rfl | i2
        · simp; omega
        · rw [List.length_cons]; omega
      | true =>
        obtain ⟨i1, i2⟩ := ih (h := r) (by omega) (by simpa using e)
        refine ⟨by rw [List.length_cons]; omega, .inr ?_⟩
        rcases i2 with rfl | i2
        · simp; omega
        · rw [List.length_cons]; omega

/-- The walk emits an entry for each leaf within its depth. -/
theorem codeEntries_of_follow {arena : Vector Node 511} {h g : Handle} {x p : List Bool} {b : Symbol} {w : Weight}
    {k : Nat} (e : follow arena h x = some g) (l : nodeOf arena g = .leaf b w) (hk : x.length < k) :
    (b, p ++ x) ∈ codeEntries arena k h p := by
  induction x generalizing h p k with
  | nil =>
    simp only [follow, Option.some.injEq] at e
    subst e
    cases k with
    | zero => simp at hk
    | succ k => rw [codeEntries, l]; simp
  | cons c x ih =>
    cases k with
    | zero => simp at hk
    | succ k =>
      rw [follow] at e
      cases hn : nodeOf arena h with
      | leaf sym w => rw [hn] at e; simp at e
      | internal l r w =>
        rw [hn] at e
        rw [codeEntries, hn]
        simp only [List.mem_append]
        rw [List.length_cons] at hk
        cases c with
        | false =>
          left
          have := ih (h := l) (p := p ++ [false]) (k := k) (by simpa using e) (by omega)
          simpa using this
        | true =>
          right
          have := ih (h := r) (p := p ++ [true]) (k := k) (by simpa using e) (by omega)
          simpa using this

/-- The entries of the code table over a tree: exactly the leaves' symbols with the paths to them. -/
theorem Built.mem_entries {fs : List Count} {arena : Vector Node 511} {n : Nat} (B : Built fs arena n) (b : Symbol)
    (p : List Bool) :
    (b, p) ∈ builtEntries n arena ↔
      0 < n ∧ ∃ g w, follow arena (rootFor n) p = some g ∧ nodeOf arena g = .leaf b w := by
  have hb := B.bound
  have hr := rootFor_toNat hb
  unfold builtEntries
  by_cases hn : n = 0
  · simp [hn]
  · rw [if_neg hn]
    constructor
    · intro h
      obtain ⟨x, g, w, h1, h2, h3⟩ := codeEntries_lead h
      rw [List.nil_append] at h1
      subst h1
      exact ⟨by omega, g, w, h2, h3⟩
    · rintro ⟨-, g, w, h1, h2⟩
      have := B.follow_bounds (by rw [hr]; omega) h1
      exact codeEntries_of_follow (p := []) h1 h2 (by omega)

/-- Exactly the symbols with a nonzero count have an entry. -/
theorem Built.present {fs : List Count} {arena : Vector Node 511} {n : Nat} (B : Built fs arena n)
    (hfs : fs.length = 256) (b : Symbol) :
    atSym (codeValidOf (builtEntries n arena)) b = true ↔ fs[b.toNat]'(by rw [hfs]; exact b.isLt) ≠ 0#64 := by
  have hr := rootFor_toNat B.bound
  have hcount := B.count
  rw [codeValidOf_iff]
  constructor
  · rintro ⟨p, hp⟩
    obtain ⟨hn, g, w, h1, h2⟩ := (B.mem_entries b p).1 hp
    have hg := B.follow_bounds (by rw [hr]; omega) h1
    by_cases hl : g.toNat < n
    · obtain ⟨i, hi, h3, h4⟩ := mem_leafNodes (List.mem_of_getElem? (B.leaf g hl))
      rw [h2] at h4
      injection h4 with h5
      have : b.toNat = i := by rw [h5]; simp only [BitVec.toNat_ofNat]; omega
      simpa [this] using h3
    · obtain ⟨l, r, w, h3, -⟩ := B.inner g (by omega) (by omega)
      rw [h2] at h3; exact absurd h3 nofun
  · intro hf
    have hi : b.toNat < fs.length := by rw [hfs]; exact b.isLt
    have h1 := getElem?_leafNodes fs 0 b.toNat hi hf
    rw [Nat.zero_add, BitVec.ofNat_toNat, BitVec.setWidth_eq] at h1
    have h2 := (List.getElem?_eq_some_iff.1 h1).1
    rw [← hcount] at h2
    have e : (BitVec.ofNat 9 ((fs.take b.toNat).filter (fun f => f != 0#64)).length).toNat =
        ((fs.take b.toNat).filter (fun f => f != 0#64)).length := by
      have := B.bound
      simp only [BitVec.toNat_ofNat]; omega
    obtain ⟨x, hx⟩ := B.covers (BitVec.ofNat 9 ((fs.take b.toNat).filter (fun f => f != 0#64)).length)
      (by rw [e]; omega)
    have h3 := B.leaf (BitVec.ofNat 9 ((fs.take b.toNat).filter (fun f => f != 0#64)).length) (by rw [e]; exact h2)
    rw [e, h1, Option.some.injEq] at h3
    exact ⟨x, (B.mem_entries b x).2 ⟨by omega, _, _, hx, h3.symm⟩⟩

/-! ### What BUILD writes, field by field -/

@[simp] theorem buildFrom_memBytes (fs : List Count) (s : State) : (buildFrom fs s).memBytes = s.memBytes := rfl
@[simp] theorem buildFrom_ieDone (fs : List Count) (s : State) : (buildFrom fs s).ieDone = s.ieDone := rfl
@[simp] theorem buildFrom_ieErr (fs : List Count) (s : State) : (buildFrom fs s).ieErr = s.ieErr := rfl
@[simp] theorem buildFrom_busy (fs : List Count) (s : State) : (buildFrom fs s).busy = s.busy := rfl
@[simp] theorem buildFrom_done (fs : List Count) (s : State) : (buildFrom fs s).done = s.done := rfl
@[simp] theorem buildFrom_err (fs : List Count) (s : State) : (buildFrom fs s).err = s.err := rfl
@[simp] theorem buildFrom_cmdOvr (fs : List Count) (s : State) : (buildFrom fs s).cmdOvr = s.cmdOvr := rfl
@[simp] theorem buildFrom_wrOvr (fs : List Count) (s : State) : (buildFrom fs s).wrOvr = s.wrOvr := rfl
@[simp] theorem buildFrom_treeValid (fs : List Count) (s : State) : (buildFrom fs s).treeValid = true := rfl
@[simp] theorem buildFrom_uvalid (fs : List Count) (s : State) : (buildFrom fs s).uvalid = false := rfl
@[simp] theorem buildFrom_needIn (fs : List Count) (s : State) : (buildFrom fs s).needIn = s.needIn := rfl
@[simp] theorem buildFrom_outFull (fs : List Count) (s : State) : (buildFrom fs s).outFull = s.outFull := rfl
@[simp] theorem buildFrom_cmdLast (fs : List Count) (s : State) : (buildFrom fs s).cmdLast = s.cmdLast := rfl
@[simp] theorem buildFrom_errCode (fs : List Count) (s : State) : (buildFrom fs s).errCode = s.errCode := rfl
@[simp] theorem buildFrom_errInfo (fs : List Count) (s : State) : (buildFrom fs s).errInfo = s.errInfo := rfl
@[simp] theorem buildFrom_src (fs : List Count) (s : State) : (buildFrom fs s).src = s.src := rfl
@[simp] theorem buildFrom_slen (fs : List Count) (s : State) : (buildFrom fs s).slen = s.slen := rfl
@[simp] theorem buildFrom_dst (fs : List Count) (s : State) : (buildFrom fs s).dst = s.dst := rfl
@[simp] theorem buildFrom_dlen (fs : List Count) (s : State) : (buildFrom fs s).dlen = s.dlen := rfl
@[simp] theorem buildFrom_rin (fs : List Count) (s : State) : (buildFrom fs s).rin = s.rin := rfl
@[simp] theorem buildFrom_rout (fs : List Count) (s : State) : (buildFrom fs s).rout = s.rout := rfl
@[simp] theorem buildFrom_total (fs : List Count) (s : State) : (buildFrom fs s).total = s.total := rfl
@[simp] theorem buildFrom_nsym (fs : List Count) (s : State) : (buildFrom fs s).nsym =
    BitVec.ofNat 9 (leafNodes 0 fs).length := rfl
@[simp] theorem buildFrom_root (fs : List Count) (s : State) : (buildFrom fs s).root =
    rootFor (leafNodes 0 fs).length := rfl
theorem buildFrom_maxLen (fs : List Count) (s : State) : (buildFrom fs s).maxLen =
    BitVec.ofNat 9 (greatestLength (buildFrom fs s).codeV (buildFrom fs s).code) := rfl
@[simp] theorem buildFrom_fsum (fs : List Count) (s : State) : (buildFrom fs s).fsum = freqSum fs := rfl
@[simp] theorem buildFrom_codeSel (fs : List Count) (s : State) : (buildFrom fs s).codeSel = s.codeSel := rfl
@[simp] theorem buildFrom_nodeSel (fs : List Count) (s : State) : (buildFrom fs s).nodeSel = s.nodeSel := rfl
@[simp] theorem buildFrom_lSrc (fs : List Count) (s : State) : (buildFrom fs s).lSrc = s.lSrc := rfl
@[simp] theorem buildFrom_lSlen (fs : List Count) (s : State) : (buildFrom fs s).lSlen = s.lSlen := rfl
@[simp] theorem buildFrom_lDst (fs : List Count) (s : State) : (buildFrom fs s).lDst = s.lDst := rfl
@[simp] theorem buildFrom_lDlen (fs : List Count) (s : State) : (buildFrom fs s).lDlen = s.lDlen := rfl
@[simp] theorem buildFrom_freq (fs : List Count) (s : State) : (buildFrom fs s).freq = s.freq := rfl
@[simp] theorem buildFrom_fdefLo (fs : List Count) (s : State) : (buildFrom fs s).fdefLo = s.fdefLo := rfl
@[simp] theorem buildFrom_fdefHi (fs : List Count) (s : State) : (buildFrom fs s).fdefHi = s.fdefHi := rfl
@[simp] theorem buildFrom_arena (fs : List Count) (s : State) : (buildFrom fs s).arena = builtArena fs s.arena := rfl
@[simp] theorem buildFrom_codeV (fs : List Count) (s : State) : (buildFrom fs s).codeV =
    codeValidOf (builtEntries (leafNodes 0 fs).length (builtArena fs s.arena)) := rfl
@[simp] theorem buildFrom_code (fs : List Count) (s : State) : (buildFrom fs s).code =
    codeBitsOf (builtEntries (leafNodes 0 fs).length (builtArena fs s.arena)) := rfl
@[simp] theorem buildFrom_pbuf (fs : List Count) (s : State) : (buildFrom fs s).pbuf = s.pbuf := rfl
@[simp] theorem buildFrom_pcnt (fs : List Count) (s : State) : (buildFrom fs s).pcnt = s.pcnt := rfl
@[simp] theorem buildFrom_urem (fs : List Count) (s : State) : (buildFrom fs s).urem = s.urem := rfl
@[simp] theorem buildFrom_ucur (fs : List Count) (s : State) : (buildFrom fs s).ucur = s.ucur := rfl
@[simp] theorem buildFrom_ubuf (fs : List Count) (s : State) : (buildFrom fs s).ubuf = s.ubuf := rfl
@[simp] theorem buildFrom_ucnt (fs : List Count) (s : State) : (buildFrom fs s).ucnt = s.ucnt := rfl
@[simp] theorem buildFrom_mem (fs : List Count) (s : State) : (buildFrom fs s).mem = s.mem := rfl
@[simp] theorem buildFrom_undefRead (fs : List Count) (s : State) : (buildFrom fs s).undefRead = s.undefRead := rfl
@[simp] theorem buildFrom_draws (fs : List Count) (s : State) : (buildFrom fs s).draws = s.draws := rfl
@[simp] theorem buildFrom_epoch (fs : List Count) (s : State) : (buildFrom fs s).epoch = s.epoch := rfl
@[simp] theorem buildFrom_agenda (fs : List Count) (s : State) : (buildFrom fs s).agenda = s.agenda := rfl
@[simp] theorem buildFrom_replies (fs : List Count) (s : State) : (buildFrom fs s).replies = s.replies := rfl

/-- Beside these fields BUILD's work changes nothing. -/
theorem buildFrom_state (fs : List Count) (s : State) :
    buildFrom fs s = { s with
      arena := (buildFrom fs s).arena, codeV := (buildFrom fs s).codeV, code := (buildFrom fs s).code,
      nsym := (buildFrom fs s).nsym, root := (buildFrom fs s).root, maxLen := (buildFrom fs s).maxLen,
      fsum := (buildFrom fs s).fsum, treeValid := true, uvalid := false } := rfl

/-- The state holds the tree of these counts exactly when each of the fields BUILD writes is what BUILD makes it. -/
theorem buildFrom_eq_iff (fs : List Count) (s : State) :
    buildFrom fs s = { s with treeValid := true, uvalid := false } ↔
      builtArena fs s.arena = s.arena ∧
      codeValidOf (builtEntries (leafNodes 0 fs).length s.arena) = s.codeV ∧
      codeBitsOf (builtEntries (leafNodes 0 fs).length s.arena) = s.code ∧
      BitVec.ofNat 9 (leafNodes 0 fs).length = s.nsym ∧ rootFor (leafNodes 0 fs).length = s.root ∧
      BitVec.ofNat 9 (greatestLength s.codeV s.code) = s.maxLen ∧ freqSum fs = s.fsum := by
  constructor
  · intro h
    have h1 := congrArg State.arena h
    have h2 := congrArg State.codeV h
    have h3 := congrArg State.code h
    have h6 := congrArg State.maxLen h
    rw [buildFrom_arena] at h1
    rw [buildFrom_maxLen, h2, h3] at h6
    rw [buildFrom_codeV, h1] at h2
    rw [buildFrom_code, h1] at h3
    exact ⟨h1, h2, h3, congrArg State.nsym h, congrArg State.root h, h6, congrArg State.fsum h⟩
  · rintro ⟨h1, h2, h3, h4, h5, h6, h7⟩
    rw [buildFrom_state, buildFrom_maxLen, buildFrom_codeV, buildFrom_code, buildFrom_arena, h1, h2, h3, h6,
      buildFrom_nsym, buildFrom_root, buildFrom_fsum, h4, h5, h7]

/-- What TREE_VALID means depends on the table, the tree and its registers only. -/
theorem State.treeOk_congr {s t : State} (h : s.treeOk) (h1 : t.treeValid = true → s.treeValid = true)
    (h2 : s.undefRead = true → t.undefRead = true) (e1 : t.freq = s.freq) (e2 : t.fdefLo = s.fdefLo)
    (e3 : t.fdefHi = s.fdefHi) (e4 : t.arena = s.arena) (e5 : t.codeV = s.codeV) (e6 : t.code = s.code)
    (e7 : t.nsym = s.nsym) (e8 : t.root = s.root) (e9 : t.maxLen = s.maxLen) (e10 : t.fsum = s.fsum) : t.treeOk := by
  intro a b
  have b' : s.undefRead = false := by
    rw [← Bool.not_eq_true]
    intro c
    rw [h2 c] at b
    exact absurd b nofun
  obtain ⟨c, d⟩ := h (h1 a) b'
  rw [buildFrom_eq_iff] at d ⊢
  rw [e1, e4, e5, e6, e7, e8, e9, e10]
  refine ⟨?_, d⟩
  unfold State.allFreqDefined at c ⊢
  rw [e2, e3]
  exact c

@[simp] theorem State.leadsToLeaf_complete (s : State) (b : Symbol) :
    s.complete.leadsToLeaf b ↔ s.leadsToLeaf b := Iff.rfl

/-- After BUILD, whatever it read, the code of each symbol that has one leads to a leaf of that symbol. -/
theorem buildFrom_leadsToLeaf {fs : List Count} {s : State} {b : Symbol}
    (h : atSym (buildFrom fs s).codeV b = true) : (buildFrom fs s).leadsToLeaf b := by
  have e := codeBitsOf_mem h
  unfold builtEntries at e
  by_cases hn : (leafNodes 0 fs).length = 0
  · simp [hn] at e
  · rw [if_neg hn] at e
    obtain ⟨x, g, w, h1, h2, h3⟩ := codeEntries_lead e
    rw [List.nil_append] at h1
    refine ⟨g, w, ?_, h3⟩
    rw [buildFrom_arena, buildFrom_root, buildFrom_code]
    rw [← h1] at h2
    simpa [builtEntries, hn] using h2

/-! ### MAXLEN -/

theorem foldl_max_spec (ls : List Nat) (m : Nat) :
    m ≤ ls.foldl max m ∧ (∀ x ∈ ls, x ≤ ls.foldl max m) ∧ (ls.foldl max m = m ∨ ls.foldl max m ∈ ls) := by
  induction ls generalizing m with
  | nil => simp
  | cons a ls ih =>
    obtain ⟨h1, h2, h3⟩ := ih (max m a)
    rw [List.foldl_cons]
    refine ⟨le_trans (le_max_left _ _) h1, fun x hx => ?_, ?_⟩
    · rcases List.mem_cons.1 hx with rfl | hx
      · exact le_trans (le_max_right _ _) h1
      · exact h2 x hx
    · rcases h3 with h3 | h3
      · rw [h3]
        rcases max_choice m a with h | h
        · exact .inl h
        · rw [h]; exact .inr (by simp)
      · exact .inr (List.mem_cons_of_mem _ h3)

/-- The greatest length bounds every code's and is some code's, or 0. -/
theorem greatestLength_spec (v : Vector Bool 256) (c : Vector (List Bool) 256) :
    (∀ b, atSym v b = true → (atSym c b).length ≤ greatestLength v c) ∧
    (greatestLength v c = 0 ∨ ∃ b, atSym v b = true ∧ (atSym c b).length = greatestLength v c) := by
  obtain ⟨-, h2, h3⟩ := foldl_max_spec
    (List.zipWith (fun v c => if v then c.length else 0) v.toList c.toList) 0
  refine ⟨fun b hb => ?_, ?_⟩
  · apply h2
    rw [List.mem_iff_getElem]
    refine ⟨b.toNat, by simpa using b.isLt, ?_⟩
    have hb' : v[b.toNat]'b.isLt = true := hb
    simp [hb', atSym]
  · rcases h3 with h3 | h3
    · exact .inl h3
    · obtain ⟨i, hi, h4⟩ := List.mem_iff_getElem.1 h3
      have hi' : i < 256 := by simpa using hi
      simp only [List.getElem_zipWith, Vector.getElem_toList] at h4
      by_cases hv : v[i] = true
      · right
        refine ⟨BitVec.ofNat 8 i, ?_, ?_⟩
        · simpa [atSym, Nat.mod_eq_of_lt hi'] using hv
        · rw [if_pos hv] at h4
          simpa [atSym, Nat.mod_eq_of_lt hi', greatestLength] using h4
      · left
        rw [if_neg hv] at h4
        exact h4.symm

end Sys2Proof.Machine
end

