-- ==== Sys2Proof/Laws/Pack.lean ====
section
/-! SUPPORT. The bit packer: what appended bits become, and PACK's loop over defined symbols that have codes. -/

namespace Sys2Proof.Machine

theorem Memory.writeAll_append (m : Memory) (a : Nat) (xs ys : List Byte) :
    Memory.writeAll m a (xs ++ ys) = Memory.writeAll (Memory.writeAll m a xs) (a + xs.length) ys := by
  induction xs generalizing m a with
  | nil => rfl
  | cons x xs ih => simp [Memory.writeAll, ih, Nat.add_assoc, Nat.add_comm 1]

/-! ### Bits -/

@[simp] theorem length_rightBits (b : Byte) (n : Nat) : (rightBits b n).length = n := by simp [rightBits]

@[simp] theorem length_bitsOfByte (b : Byte) : (bitsOfByte b).length = 8 := length_rightBits b 8

theorem length_flatMap_bits (ys : List Byte) : (ys.flatMap bitsOfByte).length = 8 * ys.length := by
  induction ys with
  | nil => rfl
  | cons y ys ih => simp [ih]; omega

/-- The pending bits of the pack accumulator (10_state.md R45). -/
def State.pending (s : State) : List Bool := rightBits s.pbuf s.pcnt.toNat

theorem getLsbD_shiftIn (b : Byte) (bit : Bool) (k : Nat) :
    (shiftIn b bit).getLsbD k = if k = 0 then bit else decide (k < 8) && b.getLsbD (k - 1) := by
  cases k with
  | zero => simp [shiftIn]
  | succ k => cases bit <;> simp [shiftIn]

/-- A bit appended at the right stands behind the bits before it. -/
theorem rightBits_shiftIn (b : Byte) (bit : Bool) {n : Nat} (h : n ≤ 7) :
    rightBits (shiftIn b bit) (n + 1) = rightBits b n ++ [bit] := by
  unfold rightBits
  rw [List.range_succ, List.map_append]
  congr 1
  · apply List.map_congr_left
    intro k hk
    rw [List.mem_range] at hk
    rw [getLsbD_shiftIn, if_neg (by omega)]
    have : decide (n + 1 - 1 - k < 8) = true := by simp; omega
    rw [this, Bool.true_and]
    congr 1; omega
  · simp [getLsbD_shiftIn]

theorem toNat_shiftIn (b : Byte) (bit : Bool) (h : b.toNat < 128) :
    (shiftIn b bit).toNat = 2 * b.toNat + bit.toNat := by
  have e : (b <<< 1).toNat = 2 * b.toNat := by
    rw [BitVec.toNat_shiftLeft, Nat.shiftLeft_eq]; omega
  cases bit with
  | false => simp only [shiftIn, BitVec.toNat_or, e]; simp
  | true =>
    have : shiftIn b true = (b <<< 1) + 1#8 := by
      unfold shiftIn
      revert b; decide +kernel
    rw [this, BitVec.toNat_add, e]; simp; omega

/-- Padding puts the pending bits first and zero bits behind them. -/
theorem bitsOfByte_shiftLeft (b : Byte) {n : Nat} (h : n ≤ 8) :
    bitsOfByte (b <<< (8 - n)) = rightBits b n ++ List.replicate (8 - n) false := by
  apply List.ext_getElem
  · simp; omega
  · intro i h1 h2
    have hi : i < 8 := by simpa using h1
    simp only [bitsOfByte, rightBits, List.getElem_map, List.getElem_range, BitVec.getLsbD_shiftLeft]
    by_cases e : i < n
    · rw [List.getElem_append_left (by simpa using e)]
      simp only [List.getElem_map, List.getElem_range]
      have : (8 - 1 - i) - (8 - n) = n - 1 - i := by omega
      rw [this]; simp; omega
    · rw [List.getElem_append_right (by simpa using e)]
      simp; omega

/-! ### Appending bits -/

/-- What appending `bits` to the accumulator makes of the machine: the whole bytes `ys` are stored behind the `x.2`
written before, the rest stays pending. -/
structure Appended (x y : Packing) (bits : List Bool) (ys : List Byte) : Prop where
  out : y.2 = x.2 + ys.length
  bits : ys.flatMap bitsOfByte ++ y.1.pending = x.1.pending ++ bits
  ok : y.1.packOk
  state : y.1 = { x.1 with
    mem := Memory.writeAll x.1.mem (x.1.lDst.toNat + x.2) ys
    pbuf := y.1.pbuf
    pcnt := y.1.pcnt
    rout := if ys = [] then x.1.rout else BitVec.ofNat 32 (x.2 + ys.length) }

theorem Appended.refl {x : Packing} (h : x.1.packOk) : Appended x x [] [] :=
  ⟨by simp, by simp, h, by simp [Memory.writeAll]⟩

theorem Appended.trans {x y z : Packing} {b c : List Bool} {ys zs : List Byte} (h : Appended x y b ys)
    (k : Appended y z c zs) : Appended x z (b ++ c) (ys ++ zs) := by
  refine ⟨?_, ?_, k.ok, ?_⟩
  · rw [k.out, h.out, List.length_append]; omega
  · rw [List.flatMap_append, List.append_assoc, k.bits, ← List.append_assoc, h.bits, List.append_assoc]
  · have e1 : y.1.lDst = x.1.lDst := by rw [h.state]
    have e2 : y.1.mem = Memory.writeAll x.1.mem (x.1.lDst.toNat + x.2) ys := by rw [h.state]
    have e3 : y.1.rout = if ys = [] then x.1.rout else BitVec.ofNat 32 (x.2 + ys.length) := by rw [h.state]
    have e4 := k.state
    rw [e1, e2, e3, h.out] at e4
    rw [Memory.writeAll_append, ← Nat.add_assoc] at *
    rw [e4, h.state]
    by_cases hz : zs = []
    · simp [hz]
    · simp [hz, Nat.add_assoc]

/-- The number of bytes that `bits` fill up, and how many bits then stay pending. -/
theorem Appended.count {x y : Packing} {bits : List Bool} {ys : List Byte} (h : Appended x y bits ys) :
    ys.length = (x.1.pcnt.toNat + bits.length) / 8 ∧ y.1.pcnt.toNat = (x.1.pcnt.toNat + bits.length) % 8 := by
  have h1 := congrArg List.length h.bits
  have h2 := h.ok.1
  simp only [List.length_append, length_flatMap_bits, State.pending, length_rightBits] at h1
  omega

theorem appendBit_spec (x : Packing) (bit : Bool) (h : x.1.packOk) :
    ∃ ys, Appended x (appendBit x bit) [bit] ys := by
  obtain ⟨h1, h2⟩ := h
  unfold appendBit
  have e : x.1.pcnt + 1#4 = 8#4 ↔ x.1.pcnt.toNat = 7 := by
    rw [← BitVec.toNat_inj, BitVec.toNat_add]; simp only [BitVec.toNat_ofNat]; omega
  have hb : x.1.pbuf.toNat < 128 :=
    lt_of_lt_of_le h2 (Nat.pow_le_pow_right (by omega) h1)
  by_cases hc : x.1.pcnt + 1#4 = 8#4
  · rw [if_pos hc]
    have hc' := e.1 hc
    refine ⟨[shiftIn x.1.pbuf bit], rfl, ?_, ⟨by simp [putByte], by simp [putByte]⟩, ?_⟩
    · have := rightBits_shiftIn x.1.pbuf bit h1
      rw [hc'] at this
      simp only [State.pending, hc', ← this]
      simp [putByte, bitsOfByte, rightBits]
    · simp [putByte, Memory.writeAll, State.writeByte]
  · rw [if_neg hc]
    have hc' : x.1.pcnt.toNat ≠ 7 := fun h => hc (e.2 h)
    have e1 : (x.1.pcnt + 1#4).toNat = x.1.pcnt.toNat + 1 := by
      rw [BitVec.toNat_add]; simp only [BitVec.toNat_ofNat]; omega
    refine ⟨[], rfl, ?_, ⟨?_, ?_⟩, ?_⟩
    · simp only [State.pending, e1, rightBits_shiftIn x.1.pbuf bit h1]; simp
    · simp only [e1]; omega
    · simp only [e1, toNat_shiftIn _ _ hb, Nat.pow_succ]
      have := bit.toNat_le; omega
    · simp [Memory.writeAll]

theorem appendBits_spec (bits : List Bool) (x : Packing) (h : x.1.packOk) :
    ∃ ys, Appended x (appendBits x bits) bits ys := by
  induction bits generalizing x with
  | nil => exact ⟨[], Appended.refl h⟩
  | cons b bits ih =>
    obtain ⟨ys, h1⟩ := appendBit_spec x b h
    obtain ⟨zs, h2⟩ := ih (appendBit x b) h1.ok
    exact ⟨ys ++ zs, h1.trans h2⟩

/-! ### The loop -/

/-- Everything one pass of PACK can do: `s` is the state after the read of the symbol `b`. -/
theorem packSymbol_cases (i : Nat) (x : Packing) (h : x.1.packOk) :
    ∃ (s : State) (b : Symbol), HasRead x.1 s ∧
      ((atSym x.1.codeV b = false ∧ packSymbol i x = .ended (s.raise .noCode (BitVec.ofNat 32 i))) ∨
       (atSym x.1.codeV b = true ∧ x.1.lDlen.toNat < x.2 + (x.1.pcnt.toNat + (atSym x.1.code b).length) / 8 ∧
         packSymbol i x = .ended (s.raise .dstFull (BitVec.ofNat 32 i))) ∨
       (atSym x.1.codeV b = true ∧ x.2 + (x.1.pcnt.toNat + (atSym x.1.code b).length) / 8 ≤ x.1.lDlen.toNat ∧
         ∃ (y : Packing) (ys : List Byte), Appended (s, x.2) y (atSym x.1.code b) ys ∧
           packSymbol i x = .going ({ y.1 with rin := BitVec.ofNat 32 (i + 1) }, y.2))) := by
  have d := State.readByte_hasRead x.1 (x.1.lSrc.toNat + i)
  rcases e : x.1.readByte (x.1.lSrc.toNat + i) with ⟨b, s⟩
  rw [e] at d
  replace d : HasRead x.1 s := d
  have e1 : s.codeV = x.1.codeV := by rw [d.1]
  have e2 : s.code = x.1.code := by rw [d.1]
  have e3 : s.pcnt = x.1.pcnt := by rw [d.1]
  have e4 : s.lDlen = x.1.lDlen := by rw [d.1]
  have ok : s.packOk := by rw [d.1]; exact h
  refine ⟨s, b, d, ?_⟩
  simp only [packSymbol, e, e1, e2, e3, e4]
  by_cases hv : atSym x.1.codeV b = true
  · by_cases hr : x.2 + (x.1.pcnt.toNat + (atSym x.1.code b).length) / 8 > x.1.lDlen.toNat
    · exact .inr (.inl ⟨hv, hr, by simp [hv, hr]⟩)
    · obtain ⟨ys, hy⟩ := appendBits_spec (atSym x.1.code b) (s, x.2) ok
      exact .inr (.inr ⟨hv, by omega, _, ys, hy, by simp [hv, hr]⟩)
  · exact .inl ⟨by simpa using hv, by simp [hv]⟩

/-- A pass over a defined symbol: NO_CODE, DST_FULL, or its code is appended. -/
theorem packSymbol_defined {i : Nat} {x : Packing} {b : Symbol}
    (hb : Memory.read x.1.mem (x.1.lSrc.toNat + i) = some b) :
    packSymbol i x =
      if atSym x.1.codeV b = false then .ended (x.1.raise .noCode (BitVec.ofNat 32 i))
      else if x.1.lDlen.toNat < x.2 + (x.1.pcnt.toNat + (atSym x.1.code b).length) / 8 then
        .ended (x.1.raise .dstFull (BitVec.ofNat 32 i))
      else .going ({ (appendBits x (atSym x.1.code b)).1 with rin := BitVec.ofNat 32 (i + 1) },
        (appendBits x (atSym x.1.code b)).2) := by
  simp only [packSymbol, State.readByte_defined hb]
  by_cases hv : atSym x.1.codeV b = true <;> simp [hv]

/-- What the loop makes of the machine once the symbols `xs` are encoded: the bits of their codes are appended, and
RIN has counted them on from `k`. -/
structure Encoded (k : Nat) (xs : List Symbol) (x y : Packing) (ys : List Byte) : Prop where
  appended : Appended ({ x.1 with rin := y.1.rin }, x.2) y (x.1.codesOf xs) ys
  rin : y.1.rin = if xs = [] then x.1.rin else BitVec.ofNat 32 (k + xs.length)

/-- The loop over defined symbols that have codes, with room for their bytes. -/
theorem packLoop_encodes (xs : List Symbol) (k : Nat) (x : Packing)
    (hm : ∀ j (hj : j < xs.length), Memory.read x.1.mem (x.1.lSrc.toNat + (k + j)) = some xs[j])
    (apart : ∀ j, j < xs.length → x.1.lSrc.toNat + (k + j) < x.1.lDst.toNat + x.2 ∨
      x.1.lDst.toNat + x.1.lDlen.toNat ≤ x.1.lSrc.toNat + (k + j))
    (hv : ∀ b ∈ xs, atSym x.1.codeV b = true) (ok : x.1.packOk)
    (room : x.2 + (x.1.pcnt.toNat + (x.1.codesOf xs).length) / 8 ≤ x.1.lDlen.toNat) :
    ∃ (y : Packing) (ys : List Byte), forElems packSymbol xs.length k x = .going y ∧ Encoded k xs x y ys := by
  induction xs generalizing k x with
  | nil => exact ⟨x, [], rfl, Appended.refl ok, rfl⟩
  | cons b xs ih =>
    have hb : Memory.read x.1.mem (x.1.lSrc.toNat + k) = some b := hm 0 (Nat.succ_pos _)
    have hc : x.1.codesOf (b :: xs) = atSym x.1.code b ++ x.1.codesOf xs := by simp [State.codesOf]
    rw [hc, List.length_append] at room
    have h0 := packSymbol_defined hb
    rw [if_neg (by simp [hv b (by simp)]), if_neg (by omega)] at h0
    obtain ⟨ys, A⟩ := appendBits_spec (atSym x.1.code b) x ok
    generalize appendBits x (atSym x.1.code b) = y at h0 A
    have hcount := A.count
    have hout := A.out
    have f1 : y.1.lSrc = x.1.lSrc := by rw [A.state]
    have f2 : y.1.lDst = x.1.lDst := by rw [A.state]
    have f3 : y.1.lDlen = x.1.lDlen := by rw [A.state]
    have f4 : y.1.code = x.1.code := by rw [A.state]
    have f5 : y.1.codeV = x.1.codeV := by rw [A.state]
    have f6 : y.1.mem = Memory.writeAll x.1.mem (x.1.lDst.toNat + x.2) ys := by rw [A.state]
    have f7 : ∀ xs, State.codesOf { y.1 with rin := BitVec.ofNat 32 (k + 1) } xs = x.1.codesOf xs := by
      intro xs; simp only [State.codesOf, f4]
    obtain ⟨z, zs, h1, h2, h3⟩ := ih (k + 1) ({ y.1 with rin := BitVec.ofNat 32 (k + 1) }, y.2)
      (fun j hj => by
        have hj' : j + 1 < (b :: xs).length := by simpa using hj
        have hr := hm (j + 1) hj'
        have ha := apart (j + 1) hj'
        simp only [f1, f6]
        rw [show k + 1 + j = k + (j + 1) by omega, Memory.read_writeAll, if_neg (by omega)]
        simpa using hr)
      (fun j hj => by
        have ha := apart (j + 1) (by simpa using hj)
        simp only [f1, f2, f3]
        omega)
      (fun c hc => by simp only [f5]; exact hv c (by simp [hc]))
      A.ok
      (by rw [f7]; simp only [f3]; omega)
    refine ⟨z, ys ++ zs, ?_, ?_, ?_⟩
    · rw [List.length_cons, forElems, h0]; exact h1
    · rw [hc]
      rw [f7] at h2
      refine Appended.trans (y := ({ y.1 with rin := z.1.rin }, y.2)) ?_ h2
      exact ⟨A.out, A.bits, A.ok, by rw [A.state]⟩
    · rw [h3]
      by_cases e : xs = []
      · simp [e]
      · simp [e, Nat.add_assoc, Nat.add_comm 1]

end Sys2Proof.Machine
end

