-- ==== Sys2Proof/Laws/Unpack.lean ====
section
/-! SUPPORT. The bit unpacker: what a pass of UNPACK's loop can do, a rule for the loop, and what it keeps. -/

namespace Sys2Proof.Machine

/-! ### One pass -/

/-- One more symbol stored behind the `x.out` stored before. -/
theorem emit_eq (sym : Symbol) (x : Walk) :
    emit sym x =
      { st := { x.st with
          mem := Memory.write x.st.mem (x.st.lDst.toNat + x.out) sym
          rout := BitVec.ofNat 32 (x.out + 1)
          urem := x.st.urem - 1#64 }
        inp := x.inp
        out := x.out + 1 } := rfl

/-- The child that the next bit names, from an internal node with children `l` and `r`. -/
def Walk.nextChild (l r : Handle) (x : Walk) : Handle :=
  if x.st.ubuf.getLsbD (x.st.ucnt.toNat - 1) then r else l

/-- Taking a bit down to an internal node. -/
theorem takeBit_internal {l r l' r' : Handle} {w : Weight} {x : Walk}
    (h : nodeOf x.st.arena (x.nextChild l r) = .internal l' r' w) :
    takeBit l r x = { x with st := { x.st with ucnt := x.st.ucnt - 1#4, ucur := x.nextChild l r } } := by
  unfold Walk.nextChild at h
  simp only [takeBit, h, Walk.nextChild]

/-- Taking a bit down to a leaf: its symbol is emitted and the cursor goes back to the root. -/
theorem takeBit_leaf {l r : Handle} {sym : Symbol} {w : Weight} {x : Walk}
    (h : nodeOf x.st.arena (x.nextChild l r) = .leaf sym w) :
    takeBit l r x =
      { st := { x.st with
          mem := Memory.write x.st.mem (x.st.lDst.toNat + x.out) sym
          rout := BitVec.ofNat 32 (x.out + 1)
          urem := x.st.urem - 1#64
          ucnt := x.st.ucnt - 1#4
          ucur := x.st.root }
        inp := x.inp
        out := x.out + 1 } := by
  unfold Walk.nextChild at h
  simp only [takeBit, h, emit_eq]

/-- Loading a payload byte: `b` is what is read, `s` the state after the read. -/
theorem loadByte_eq (x : Walk) :
    ∃ (b : Byte) (s : State), HasRead x.st s ∧
      (∀ c, Memory.read x.st.mem (x.st.lSrc.toNat + x.inp) = some c → b = c ∧ s = x.st) ∧
      loadByte x =
        { st := { s with ubuf := b, rin := BitVec.ofNat 32 (x.inp + 1), ucnt := 8#4 }
          inp := x.inp + 1
          out := x.out } := by
  have d := State.readByte_hasRead x.st (x.st.lSrc.toNat + x.inp)
  rcases e : x.st.readByte (x.st.lSrc.toNat + x.inp) with ⟨b, s⟩
  rw [e] at d
  refine ⟨b, s, d, fun c hc => ?_, by simp only [loadByte, e]⟩
  rw [State.readByte_defined hc] at e
  injection e with e1 e2
  exact ⟨e1.symm, e2.symm⟩

/-- Everything one pass can do. -/
theorem unpackPass_cases (x : Walk) :
    (x.st.urem = 0#64 ∧ unpackPass x = .leave x) ∨
    (x.st.urem ≠ 0#64 ∧ x.out = x.st.lDlen.toNat ∧
      unpackPass x = .leave { x with st := { x.st with outFull := true } }) ∨
    (x.st.urem ≠ 0#64 ∧ x.out ≠ x.st.lDlen.toNat ∧
      ((∃ sym w, nodeOf x.st.arena x.st.ucur = .leaf sym w ∧ unpackPass x = .again (emit sym x)) ∨
       (∃ l r w, nodeOf x.st.arena x.st.ucur = .internal l r w ∧
        ((x.st.ucnt = 0#4 ∧ x.inp = x.st.lSlen.toNat ∧
            unpackPass x = .leave { x with st := { x.st with needIn := true } }) ∨
         (x.st.ucnt = 0#4 ∧ x.inp ≠ x.st.lSlen.toNat ∧ unpackPass x = .again (takeBit l r (loadByte x))) ∨
         (x.st.ucnt ≠ 0#4 ∧ unpackPass x = .again (takeBit l r x)))))) := by
  by_cases h1 : x.st.urem = 0#64
  · exact .inl ⟨h1, by rw [unpackPass, if_pos h1]⟩
  by_cases h2 : x.out = x.st.lDlen.toNat
  · exact .inr (.inl ⟨h1, h2, by rw [unpackPass, if_neg h1, if_pos h2]⟩)
  refine .inr (.inr ⟨h1, h2, ?_⟩)
  unfold unpackPass
  rw [if_neg h1, if_neg h2]
  cases hn : nodeOf x.st.arena x.st.ucur with
  | leaf sym w => exact .inl ⟨sym, w, rfl, rfl⟩
  | internal l r w =>
    refine .inr ⟨l, r, w, rfl, ?_⟩
    by_cases h3 : x.st.ucnt = 0#4
    · by_cases h4 : x.inp = x.st.lSlen.toNat
      · exact .inl ⟨h3, h4, by dsimp only; rw [if_pos h3, if_pos h4]⟩
      · exact .inr (.inl ⟨h3, h4, by dsimp only; rw [if_pos h3, if_neg h4]⟩)
    · exact .inr (.inr ⟨h3, by dsimp only; rw [if_neg h3]⟩)

/-! ### What every pass keeps -/

/-- Between passes only these fields of the state differ from those UNPACK started with, and the counts agree. -/
structure Moved (s : State) (x : Walk) : Prop where
  state : x.st = { s with
    mem := x.st.mem, rin := x.st.rin, rout := x.st.rout, urem := x.st.urem, ucur := x.st.ucur, ubuf := x.st.ubuf,
    ucnt := x.st.ucnt, undefRead := x.st.undefRead }
  undef : s.undefRead = true → x.st.undefRead = true
  inp : x.inp ≤ s.lSlen.toNat
  out : x.out ≤ s.lDlen.toNat
  rin : x.st.rin = if x.inp = 0 then s.rin else BitVec.ofNat 32 x.inp
  rout : x.st.rout = if x.out = 0 then s.rout else BitVec.ofNat 32 x.out
  urem : x.st.urem.toNat + x.out = s.urem.toNat
  ucnt : s.ucnt.toNat ≤ 8 → x.st.ucnt.toNat ≤ 8
  /-- The cursor stands where UNPACK found it, at the root, or at an internal node. -/
  ucur : x.st.ucur = s.ucur ∨ x.st.ucur = s.root ∨ (nodeOf s.arena x.st.ucur).isLeaf = false
  /-- Only the output area has been stored to. -/
  mem : ∃ ys : List Byte, ys.length = x.out ∧ x.st.mem = Memory.writeAll s.mem s.lDst.toNat ys

theorem Moved.start (s : State) : Moved s { st := s, inp := 0, out := 0 } :=
  ⟨rfl, id, by simp, by simp, by simp, by simp, by simp, id, .inl rfl, [], rfl, rfl⟩

theorem toNat_sub_one {n : Nat} {v : BitVec n} (h : v.toNat ≠ 0) : (v - 1#n).toNat = v.toNat - 1 := by
  have := v.isLt
  have h1 : 1 < 2 ^ n := by omega
  rw [BitVec.toNat_sub, BitVec.toNat_ofNat, Nat.mod_eq_of_lt h1]
  rw [show 2 ^ n - 1 + v.toNat = v.toNat - 1 + 2 ^ n by omega, Nat.add_mod_right, Nat.mod_eq_of_lt (by omega)]

theorem toNat_ne_zero {n : Nat} {v : BitVec n} (h : v ≠ 0#n) : v.toNat ≠ 0 :=
  fun e => h (BitVec.eq_of_toNat_eq (by rw [e]; simp))

theorem Moved.emit {s : State} {x : Walk} (h : Moved s x) (hu : x.st.urem ≠ 0#64) (ho : x.out ≠ x.st.lDlen.toNat)
    (sym : Symbol) (c : BitVec 4) (hc : c.toNat ≤ x.st.ucnt.toNat) (g : Handle)
    (hg : g = x.st.ucur ∨ g = s.root) :
    Moved s
      { st := { x.st with
          mem := Memory.write x.st.mem (x.st.lDst.toNat + x.out) sym
          rout := BitVec.ofNat 32 (x.out + 1)
          urem := x.st.urem - 1#64
          ucnt := c
          ucur := g }
        inp := x.inp
        out := x.out + 1 } := by
  have e1 : x.st.lDlen = s.lDlen := by rw [h.state]
  have e2 : x.st.lDst = s.lDst := by rw [h.state]
  have hu' := toNat_ne_zero hu
  obtain ⟨ys, hy1, hy2⟩ := h.mem
  have hout := h.out
  rw [e1] at ho
  refine ⟨?_, h.undef, h.inp, by simp only; omega, h.rin, by simp, ?_, ?_, ?_, ys ++ [sym], by simp [hy1], ?_⟩
  · rw [h.state]
  · simp only [toNat_sub_one hu']; have := h.urem; omega
  · intro hs; have := h.ucnt hs; simp only; omega
  · rcases hg with rfl | rfl
    · exact h.ucur
    · exact .inr (.inl rfl)
  · simp only [e2, hy2, Memory.writeAll_append, hy1]; rfl

theorem Moved.load {s : State} {x : Walk} (h : Moved s x) (hi : x.inp ≠ x.st.lSlen.toNat) : Moved s (loadByte x) := by
  obtain ⟨b, t, d, -, e⟩ := loadByte_eq x
  have e1 : x.st.lSlen = s.lSlen := by rw [h.state]
  have hinp := h.inp
  rw [e1] at hi
  have et : ∀ {α : Type} (f : State → α), (∀ u w, f { u with undefRead := w } = f u) → f t = f x.st := by
    intro α f hf
    rw [d.1, hf]
  rw [e]
  refine ⟨?_, fun hs => d.2 (h.undef hs), by simp only; omega, h.out, by simp, ?_, ?_, fun _ => by simp, ?_, ?_⟩
  · rw [d.1]; simp only; rw [h.state]
  · simp only; rw [et (·.rout) (fun _ _ => rfl)]; exact h.rout
  · simp only; rw [et (·.urem) (fun _ _ => rfl)]; exact h.urem
  · simp only; rw [et (·.ucur) (fun _ _ => rfl)]; exact h.ucur
  · simp only; rw [et (·.mem) (fun _ _ => rfl)]; exact h.mem

theorem Moved.take {s : State} {x : Walk} (h : Moved s x) (hu : x.st.urem ≠ 0#64) (ho : x.out ≠ x.st.lDlen.toNat)
    (hc : x.st.ucnt ≠ 0#4) (l r : Handle) : Moved s (takeBit l r x) := by
  have hc' := toNat_sub_one (toNat_ne_zero hc)
  cases hn : nodeOf x.st.arena (x.nextChild l r) with
  | leaf sym w =>
    rw [takeBit_leaf hn]
    exact h.emit hu ho sym _ (by omega) _ (.inr (by rw [h.state]))
  | internal l' r' w =>
    rw [takeBit_internal hn]
    refine ⟨by simp only; rw [h.state], h.undef, h.inp, h.out, h.rin, h.rout, h.urem, ?_, ?_, h.mem⟩
    · intro hs; have := h.ucnt hs; simp only; omega
    · have : x.st.arena = s.arena := by rw [h.state]
      rw [this] at hn
      exact .inr (.inr (by simp only [hn, Node.isLeaf]))

theorem Moved.pass {s : State} {x y : Walk} (h : Moved s x) (e : unpackPass x = .again y) : Moved s y := by
  rcases unpackPass_cases x with ⟨-, h1⟩ | ⟨-, -, h1⟩ | ⟨hu, ho, ⟨sym, w, -, h1⟩ | ⟨l, r, w, -, ⟨-, -, h1⟩ | ⟨hc, hi, h1⟩ | ⟨hc, h1⟩⟩⟩
  · rw [h1] at e; exact absurd e nofun
  · rw [h1] at e; exact absurd e nofun
  · rw [h1] at e
    injection e with e
    subst e
    rw [emit_eq]
    exact h.emit hu ho sym _ (le_refl _) _ (.inl rfl)
  · rw [h1] at e; exact absurd e nofun
  · rw [h1] at e
    injection e with e
    subst e
    obtain ⟨b, t, d, -, hl⟩ := loadByte_eq x
    have e1 : t.urem = x.st.urem := by rw [d.1]
    have e2 : t.lDlen = x.st.lDlen := by rw [d.1]
    refine (h.load hi).take ?_ ?_ ?_ l r <;> rw [hl]
    · simpa [e1] using hu
    · simpa [e2] using ho
    · simp
  · rw [h1] at e
    injection e with e
    subst e
    exact h.take hu ho hc l r

/-! ### The loop -/

/-- What is left to do: symbols to emit and bits to take. It falls with every pass that goes on. -/
def Walk.work (x : Walk) : Nat := x.st.urem.toNat + 8 * (x.st.lSlen.toNat - x.inp) + x.st.ucnt.toNat

theorem work_take {x : Walk} (hu : x.st.urem ≠ 0#64) (hc : x.st.ucnt ≠ 0#4) (l r : Handle) :
    (takeBit l r x).work < x.work := by
  have h1 := toNat_sub_one (toNat_ne_zero hu)
  have h2 := toNat_sub_one (toNat_ne_zero hc)
  have h3 := toNat_ne_zero hc
  cases hn : nodeOf x.st.arena (x.nextChild l r) with
  | leaf sym w => rw [takeBit_leaf hn]; simp only [Walk.work]; omega
  | internal l' r' w => rw [takeBit_internal hn]; simp only [Walk.work]; omega

theorem work_pass {x y : Walk} (hi : x.inp ≤ x.st.lSlen.toNat) (e : unpackPass x = .again y) : y.work < x.work := by
  rcases unpackPass_cases x with ⟨-, h1⟩ | ⟨-, -, h1⟩ | ⟨hu, ho, ⟨sym, w, -, h1⟩ | ⟨l, r, w, -, ⟨-, -, h1⟩ | ⟨hc, hi', h1⟩ | ⟨hc, h1⟩⟩⟩
  · rw [h1] at e; exact absurd e nofun
  · rw [h1] at e; exact absurd e nofun
  · rw [h1] at e
    injection e with e
    subst e
    have h1 := toNat_sub_one (toNat_ne_zero hu)
    have h2 := toNat_ne_zero hu
    simp only [emit_eq, Walk.work]; omega
  · rw [h1] at e; exact absurd e nofun
  · rw [h1] at e
    injection e with e
    subst e
    obtain ⟨b, t, d, -, hl⟩ := loadByte_eq x
    have e1 : t.urem = x.st.urem := by rw [d.1]
    have e2 : t.lSlen = x.st.lSlen := by rw [d.1]
    have hc' : x.st.ucnt.toNat = 0 := by rw [hc]; rfl
    have key : (loadByte x).work = x.work := by
      rw [hl]; simp only [Walk.work, e1, e2, hc', BitVec.toNat_ofNat]; omega
    rw [← key]
    apply work_take <;> rw [hl]
    · simpa [e1] using hu
    · simp
  · rw [h1] at e
    injection e with e
    subst e
    exact work_take hu hc l r

/-- A rule for UNPACK's loop: `P` of the walk before each pass gives `Q` of the walk in which the loop is left.
The bound on the number of passes is never reached (log entry 14). -/
theorem unpackLoop_rule {s : State} (P Q : Walk → Prop)
    (again : ∀ x y, Moved s x → P x → unpackPass x = .again y → P y)
    (leave : ∀ x y, Moved s x → P x → unpackPass x = .leave y → Q y)
    (start : P { st := s, inp := 0, out := 0 }) :
    Q (unpackLoop (unpackBound s) { st := s, inp := 0, out := 0 }) := by
  have key : ∀ k x, Moved s x → P x → x.work < k → Q (unpackLoop k x) := by
    intro k
    induction k with
    | zero => intro x _ _ h; omega
    | succ k ih =>
      intro x hm hp hk
      rw [unpackLoop]
      cases e : unpackPass x with
      | leave y => exact leave x y hm hp e
      | again y =>
        have hi : x.inp ≤ x.st.lSlen.toNat := by
          have := hm.inp
          rw [hm.state]; exact this
        have := work_pass hi e
        exact ih y (hm.pass e) (again x y hm hp e) (by omega)
  exact key _ _ (Moved.start s) start (by simp [Walk.work, unpackBound])

/-- How the loop ends: the count is reached, the output area is full, or the input has run out. -/
inductive Left (s : State) : Walk → Prop
  | count (x : Walk) : Moved s x → x.st.urem = 0#64 → Left s x
  | full (x : Walk) : Moved s x → x.st.urem ≠ 0#64 → x.out = s.lDlen.toNat →
      Left s { x with st := { x.st with outFull := true } }
  | empty (x : Walk) (l r : Handle) (w : Weight) : Moved s x → x.st.urem ≠ 0#64 → x.out ≠ s.lDlen.toNat →
      nodeOf s.arena x.st.ucur = .internal l r w → x.st.ucnt = 0#4 → x.inp = s.lSlen.toNat →
      Left s { x with st := { x.st with needIn := true } }

theorem Left.of_pass {s : State} {x y : Walk} (h : Moved s x) (e : unpackPass x = .leave y) : Left s y := by
  have e1 : x.st.lDlen = s.lDlen := by rw [h.state]
  have e2 : x.st.lSlen = s.lSlen := by rw [h.state]
  have e3 : x.st.arena = s.arena := by rw [h.state]
  rcases unpackPass_cases x with ⟨h0, h1⟩ | ⟨h0, h2, h1⟩ | ⟨hu, ho, ⟨sym, w, -, h1⟩ | ⟨l, r, w, hn, ⟨hc, hi, h1⟩ | ⟨-, -, h1⟩ | ⟨-, h1⟩⟩⟩
  · rw [h1] at e; injection e with e; subst e; exact .count x h h0
  · rw [h1] at e; injection e with e; subst e; exact .full x h h0 (by rw [← e1]; exact h2)
  · rw [h1] at e; exact absurd e nofun
  · rw [h1] at e; injection e with e; subst e
    exact .empty x l r w h hu (by rw [← e1]; exact ho) (by rw [← e3]; exact hn) hc (by rw [← e2]; exact hi)
  · rw [h1] at e; exact absurd e nofun
  · rw [h1] at e; exact absurd e nofun

/-- UNPACK's loop always ends in one of the three ways. -/
theorem unpackLoop_left (s : State) : Left s (unpackLoop (unpackBound s) { st := s, inp := 0, out := 0 }) :=
  unpackLoop_rule (fun _ => True) (Left s) (fun _ _ _ _ _ => trivial) (fun _ _ h _ e => Left.of_pass h e) trivial

end Sys2Proof.Machine
end

