-- ==== Sys2Proof/Laws/Commands.lean ====
section
/-! SUPPORT. What each command can do to the state, one lemma for each: the fields it may write, and how it ends. -/

namespace Sys2Proof.Machine

/-! ### Each arm of `exec` -/

theorem exec_nop (s : State) : exec .nop s = execNop s := rfl
theorem exec_fclr (s : State) : exec .fclr s = execFclr s := rfl
theorem exec_hist (s : State) : exec .hist s = execHist s := rfl
theorem exec_build (s : State) : exec .build s = execBuild s := rfl
theorem exec_pack (f : Bool) (s : State) : exec (.pack f) s = execPack f s := rfl
theorem exec_unpack (f : Bool) (s : State) : exec (.unpack f) s = execUnpack f s := rfl
theorem exec_uinit (s : State) : exec .uinit s = execUinit s := rfl
theorem exec_pinit (s : State) : exec .pinit s = execPinit s := rfl
theorem exec_hdrst (s : State) : exec .hdrst s = execHdrst s := rfl
theorem exec_hdrld (s : State) : exec .hdrld s = execHdrld s := rfl

/-! ### How a command ends -/

/-- How a command ends: by completion, or by an error that is reported (60_exceptions.md R229, R230). -/
def Ends (s t : State) : Prop :=
  t.busy = false ∧
  ((t.done = true ∧ t.err = s.err ∧ t.errCode = s.errCode ∧ t.errInfo = s.errInfo) ∨
   (t.done = s.done ∧ t.err = true ∧ t.errCode ≠ .noError))

/-- `t` is `s` but for the fields that say how a command ended, for a recorded UNDEF_READ, and for what HIST and HDRLD
write. -/
structure ChangesFreq (s t : State) : Prop where
  state : t = { s with
    treeValid := t.treeValid, uvalid := t.uvalid, freq := t.freq, fdefLo := t.fdefLo, fdefHi := t.fdefHi,
    total := t.total, rin := t.rin, busy := t.busy, done := t.done, err := t.err, errCode := t.errCode,
    errInfo := t.errInfo, undefRead := t.undefRead }
  undef : s.undefRead = true → t.undefRead = true
  /-- The tree stays valid only if the table stays as it was. -/
  tree : (t.treeValid = s.treeValid ∧ t.uvalid = s.uvalid ∧ t.freq = s.freq ∧ t.fdefLo = s.fdefLo ∧
    t.fdefHi = s.fdefHi) ∨ (t.treeValid = false ∧ t.uvalid = false)

theorem ChangesFreq.raise {s t : State} (h : ChangesFreq s t) (e : ErrCode) (i : Word) : ChangesFreq s (t.raise e i) :=
  ⟨by rw [h.state]; rfl, h.undef, h.tree⟩

theorem ChangesFreq.complete {s t : State} (h : ChangesFreq s t) : ChangesFreq s t.complete :=
  ⟨by rw [h.state]; rfl, h.undef, h.tree⟩

theorem execHist_changes {s t : State} (h : execHist s = .next t) : ChangesFreq s t ∧ Ends s t := by
  unfold execHist at h
  injection h with h
  split_ifs at h
  · subst h
    exact ⟨⟨rfl, id, .inl ⟨rfl, rfl, rfl, rfl, rfl⟩⟩, rfl, .inr ⟨rfl, rfl, nofun⟩⟩
  · subst h
    unfold histCount
    refine andThen_induct
      (Q := fun _ x => ChangesFreq s x ∧ (x.treeValid = false ∧ x.uvalid = false) ∧
        x.done = s.done ∧ x.err = s.err ∧ x.errCode = s.errCode ∧ x.errInfo = s.errInfo)
      (R := fun x => ChangesFreq s x ∧ Ends s x) _ _ _ ?_ ?_ ?_ ?_
    · rintro i x y - ⟨h1, h2, h3⟩ h
      obtain ⟨s₂, b, f, d, -, e⟩ := histByte_cases i x
      rw [e] at h
      split_ifs at h
      injection h with h
      subst h
      have d2 := d.2
      rw [d.1]
      refine ⟨⟨?_, fun hs => d2 (h1.undef hs), .inr h2⟩, h2, h3⟩
      rw [h1.state]; rfl
    · rintro i x y - ⟨h1, h2, h3, h4, h5, h6⟩ h
      obtain ⟨s₂, b, f, d, -, e⟩ := histByte_cases i x
      rw [e] at h
      split_ifs at h
      injection h with h
      subst h
      have d2 := d.2
      rw [d.1]
      refine ⟨⟨?_, fun hs => d2 (h1.undef hs), .inr h2⟩, rfl, .inr ⟨h3, rfl, nofun⟩⟩
      rw [h1.state]; rfl
    · exact ⟨⟨rfl, id, .inr ⟨rfl, rfl⟩⟩, ⟨rfl, rfl⟩, rfl, rfl, rfl, rfl⟩
    · rintro y ⟨h1, -, -, h3⟩
      exact ⟨h1.complete, rfl, .inl ⟨rfl, h3⟩⟩

theorem execFclr_changes {s t : State} (h : execFclr s = .next t) : ChangesFreq s t ∧ Ends s t := by
  unfold execFclr at h
  injection h with h
  subst h
  exact ⟨⟨rfl, id, .inr ⟨rfl, rfl⟩⟩, rfl, .inl ⟨rfl, rfl, rfl, rfl⟩⟩

theorem execHdrld_changes {s t : State} (h : execHdrld s = .next t) : ChangesFreq s t ∧ Ends s t := by
  unfold execHdrld at h
  injection h with h
  split_ifs at h
  · subst h
    exact ⟨⟨rfl, id, .inl ⟨rfl, rfl, rfl, rfl, rfl⟩⟩, rfl, .inr ⟨rfl, rfl, nofun⟩⟩
  · subst h
    exact ⟨⟨rfl, id, .inl ⟨rfl, rfl, rfl, rfl, rfl⟩⟩, rfl, .inr ⟨rfl, rfl, nofun⟩⟩
  · subst h
    have d := State.readBytes_hasRead Config.headerBytes s.lSrc.toNat s
    unfold loadHeader
    generalize State.readBytes Config.headerBytes s.lSrc.toNat s = x at d ⊢
    obtain ⟨bs, s₁⟩ := x
    replace d : HasRead s s₁ := d
    have d2 := d.2
    dsimp only
    generalize overlay 0 (countsOf Config.symbols (bs.drop 8)) s₁.freq = v
    generalize BitVec.ofNat 64 (leValue (bs.take 8)) = w
    rw [d.1]
    exact ⟨⟨rfl, d2, .inr ⟨rfl, rfl⟩⟩, rfl, .inl ⟨rfl, rfl, rfl, rfl⟩⟩

/-- The same for what BUILD writes. -/
theorem execBuild_changes {s t : State} (h : execBuild s = .next t) :
    (t = { s with
      arena := t.arena, codeV := t.codeV, code := t.code, nsym := t.nsym, root := t.root, maxLen := t.maxLen,
      fsum := t.fsum, treeValid := true, uvalid := false, busy := false, done := true,
      undefRead := t.undefRead } ∧ (s.undefRead = true → t.undefRead = true)) ∧ Ends s t := by
  rw [execBuild_eq] at h
  injection h with h
  have d := s.readAllFreq_hasRead
  generalize s.readAllFreq = x at h d
  obtain ⟨fs, s₁⟩ := x
  replace d : HasRead s s₁ := d
  have b := buildFrom_state fs s₁
  dsimp only at h
  generalize buildFrom fs s₁ = u at b h
  subst h
  have d2 := d.2
  rw [d.1] at b
  rw [b]
  exact ⟨⟨rfl, d2⟩, rfl, .inl ⟨rfl, rfl, rfl, rfl⟩⟩

/-- The same for what PINIT and PACK write: the accumulator, RIN, ROUT and bytes of the output area. -/
structure ChangesPack (s t : State) : Prop where
  state : t = { s with
    mem := t.mem, pbuf := t.pbuf, pcnt := t.pcnt, rin := t.rin, rout := t.rout, busy := t.busy, done := t.done,
    err := t.err, errCode := t.errCode, errInfo := t.errInfo, undefRead := t.undefRead }
  undef : s.undefRead = true → t.undefRead = true

theorem appendBits_frame (bits : List Bool) (x : Packing) :
    (appendBits x bits).1 = { x.1 with
      mem := (appendBits x bits).1.mem, pbuf := (appendBits x bits).1.pbuf, pcnt := (appendBits x bits).1.pcnt,
      rout := (appendBits x bits).1.rout } := by
  induction bits generalizing x with
  | nil => rfl
  | cons b bits ih =>
    have h := ih (appendBit x b)
    have h1 : (appendBit x b).1 = { x.1 with
        mem := (appendBit x b).1.mem, pbuf := (appendBit x b).1.pbuf, pcnt := (appendBit x b).1.pcnt,
        rout := (appendBit x b).1.rout } := by
      unfold appendBit
      split_ifs <;> rfl
    rw [h1] at h
    exact h

/-- What PACK has changed at a pass of its loop. -/
structure PackingChanges (s t : State) : Prop where
  changes : ChangesPack s t
  same : t.done = s.done ∧ t.err = s.err ∧ t.errCode = s.errCode ∧ t.errInfo = s.errInfo

theorem PackingChanges.hasRead {s t u : State} (h : PackingChanges s t) (d : HasRead t u) : PackingChanges s u := by
  have d2 := d.2
  have c := h.changes.state
  rw [d.1]
  exact ⟨⟨by rw [c], fun hs => d2 (h.changes.undef hs)⟩, h.same⟩

theorem PackingChanges.raise {s t : State} (h : PackingChanges s t) (i : Word) {e : ErrCode} (he : e ≠ .noError) :
    ChangesPack s (t.raise e i) ∧ Ends s (t.raise e i) := by
  have c := h.changes.state
  exact ⟨⟨by rw [c]; rfl, h.changes.undef⟩, rfl, .inr ⟨h.same.1, rfl, he⟩⟩

theorem packSymbol_changes {s : State} {x : Packing} {i : Nat} (h : PackingChanges s x.1) :
    match packSymbol i x with
    | .going y => PackingChanges s y.1
    | .ended u => ChangesPack s u ∧ Ends s u := by
  have d := State.readByte_hasRead x.1 (x.1.lSrc.toNat + i)
  unfold packSymbol
  generalize x.1.readByte (x.1.lSrc.toNat + i) = r at d ⊢
  obtain ⟨b, v⟩ := r
  replace d : HasRead x.1 v := d
  have hv := h.hasRead d
  dsimp only
  split_ifs
  · exact hv.raise _ nofun
  · exact hv.raise _ nofun
  · have fr := appendBits_frame (atSym v.code b) (v, x.2)
    generalize appendBits (v, x.2) (atSym v.code b) = y at fr ⊢
    obtain ⟨y, k⟩ := y
    dsimp only at fr ⊢
    have c := hv.changes.state
    rw [fr]
    exact ⟨⟨by rw [c], hv.changes.undef⟩, hv.same⟩

theorem flush_changes {s : State} {x : Packing} (h : PackingChanges s x.1) (f : Bool) :
    ChangesPack s (flushAndComplete f x) ∧ Ends s (flushAndComplete f x) := by
  have c := h.changes.state
  unfold flushAndComplete
  split_ifs
  · exact h.raise _ nofun
  · exact ⟨⟨by unfold putByte; rw [c]; rfl, h.changes.undef⟩, rfl, .inl ⟨rfl, h.same.2⟩⟩
  · exact ⟨⟨by rw [c]; rfl, h.changes.undef⟩, rfl, .inl ⟨rfl, h.same.2⟩⟩

/-- PACK: what it may change, and how it ends. -/
theorem execPack_changes {f : Bool} {s t : State} (h : execPack f s = .next t) : ChangesPack s t ∧ Ends s t := by
  have start : PackingChanges s s := ⟨⟨rfl, id⟩, rfl, rfl, rfl, rfl⟩
  rcases execPack_cases f s with ⟨e, i, h1, h2⟩ | ⟨h1, -⟩
  · rw [h1] at h; injection h with h; subst h
    exact start.raise i h2
  · rw [h1] at h; injection h with h; subst h
    refine andThen_induct (Q := fun _ x => PackingChanges s x.1) (R := fun u => ChangesPack s u ∧ Ends s u)
      _ _ _ ?_ ?_ start (fun _ hy => flush_changes hy f)
    · intro i x y _ hx e
      have := packSymbol_changes (i := i) hx
      rw [e] at this; exact this
    · intro i x u _ hx e
      have := packSymbol_changes (i := i) hx
      rw [e] at this; exact this

theorem execPinit_changes {s t : State} (h : execPinit s = .next t) : (ChangesPack s t ∧ Ends s t) ∧ t.mem = s.mem ∧ t.packOk := by
  unfold execPinit at h
  injection h with h
  subst h
  exact ⟨⟨⟨rfl, id⟩, rfl, .inl ⟨rfl, rfl, rfl, rfl⟩⟩, rfl, by constructor <;> simp⟩

/-- How far PACK has come at a pass of its loop, from a legal accumulator: only the output area has been stored to. -/
structure PackingOk (s : State) (x : Packing) : Prop where
  ok : x.1.packOk
  dst : x.1.lDst = s.lDst ∧ x.1.lDlen = s.lDlen
  out : x.2 ≤ s.lDlen.toNat
  mem : ∃ ys : List Byte, ys.length = x.2 ∧ x.1.mem = Memory.writeAll s.mem s.lDst.toNat ys

theorem PackingOk.symbol {s : State} {x y : Packing} {i : Nat} (h : PackingOk s x)
    (e : packSymbol i x = .going y) : PackingOk s y := by
  obtain ⟨u, b, d, ⟨-, h1⟩ | ⟨-, -, h1⟩ | ⟨-, hr, z, ys, A, h1⟩⟩ := packSymbol_cases i x h.ok
  · rw [h1] at e; exact absurd e nofun
  · rw [h1] at e; exact absurd e nofun
  · rw [h1] at e
    injection e with e
    subst e
    have hst := A.state
    have hout := A.out
    have hcount := A.count.1
    simp only at hst hout hcount
    obtain ⟨d1, d2⟩ := h.dst
    have e1 : u.mem = x.1.mem := by rw [d.1]
    have e2 : u.lDst = s.lDst := by rw [d.1]; exact d1
    have e3 : u.lDlen = s.lDlen := by rw [d.1]; exact d2
    have e4 : u.pcnt = x.1.pcnt := by rw [d.1]
    obtain ⟨zs, hz1, hz2⟩ := h.mem
    refine ⟨A.ok, ?_, ?_, zs ++ ys, ?_, ?_⟩
    · simp only; rw [hst]; exact ⟨e2, e3⟩
    · simp only; rw [d2] at hr; rw [e4] at hcount; omega
    · simp only; rw [List.length_append, hz1, hout]
    · simp only; rw [hst]; simp only; rw [e1, e2, hz2, Memory.writeAll_append, hz1]

theorem packSymbol_stores {s u : State} {x : Packing} {i : Nat} (h : PackingOk s x) (e : packSymbol i x = .ended u) :
    u.packOk ∧ ∃ ys : List Byte, ys.length ≤ s.lDlen.toNat ∧ u.mem = Memory.writeAll s.mem s.lDst.toNat ys := by
  obtain ⟨zs, hz1, hz2⟩ := h.mem
  have hz3 : zs.length ≤ s.lDlen.toNat := by rw [hz1]; exact h.out
  obtain ⟨v, b, d, ⟨-, h1⟩ | ⟨-, -, h1⟩ | ⟨-, hr, z, ys, A, h1⟩⟩ := packSymbol_cases i x h.ok
  · rw [h1] at e; injection e with e; subst e
    rw [d.1]
    exact ⟨h.ok, zs, hz3, hz2⟩
  · rw [h1] at e; injection e with e; subst e
    rw [d.1]
    exact ⟨h.ok, zs, hz3, hz2⟩
  · rw [h1] at e; exact absurd e nofun

theorem flush_stores {s : State} {x : Packing} (h : PackingOk s x) (f : Bool) :
    (flushAndComplete f x).packOk ∧
      ∃ ys : List Byte, ys.length ≤ s.lDlen.toNat ∧
        (flushAndComplete f x).mem = Memory.writeAll s.mem s.lDst.toNat ys := by
  obtain ⟨zs, hz1, hz2⟩ := h.mem
  have hz3 : zs.length ≤ s.lDlen.toNat := by rw [hz1]; exact h.out
  obtain ⟨e2, e3⟩ := h.dst
  unfold flushAndComplete
  split_ifs with h1 h2
  · exact ⟨h.ok, zs, hz3, hz2⟩
  · rw [e3] at h2
    refine ⟨?_, zs ++ [paddedByte x.1], by simp; omega, ?_⟩
    · constructor <;> simp [putByte]
    · simp only [putByte, State.complete_mem, State.writeByte, e2, hz2, Memory.writeAll_append, hz1]; rfl
  · exact ⟨h.ok, zs, hz3, hz2⟩

/-- PACK from a legal accumulator leaves a legal one and stores only in the output area. -/
theorem execPack_stores {f : Bool} {s t : State} (ok : s.packOk) (h : execPack f s = .next t) :
    t.packOk ∧
      ∃ ys : List Byte, ys.length ≤ s.lDlen.toNat ∧ t.mem = Memory.writeAll s.mem s.lDst.toNat ys ∧
        (ys = [] ∨ s.lDst.toNat + s.lDlen.toNat ≤ s.memBytes) := by
  rcases execPack_cases f s with ⟨e, i, h1, h2⟩ | ⟨h1, fit⟩
  · rw [h1] at h; injection h with h; subst h
    exact ⟨ok, [], by simp, rfl, .inl rfl⟩
  · rw [h1] at h; injection h with h; subst h
    have key : (packAll f s).packOk ∧
        ∃ ys : List Byte, ys.length ≤ s.lDlen.toNat ∧ (packAll f s).mem = Memory.writeAll s.mem s.lDst.toNat ys :=
      andThen_induct (Q := fun _ x => PackingOk s x)
        (R := fun u => u.packOk ∧
          ∃ ys : List Byte, ys.length ≤ s.lDlen.toNat ∧ u.mem = Memory.writeAll s.mem s.lDst.toNat ys)
        _ _ _ (fun _ _ _ _ hx e => hx.symbol e) (fun _ _ _ _ hx e => packSymbol_stores hx e)
        ⟨ok, ⟨rfl, rfl⟩, by simp, [], rfl, rfl⟩ (fun _ hy => flush_stores hy f)
    obtain ⟨k2, ys, k3, k4⟩ := key
    exact ⟨k2, ys, k3, k4, .inr fit.2.1⟩

/-- The same for what UINIT and UNPACK write. -/
structure ChangesUnpack (s t : State) : Prop where
  state : t = { s with
    mem := t.mem, uvalid := t.uvalid, needIn := t.needIn, outFull := t.outFull, urem := t.urem, ucur := t.ucur,
    ubuf := t.ubuf, ucnt := t.ucnt, rin := t.rin, rout := t.rout, busy := t.busy, done := t.done, err := t.err,
    errCode := t.errCode, errInfo := t.errInfo, undefRead := t.undefRead }
  undef : s.undefRead = true → t.undefRead = true

theorem execUinit_changes {s t : State} (h : execUinit s = .next t) :
    ChangesUnpack s t ∧ Ends s t ∧ t.mem = s.mem ∧
      ((t.uvalid = s.uvalid ∧ t.ucnt = s.ucnt ∧ t.ucur = s.ucur) ∨
       (t.uvalid = true ∧ s.treeValid = true ∧ t.ucnt = 0#4 ∧ t.ucur = s.root)) := by
  unfold execUinit at h
  injection h with h
  split_ifs at h with h1 h2
  · subst h; exact ⟨⟨rfl, id⟩, ⟨rfl, .inr ⟨rfl, rfl, nofun⟩⟩, rfl, .inl ⟨rfl, rfl, rfl⟩⟩
  · subst h; exact ⟨⟨rfl, id⟩, ⟨rfl, .inr ⟨rfl, rfl, nofun⟩⟩, rfl, .inl ⟨rfl, rfl, rfl⟩⟩
  · subst h
    have ht : s.hasTree = true := by simpa using h2
    exact ⟨⟨rfl, id⟩, ⟨rfl, .inl ⟨rfl, rfl, rfl, rfl⟩⟩, rfl, .inr ⟨rfl, ((s.hasTree_iff).1 ht).1, rfl, rfl⟩⟩

/-- UNPACK: what it may change, where it leaves the cursor, and that it stores only in the output area. -/
theorem execUnpack_changes {f : Bool} {s t : State} (h : execUnpack f s = .next t) :
    (ChangesUnpack s t ∧ Ends s t) ∧ (t.uvalid = s.uvalid ∨ t.uvalid = false) ∧
      (s.ucnt.toNat ≤ 8 → t.ucnt.toNat ≤ 8) ∧
      (t.ucur = s.ucur ∨ t.ucur = s.root ∨ (nodeOf s.arena t.ucur).isLeaf = false) ∧
      ∃ ys : List Byte, ys.length ≤ s.lDlen.toNat ∧ t.mem = Memory.writeAll s.mem s.lDst.toNat ys ∧
        (ys = [] ∨ s.lDst.toNat + s.lDlen.toNat ≤ s.memBytes) := by
  rcases execUnpack_cases f s with ⟨e, i, h1, h2⟩ | ⟨h1, fit, hu⟩
  · rw [h1] at h; injection h with h; subst h
    exact ⟨⟨⟨rfl, id⟩, rfl, .inr ⟨rfl, rfl, h2⟩⟩, .inl rfl, id, .inl rfl, [], by simp, rfl, .inl rfl⟩
  · rw [h1] at h; injection h with h; subst h
    have fin : ∀ x, Moved s x → ∀ n o, ∀ y, y = { x with st := { x.st with needIn := n, outFull := o } } →
        (ChangesUnpack s (finishUnpack f y) ∧ Ends s (finishUnpack f y)) ∧
        ((finishUnpack f y).uvalid = s.uvalid ∨ (finishUnpack f y).uvalid = false) ∧
        (s.ucnt.toNat ≤ 8 → (finishUnpack f y).ucnt.toNat ≤ 8) ∧ (finishUnpack f y).ucur = x.st.ucur ∧
        (finishUnpack f y).mem = x.st.mem := by
      rintro x m n o y rfl
      have c := m.state
      have c1 : x.st.done = s.done := by rw [c]
      have c2 : x.st.err = s.err ∧ x.st.errCode = s.errCode ∧ x.st.errInfo = s.errInfo := by rw [c]; simp
      have c3 : x.st.uvalid = s.uvalid := by rw [c]
      unfold finishUnpack
      split_ifs
      · exact ⟨⟨⟨by rw [c]; rfl, m.undef⟩, rfl, .inr ⟨c1, rfl, nofun⟩⟩, .inr rfl, m.ucnt, rfl, rfl⟩
      · exact ⟨⟨⟨by rw [c]; rfl, m.undef⟩, rfl, .inl ⟨rfl, c2⟩⟩, .inl c3, fun _ => by simp, rfl, rfl⟩
      · exact ⟨⟨⟨by rw [c]; rfl, m.undef⟩, rfl, .inl ⟨rfl, c2⟩⟩, .inl c3, m.ucnt, rfl, rfl⟩
    have fin' : ∀ x, Moved s x → ∀ n o, ∀ y, y = { x with st := { x.st with needIn := n, outFull := o } } →
        (ChangesUnpack s (finishUnpack f y) ∧ Ends s (finishUnpack f y)) ∧
        ((finishUnpack f y).uvalid = s.uvalid ∨ (finishUnpack f y).uvalid = false) ∧
        (s.ucnt.toNat ≤ 8 → (finishUnpack f y).ucnt.toNat ≤ 8) ∧
        ((finishUnpack f y).ucur = s.ucur ∨ (finishUnpack f y).ucur = s.root ∨
          (nodeOf s.arena (finishUnpack f y).ucur).isLeaf = false) ∧
        ∃ ys : List Byte, ys.length ≤ s.lDlen.toNat ∧ (finishUnpack f y).mem = Memory.writeAll s.mem s.lDst.toNat ys ∧
          (ys = [] ∨ s.lDst.toNat + s.lDlen.toNat ≤ s.memBytes) := by
      intro x m n o y hy
      obtain ⟨f1, f2, f3, f4, f5⟩ := fin x m n o y hy
      obtain ⟨ys, hy1, hy2⟩ := m.mem
      rw [f4, f5]
      exact ⟨f1, f2, f3, m.ucur, ys, by rw [hy1]; exact m.out, hy2, .inr fit.2.1⟩
    have L := unpackLoop_left s
    unfold unpackAll
    generalize unpackLoop (unpackBound s) _ = y at L
    cases L with
    | count _ m _ => exact fin' y m y.st.needIn y.st.outFull y rfl
    | full x m _ _ => exact fin' x m x.st.needIn true _ rfl
    | empty x l r w m _ _ _ _ _ => exact fin' x m true x.st.outFull _ rfl

/-- HDRST: what it may change, and where it stores. -/
theorem execHdrst_changes {s t : State} (h : execHdrst s = .next t) :
    (t = { s with
      mem := t.mem, rout := t.rout, busy := t.busy, done := t.done, err := t.err, errCode := t.errCode,
      errInfo := t.errInfo, undefRead := t.undefRead } ∧
      (s.undefRead = true → t.undefRead = true)) ∧ Ends s t ∧
    (t.mem = s.mem ∨ ∃ ys : List Byte, ys.length = 2056 ∧ t.mem = Memory.writeAll s.mem s.lDst.toNat ys ∧
      2056 ≤ s.lDlen.toNat ∧ s.lDst.toNat + s.lDlen.toNat ≤ s.memBytes) := by
  unfold execHdrst at h
  injection h with h
  split_ifs at h with h1 h2
  · subst h; exact ⟨⟨rfl, id⟩, ⟨rfl, .inr ⟨rfl, rfl, nofun⟩⟩, .inl rfl⟩
  · subst h; exact ⟨⟨rfl, id⟩, ⟨rfl, .inr ⟨rfl, rfl, nofun⟩⟩, .inl rfl⟩
  · subst h
    have fits : s.lDst.toNat + s.lDlen.toNat ≤ s.memBytes := by rw [s.outputBeyond_iff] at h1; omega
    have d := s.readAllFreq_hasRead
    have hl := s.length_readAllFreq
    unfold storeHeader
    generalize s.readAllFreq = x at d hl
    obtain ⟨fs, s₁⟩ := x
    replace d : HasRead s s₁ := d
    have d2 := d.2
    dsimp only at hl ⊢
    rw [d.1]
    refine ⟨⟨rfl, d2⟩, ⟨rfl, .inl ⟨rfl, rfl, rfl, rfl⟩⟩, .inr ⟨headerImage s.total fs, by simp [hl], rfl, ?_, fits⟩⟩
    unfold Config.headerBytes at h2
    omega

end Sys2Proof.Machine
end

