-- ==== Sys2Proof/Laws/Extent.lean ====
section
/-! SUPPORT. How far the commands reach into their areas, on every path: RIN within SLEN, ROUT within DLEN, and stores
only to the ROUT bytes from DST on (10_state.md R30, 20_memory.md R78). One lemma for each command that has an area. -/

namespace Sys2Proof.Machine

/-- The reach of a command that started in `s`, as the state `t` shows it. -/
structure Extent (s t : State) : Prop where
  rin : t.rin.toNat ≤ s.lSlen.toNat
  rout : t.rout.toNat ≤ s.lDlen.toNat
  mem : ∃ ys : List Byte, ys.length = t.rout.toNat ∧ t.mem = Memory.writeAll s.mem s.lDst.toNat ys

/-- A command that stores nothing and has loaded nothing. -/
theorem Extent.still {s t : State} (hi : s.rin = 0#32) (ho : s.rout = 0#32) (h1 : t.rin = s.rin) (h2 : t.rout = s.rout)
    (h3 : t.mem = s.mem) : Extent s t :=
  ⟨by rw [h1, hi]; simp, by rw [h2, ho]; simp, [], by rw [h2, ho]; rfl, h3⟩

/-- What the stored bytes leave alone. -/
theorem Extent.outside {s t : State} (h : Extent s t) {a : Nat}
    (ha : a < s.lDst.toNat ∨ s.lDst.toNat + t.rout.toNat ≤ a) : Memory.read t.mem a = Memory.read s.mem a := by
  obtain ⟨ys, h1, h2⟩ := h.mem
  rw [h2, Memory.read_writeAll, if_neg (by omega)]

theorem toNat_ofNat_le {n : Nat} {w : Word} (h : n ≤ w.toNat) : (BitVec.ofNat 32 n).toNat = n := by
  have := w.isLt
  rw [BitVec.toNat_ofNat]
  exact Nat.mod_eq_of_lt (by omega)

theorem execHist_extent {s t : State} (hi : s.rin = 0#32) (ho : s.rout = 0#32) (h : execHist s = .next t) :
    Extent s t := by
  have c := (execHist_changes h).1.state
  have h1 : t.rout = s.rout := by rw [c]
  have h2 : t.mem = s.mem := by rw [c]
  refine ⟨?_, by rw [h1, ho]; simp, [], by rw [h1, ho]; rfl, h2⟩
  unfold execHist at h
  injection h with h
  split_ifs at h
  · subst h; simp [hi]
  · subst h
    unfold histCount
    refine andThen_induct (Q := fun i x => i ≤ s.lSlen.toNat ∧ x.rin.toNat ≤ s.lSlen.toNat)
      (R := fun x => x.rin.toNat ≤ s.lSlen.toNat) _ _ _ ?_ ?_ ?_ ?_
    · rintro i x y hn ⟨-, -⟩ e
      obtain ⟨s₂, b, f, -, -, e'⟩ := histByte_cases i x
      rw [e'] at e
      split_ifs at e
      injection e with e
      subst e
      have : (BitVec.ofNat 32 (i + 1)).toNat = i + 1 := toNat_ofNat_le (w := s.lSlen) (by omega)
      simp only [this]
      omega
    · rintro i x y - ⟨-, h2⟩ e
      obtain ⟨s₂, b, f, d, -, e'⟩ := histByte_cases i x
      rw [e'] at e
      split_ifs at e
      injection e with e
      subst e
      rw [d.1]
      exact h2
    · exact ⟨by omega, by simp [hi]⟩
    · rintro y ⟨-, h2⟩
      exact h2

theorem execHdrst_extent {s t : State} (hi : s.rin = 0#32) (ho : s.rout = 0#32) (h : execHdrst s = .next t) :
    Extent s t := by
  have c := (execHdrst_changes h).1.1
  have h1 : t.rin = s.rin := by rw [c]
  unfold execHdrst at h
  injection h with h
  split_ifs at h with h2 h3
  · subst h; exact .still hi ho rfl rfl rfl
  · subst h; exact .still hi ho rfl rfl rfl
  · unfold Config.headerBytes at h3
    have d := s.readAllFreq_hasRead
    have hl := s.length_readAllFreq
    unfold storeHeader at h
    generalize s.readAllFreq = x at d hl h
    obtain ⟨fs, s₁⟩ := x
    replace d : HasRead s s₁ := d
    dsimp only at h hl
    have e1 : t.rout = 2056#32 := by rw [← h]; rfl
    have e2 : t.mem = Memory.writeAll s.mem s.lDst.toNat (headerImage s₁.total fs) := by
      rw [← h, d.1]; rfl
    refine ⟨by rw [h1, hi]; simp, by rw [e1]; simp only [BitVec.toNat_ofNat]; omega, _, ?_, e2⟩
    rw [e1, length_headerImage, hl]; rfl

theorem execHdrld_extent {s t : State} (hi : s.rin = 0#32) (ho : s.rout = 0#32) (h : execHdrld s = .next t) :
    Extent s t := by
  have c := (execHdrld_changes h).1.state
  have h1 : t.rout = s.rout := by rw [c]
  have h2 : t.mem = s.mem := by rw [c]
  refine ⟨?_, by rw [h1, ho]; simp, [], by rw [h1, ho]; rfl, h2⟩
  unfold execHdrld at h
  injection h with h
  split_ifs at h with h3 h4
  · subst h; simp [hi]
  · subst h; simp [hi]
  · unfold Config.headerBytes at h4
    unfold loadHeader at h
    generalize State.readBytes Config.headerBytes s.lSrc.toNat s = x at h
    obtain ⟨bs, s₁⟩ := x
    have e1 : t.rin = 2056#32 := by rw [← h]; rfl
    rw [e1]
    simp only [BitVec.toNat_ofNat]; omega

/-- How far PACK has come before symbol `i`. -/
structure PackingExtent (s : State) (i : Nat) (x : Packing) : Prop where
  ok : PackingOk s x
  index : i ≤ s.lSlen.toNat
  rin : x.1.rin.toNat ≤ s.lSlen.toNat
  rout : x.1.rout.toNat = x.2

theorem PackingExtent.extent {s : State} {i : Nat} {x : Packing} (h : PackingExtent s i x) : Extent s x.1 := by
  obtain ⟨ys, h1, h2⟩ := h.ok.mem
  exact ⟨h.rin, by rw [h.rout]; exact h.ok.out, ys, by rw [h.rout, h1], h2⟩

theorem execPack_extent {f : Bool} {s t : State} (ok : s.packOk) (hi : s.rin = 0#32) (ho : s.rout = 0#32)
    (h : execPack f s = .next t) : Extent s t := by
  rcases execPack_cases f s with ⟨e, i, h1, -⟩ | ⟨h1, -⟩
  · rw [h1] at h; injection h with h; subst h
    exact .still hi ho rfl rfl rfl
  · rw [h1] at h; injection h with h; subst h
    refine andThen_induct (Q := PackingExtent s) (R := Extent s) _ _ _ ?_ ?_ ?_ ?_
    · intro i x y hn hx e
      have hy := hx.ok.symbol e
      have hb := hy.out
      obtain ⟨u, b, d, ⟨-, h1⟩ | ⟨-, -, h1⟩ | ⟨-, hr, z, ys, A, h1⟩⟩ := packSymbol_cases i x hx.ok.ok
      · rw [h1] at e; exact absurd e nofun
      · rw [h1] at e; exact absurd e nofun
      · rw [h1] at e
        injection e with e
        have o := A.out
        have st := A.state
        have ro : z.1.rout = if ys = [] then u.rout else BitVec.ofNat 32 (x.2 + ys.length) := by rw [st]
        have hu : u.rout = x.1.rout := by rw [d.1]
        simp only at o
        subst e
        refine ⟨hy, by omega, ?_, ?_⟩
        · show (BitVec.ofNat 32 (i + 1)).toNat ≤ _
          rw [toNat_ofNat_le (w := s.lSlen) (by omega)]; omega
        · show z.1.rout.toNat = z.2
          rw [ro, o]
          split_ifs with e
          · rw [hu, hx.rout, e]; rfl
          · exact toNat_ofNat_le (w := s.lDlen) (by simp only at hb; omega)
    · intro i x u hn hx e
      have hx' := hx.extent
      obtain ⟨v, b, d, ⟨-, h1⟩ | ⟨-, -, h1⟩ | ⟨-, hr, z, ys, A, h1⟩⟩ := packSymbol_cases i x hx.ok.ok
      · rw [h1] at e; injection e with e; subst e
        rw [d.1]
        exact ⟨hx'.rin, hx'.rout, hx'.mem⟩
      · rw [h1] at e; injection e with e; subst e
        rw [d.1]
        exact ⟨hx'.rin, hx'.rout, hx'.mem⟩
      · rw [h1] at e; exact absurd e nofun
    · exact ⟨⟨ok, ⟨rfl, rfl⟩, by simp, [], rfl, rfl⟩, by omega, by rw [hi]; simp, by rw [ho]; rfl⟩
    · intro y hy
      have hy' := hy.extent
      obtain ⟨e2, e3⟩ := hy.ok.dst
      unfold flushAndComplete
      split_ifs with h1 h2
      · exact ⟨hy'.rin, hy'.rout, hy'.mem⟩
      · rw [e3] at h2
        obtain ⟨ys, h3, h4⟩ := hy.ok.mem
        have e : (putByte y (paddedByte y.1)).1.complete.rout.toNat = y.2 + 1 :=
          toNat_ofNat_le (w := s.lDlen) (by omega)
        refine ⟨hy'.rin, by rw [e]; omega, ys ++ [paddedByte y.1], by rw [e]; simp [h3], ?_⟩
        simp only [putByte, State.complete_mem, State.writeByte, e2, h4, Memory.writeAll_append, h3]; rfl
      · exact ⟨hy'.rin, hy'.rout, hy'.mem⟩

/-- What a pass of UNPACK's loop has reached, from the 0 that acceptance leaves in RIN and ROUT. -/
theorem Moved.extent {s : State} {x : Walk} (hi : s.rin = 0#32) (ho : s.rout = 0#32) (m : Moved s x) :
    Extent s x.st := by
  obtain ⟨ys, h1, h2⟩ := m.mem
  have h3 : x.st.rin.toNat = x.inp := by
    rw [m.rin]
    split_ifs with e
    · rw [hi, e]; rfl
    · exact toNat_ofNat_le m.inp
  have h4 : x.st.rout.toNat = x.out := by
    rw [m.rout]
    split_ifs with e
    · rw [ho, e]; rfl
    · exact toNat_ofNat_le m.out
  exact ⟨by rw [h3]; exact m.inp, by rw [h4]; exact m.out, ys, by rw [h1, h4], h2⟩

theorem execUnpack_extent {f : Bool} {s t : State} (hi : s.rin = 0#32) (ho : s.rout = 0#32)
    (h : execUnpack f s = .next t) : Extent s t := by
  rcases execUnpack_cases f s with ⟨e, i, h1, -⟩ | ⟨h1, -, -⟩
  · rw [h1] at h; injection h with h; subst h
    exact .still hi ho rfl rfl rfl
  · rw [h1] at h; injection h with h; subst h
    have fin : ∀ y : Walk, Extent s y.st → Extent s (finishUnpack f y) := by
      intro y m
      unfold finishUnpack
      split_ifs <;> exact ⟨m.rin, m.rout, m.mem⟩
    have L := unpackLoop_left s
    unfold unpackAll
    generalize unpackLoop (unpackBound s) _ = y at L
    cases L with
    | count _ m _ => exact fin y (m.extent hi ho)
    | full x m _ _ => exact fin _ ⟨(m.extent hi ho).rin, (m.extent hi ho).rout, (m.extent hi ho).mem⟩
    | empty x l r w m _ _ _ _ _ => exact fin _ ⟨(m.extent hi ho).rin, (m.extent hi ho).rout, (m.extent hi ho).mem⟩

end Sys2Proof.Machine
end

