-- ==== Sys2Proof/Laws/PerInstr.lean ====
section
/-! SUPPORT. Statements made of every constructor of `Instr`, one lemma each. -/

namespace Sys2Proof.Laws.EncodedWord

/-- The word of a command passes every check of 30_encoding.md R104, carries the command's opcode and F bit
(R101), and fits in bits [8:0]. -/
def Statement (i : Instr) : Prop :=
  wordWellFormed (encode i) = true ∧ wordOpc (encode i) = i.opcode ∧ wordF (encode i) = i.flag ∧
  (encode i).toNat < 512

theorem nop : Statement .nop := by unfold Statement; decide
theorem fclr : Statement .fclr := by unfold Statement; decide
theorem hist : Statement .hist := by unfold Statement; decide
theorem build : Statement .build := by unfold Statement; decide
theorem pack (f : Bool) : Statement (.pack f) := by unfold Statement; revert f; decide
theorem unpack (f : Bool) : Statement (.unpack f) := by unfold Statement; revert f; decide
theorem uinit : Statement .uinit := by unfold Statement; decide
theorem pinit : Statement .pinit := by unfold Statement; decide
theorem hdrst : Statement .hdrst := by unfold Statement; decide
theorem hdrld : Statement .hdrld := by unfold Statement; decide

end Sys2Proof.Laws.EncodedWord
end

