-- ==== Sys2Proof/Laws/Walk.lean ====
section
/-! SUPPORT. The walk over bits that UNPACK performs (42_bitcodec.md R172): how it splits, and what UNPACK's loop has
done of it at every pass over defined input. -/

namespace Sys2Proof.Machine

theorem rightBits_succ (b : Byte) (n : Nat) : rightBits b (n + 1) = b.getLsbD n :: rightBits b n := by
  unfold rightBits
  rw [List.range_succ_eq_map]
  simp only [List.map_cons, List.map_map]
  congr 1
  apply List.map_congr_left
  intro k _
  simp only [Function.comp]
  congr 1
  omega

/-! ### The walk as a function of bits -/

theorem descend_nil (arena : Vector Node 511) (h : Handle) : descend arena h [] = (h, []) := rfl

/-- More bits are taken from where the walk down has come. -/
theorem descend_append (arena : Vector Node 511) (h : Handle) (bits more : List Bool) :
    descend arena h (bits ++ more) = descend arena (descend arena h bits).1 ((descend arena h bits).2 ++ more) := by
  induction bits generalizing h with
  | nil => rw [descend_nil]
  | cons b bs ih =>
    rw [List.cons_append, descend, descend]
    cases hn : nodeOf arena h with
    | leaf s w => simp only; rw [List.cons_append, descend, hn]
    | internal l r w => simp only; exact ih _

/-- The walk down ends at an internal node only when the bits have run out. -/
theorem descend_internal {arena : Vector Node 511} {h g l r : Handle} {w : Weight} {bits rest : List Bool}
    (e : descend arena h bits = (g, rest)) (hn : nodeOf arena g = .internal l r w) : rest = [] := by
  induction bits generalizing h with
  | nil =>
    rw [descend_nil] at e
    injection e with _ e
    exact e.symm
  | cons b bs ih =>
    rw [descend] at e
    cases hh : nodeOf arena h with
    | leaf s w =>
      rw [hh] at e
      injection e with e1 e2
      subst e1
      rw [hh] at hn
      exact absurd hn nofun
    | internal l r w => rw [hh] at e; exact ih e

theorem descend_length (arena : Vector Node 511) (h : Handle) (bits : List Bool) :
    (descend arena h bits).2.length ≤ bits.length := by
  induction bits generalizing h with
  | nil => rw [descend_nil]
  | cons b bs ih =>
    rw [descend]
    cases nodeOf arena h with
    | leaf => simp
    | internal l r w => exact le_trans (ih _) (by simp)

/-- Symbols put in front of what a walk answers. -/
def afterSyms (done : List Symbol) (r : List Symbol × Handle × List Bool) : List Symbol × Handle × List Bool :=
  (done ++ r.1, r.2)

theorem afterSyms_nil (r : List Symbol × Handle × List Bool) : afterSyms [] r = r := rfl

theorem afterSyms_afterSyms (a b : List Symbol) (r : List Symbol × Handle × List Bool) :
    afterSyms a (afterSyms b r) = afterSyms (a ++ b) r := by simp [afterSyms]

/-- A walk that stands at a leaf emits its symbol and goes on from the root. -/
theorem walk_leaf {arena : Vector Node 511} {root h : Handle} {sym : Symbol} {w : Weight}
    (hn : nodeOf arena h = .leaf sym w) (n : Nat) (bits : List Bool) :
    walk arena root (n + 1) h bits = afterSyms [sym] (walk arena root n root bits) := by
  have e : descend arena h bits = (h, bits) := by
    cases bits with
    | nil => rfl
    | cons a b => rw [descend, hn]
  rw [walk, e]
  simp only [hn]
  rfl

/-- A walk that stands at an internal node takes the next bit's edge. -/
theorem walk_step {arena : Vector Node 511} {root h l r : Handle} {w : Weight} (hn : nodeOf arena h = .internal l r w)
    (n : Nat) (x : Bool) (bits : List Bool) :
    walk arena root (n + 1) h (x :: bits) = walk arena root (n + 1) (if x then r else l) bits := by
  conv_lhs => rw [walk]
  conv_rhs => rw [walk]
  rw [descend, hn]

/-- Without a bit left, a walk that stands at an internal node has ended. -/
theorem walk_empty {arena : Vector Node 511} {root h : Handle} (hn : (nodeOf arena h).isLeaf = false) (n : Nat) :
    walk arena root n h [] = ([], h, []) := by
  cases n with
  | zero => rfl
  | succ n =>
    rw [walk, descend_nil]
    cases e : nodeOf arena h with
    | leaf _ _ => rw [e] at hn; exact absurd hn nofun
    | internal _ _ _ => simp only [e]

/-- A walk over `bits ++ more` is the walk over `bits`, and from there, for at least one symbol if it has ended for want
of bits, the walk over the bits it left and `more`; it answers at most as many symbols as are asked for. -/
theorem walk_append {arena : Vector Node 511} {root : Handle} (n : Nat) (h : Handle) (bits more : List Bool) (m : Nat)
    (hm : (walk arena root n h bits).1.length < n → m ≠ 0) :
    walk arena root ((walk arena root n h bits).1.length + m) h (bits ++ more) =
      afterSyms (walk arena root n h bits).1
        (walk arena root m (walk arena root n h bits).2.1 ((walk arena root n h bits).2.2 ++ more)) ∧
    (walk arena root n h bits).1.length ≤ n := by
  induction n generalizing h bits with
  | zero => simp [walk, afterSyms]
  | succ n ih =>
    have split := descend_append arena h bits more
    rw [walk] at hm ⊢
    rcases e : descend arena h bits with ⟨g, rest⟩
    rw [e] at hm split
    simp only at hm split ⊢
    cases hn : nodeOf arena g with
    | internal l r w =>
      rw [hn] at hm
      simp only at hm ⊢
      have hr := descend_internal e hn
      subst hr
      obtain ⟨m', rfl⟩ := Nat.exists_eq_succ_of_ne_zero (hm (by simp))
      refine ⟨?_, by simp⟩
      rw [afterSyms_nil, List.length_nil, Nat.zero_add, walk, split]
      conv_rhs => rw [walk]
    | leaf sym w =>
      rw [hn] at hm
      simp only at hm ⊢
      have i := ih root rest
      rcases e' : walk arena root n root rest with ⟨xs, k, un⟩
      rw [e'] at i hm
      simp only [List.length_cons] at i hm ⊢
      obtain ⟨i1, i2⟩ := i (fun hx => hm (by omega))
      refine ⟨?_, by omega⟩
      have stay : descend arena g (rest ++ more) = (g, rest ++ more) := by
        cases rest ++ more with
        | nil => exact descend_nil _ _
        | cons a b => rw [descend, hn]
      rw [show xs.length + 1 + m = (xs.length + m) + 1 by omega, walk, split, stay]
      simp only [hn, i1]
      rfl

/-- A walk from the root or an internal node ends at one of them. -/
theorem walk_cursor {arena : Vector Node 511} {root : Handle} (n : Nat) (h : Handle) (bits : List Bool)
    (c : h = root ∨ (nodeOf arena h).isLeaf = false) :
    (walk arena root n h bits).2.1 = root ∨ (nodeOf arena (walk arena root n h bits).2.1).isLeaf = false := by
  induction n generalizing h bits with
  | zero => exact c
  | succ n ih =>
    rw [walk]
    rcases e : descend arena h bits with ⟨g, rest⟩
    simp only
    cases hn : nodeOf arena g with
    | internal l r w => exact .inr (by simp [hn, Node.isLeaf])
    | leaf sym w => exact ih root rest (.inl rfl)

theorem walk_length {arena : Vector Node 511} {root : Handle} (n : Nat) (h : Handle) (bits : List Bool) :
    (walk arena root n h bits).2.2.length ≤ bits.length := by
  induction n generalizing h bits with
  | zero => simp [walk]
  | succ n ih =>
    rw [walk]
    have d := descend_length arena h bits
    rcases e : descend arena h bits with ⟨g, rest⟩
    rw [e] at d
    simp only at d ⊢
    cases hn : nodeOf arena g with
    | internal l r w => exact d
    | leaf sym w => exact le_trans (ih root rest) d

/-! ### UNPACK's loop over defined input -/

/-- The bits still to come: those pending in UBUF, then those of the payload bytes `bs` not loaded. -/
def Walk.bits (bs : List Byte) (x : Walk) : List Bool :=
  rightBits x.st.ubuf x.st.ucnt.toNat ++ (bs.drop x.inp).flatMap bitsOfByte

/-- How many symbols UNPACK, started in `s`, may still emit. -/
def Walk.room (s : State) (x : Walk) : Nat := min x.st.urem.toNat (s.lDlen.toNat - x.out)

/-- Between passes: the symbols `syms` are written, and what is left of the walk over the payload `bs` is a walk from
the cursor over the bits still to come. -/
structure Walked (s : State) (bs : List Byte) (x : Walk) (syms : List Symbol) : Prop where
  out : x.out = syms.length
  mem : x.st.mem = Memory.writeAll s.mem s.lDst.toNat syms
  cursor : x.st.ucur = s.root ∨ (nodeOf s.arena x.st.ucur).isLeaf = false
  rest : walk s.arena s.root (min s.urem.toNat s.lDlen.toNat) s.ucur
      (rightBits s.ubuf s.ucnt.toNat ++ bs.flatMap bitsOfByte) =
    afterSyms syms (walk s.arena s.root (x.room s) x.st.ucur (x.bits bs))
  used : (rightBits s.ubuf s.ucnt.toNat ++ bs.flatMap bitsOfByte).length + x.st.ucnt.toNat =
    (x.bits bs).length + s.ucnt.toNat + 8 * x.inp
  last : x.st.ubuf = (bs.take x.inp).getLastD s.ubuf
  quiet : x.st.undefRead = s.undefRead

/-- Every byte loaded has given a bit. -/
def Walk.begun (x : Walk) : Prop := x.inp = 0 ∨ x.st.ucnt.toNat ≤ 7

theorem Walked.start {s : State} {bs : List Byte} (h : s.ucur = s.root ∨ (nodeOf s.arena s.ucur).isLeaf = false) :
    Walked s bs { st := s, inp := 0, out := 0 } [] :=
  ⟨rfl, rfl, h, rfl, by simp [Walk.bits], rfl, rfl⟩

theorem Walk.room_succ {s : State} {x : Walk} (m : Moved s x) (hu : x.st.urem ≠ 0#64) (ho : x.out ≠ s.lDlen.toNat) :
    x.room s = min (x.st.urem - 1#64).toNat (s.lDlen.toNat - (x.out + 1)) + 1 := by
  have h0 := toNat_ne_zero hu
  have h1 := toNat_sub_one h0
  have := m.out
  unfold Walk.room
  omega

/-- The pass at a leaf. -/
theorem Walked.emit {s : State} {bs : List Byte} {x : Walk} {syms : List Symbol} (d : Walked s bs x syms)
    (m : Moved s x) (hu : x.st.urem ≠ 0#64) (ho : x.out ≠ s.lDlen.toNat) {sym : Symbol} {w : Weight}
    (hn : nodeOf s.arena x.st.ucur = .leaf sym w) : Walked s bs (emit sym x) (syms ++ [sym]) := by
  have ed : x.st.lDst = s.lDst := by rw [m.state]
  have root : x.st.ucur = s.root := d.cursor.resolve_right (by rw [hn]; exact nofun)
  have r := d.rest
  rw [Walk.room_succ m hu ho, walk_leaf hn, afterSyms_afterSyms] at r
  rw [emit_eq]
  refine ⟨by simp [d.out], ?_, .inl root, ?_, d.used, d.last, d.quiet⟩
  · simp only [d.mem, Memory.writeAll_append, ed, d.out]; rfl
  · rw [r, ← root]; rfl

/-- The pass that takes a bit. -/
theorem Walked.take {s : State} {bs : List Byte} {x : Walk} {syms : List Symbol} (d : Walked s bs x syms)
    (m : Moved s x) (hu : x.st.urem ≠ 0#64) (ho : x.out ≠ s.lDlen.toNat) (hc : x.st.ucnt ≠ 0#4)
    (hc8 : x.st.ucnt.toNat ≤ 8) {l r : Handle} {w : Weight} (hn : nodeOf s.arena x.st.ucur = .internal l r w) :
    (takeBit l r x).begun ∧ ∃ syms', Walked s bs (takeBit l r x) syms' := by
  have hc0 := toNat_ne_zero hc
  have hc1 := toNat_sub_one hc0
  have ea : x.st.arena = s.arena := by rw [m.state]
  have er : x.st.root = s.root := by rw [m.state]
  have ed : x.st.lDst = s.lDst := by rw [m.state]
  obtain ⟨n, hn1⟩ : ∃ n, x.st.ucnt.toNat = n + 1 := ⟨x.st.ucnt.toNat - 1, by omega⟩
  have hc2 : (x.st.ucnt - 1#4).toNat = n := by omega
  have rest := d.rest
  have used := d.used
  have hb : x.bits bs = x.st.ubuf.getLsbD n :: (rightBits x.st.ubuf n ++ (bs.drop x.inp).flatMap bitsOfByte) := by
    unfold Walk.bits
    rw [hn1, rightBits_succ]; rfl
  have child : x.nextChild l r = if x.st.ubuf.getLsbD n then r else l := by
    unfold Walk.nextChild
    rw [hn1]; rfl
  have step := walk_step (root := s.root) hn (min (x.st.urem - 1#64).toNat (s.lDlen.toNat - (x.out + 1)))
    (x.st.ubuf.getLsbD n) (rightBits x.st.ubuf n ++ (bs.drop x.inp).flatMap bitsOfByte)
  rw [← child, ← hb, ← Walk.room_succ m hu ho] at step
  rw [step] at rest
  rw [hb] at used
  cases hch : nodeOf x.st.arena (x.nextChild l r) with
  | internal l' r' w' =>
    rw [takeBit_internal hch]
    rw [ea] at hch
    refine ⟨.inr (by simp only; omega), syms, d.out, d.mem, .inr (by simp only; rw [hch]; rfl), ?_, ?_, d.last, d.quiet⟩
    · rw [rest]; simp only [Walk.bits, Walk.room, hc2]
    · simp only [Walk.bits, hc2]
      simp at used ⊢; omega
  | leaf sym w' =>
    rw [takeBit_leaf hch]
    rw [ea] at hch
    rw [Walk.room_succ m hu ho, walk_leaf hch, afterSyms_afterSyms] at rest
    refine ⟨.inr (by simp only; omega), syms ++ [sym], by simp [d.out], ?_, .inl er, ?_, ?_, d.last, d.quiet⟩
    · simp only [d.mem, Memory.writeAll_append, ed, d.out]; rfl
    · rw [rest]; simp only [Walk.bits, Walk.room, hc2, er]
    · simp only [Walk.bits, hc2]
      simp at used ⊢; omega

/-- Loading a defined payload byte. -/
theorem Walked.load {s : State} {bs : List Byte} {x : Walk} {syms : List Symbol} (d : Walked s bs x syms)
    (hb : x.inp < bs.length) (rd : Memory.read x.st.mem (x.st.lSrc.toNat + x.inp) = some bs[x.inp])
    (hc : x.st.ucnt = 0#4) : Walked s bs (loadByte x) syms := by
  obtain ⟨b, t, -, hread, e⟩ := loadByte_eq x
  obtain ⟨rfl, rfl⟩ := hread _ rd
  have hc0 : x.st.ucnt.toNat = 0 := by rw [hc]; rfl
  have eb : (loadByte x).bits bs = x.bits bs := by
    rw [e]
    unfold Walk.bits
    rw [hc0, List.drop_eq_getElem_cons hb]
    simp only [List.flatMap_cons]; rfl
  have used := d.used
  rw [← eb] at used
  refine ⟨by rw [e]; exact d.out, by rw [e]; exact d.mem, by rw [e]; exact d.cursor, ?_, ?_, ?_, by rw [e]; exact d.quiet⟩
  · rw [d.rest, eb, e]; rfl
  · rw [hc0] at used
    rw [e] at used ⊢
    simp only [BitVec.toNat_ofNat]; omega
  · rw [e]
    simp only
    rw [List.take_succ_eq_append_getElem hb, List.getLastD_eq_getLast?, List.getLast?_append]; simp

/-- What UNPACK's loop does over defined input: it ends in one of the three ways, with the walk done as far as the count,
the room and the bits allow. -/
theorem unpackLoop_walks {s : State} {bs : List Byte} (fit : s.areasFit) (hu : s.uvalid = true) (ok : s.cursorOk)
    (hl : bs.length = s.lSlen.toNat) (hm : AreaHolds s.mem s.lSrc.toNat bs) :
    ∃ (x y : Walk) (syms : List Symbol), unpackLoop (unpackBound s) { st := s, inp := 0, out := 0 } = y ∧
      Moved s x ∧ x.begun ∧ Walked s bs x syms ∧
      walk s.arena s.root (min s.urem.toNat s.lDlen.toNat) s.ucur
        (rightBits s.ubuf s.ucnt.toNat ++ bs.flatMap bitsOfByte) = (syms, x.st.ucur, x.bits bs) ∧
      ((y = x ∧ x.st.urem = 0#64) ∨
       (y = { x with st := { x.st with outFull := true } } ∧ x.st.urem ≠ 0#64 ∧ x.out = s.lDlen.toNat) ∨
       (y = { x with st := { x.st with needIn := true } } ∧ x.st.urem ≠ 0#64 ∧ x.out ≠ s.lDlen.toNat ∧
         x.bits bs = [])) := by
  have done : ∀ {x : Walk} {syms : List Symbol}, Walked s bs x syms →
      walk s.arena s.root (x.room s) x.st.ucur (x.bits bs) = ([], x.st.ucur, x.bits bs) →
      walk s.arena s.root (min s.urem.toNat s.lDlen.toNat) s.ucur
        (rightBits s.ubuf s.ucnt.toNat ++ bs.flatMap bitsOfByte) = (syms, x.st.ucur, x.bits bs) := by
    intro x syms d e
    rw [d.rest, e]
    simp [afterSyms]
  have rule := unpackLoop_rule (s := s) (fun x => x.begun ∧ ∃ syms, Walked s bs x syms)
    (fun y => ∃ (x : Walk) (syms : List Symbol), Moved s x ∧ x.begun ∧ Walked s bs x syms ∧
      walk s.arena s.root (min s.urem.toNat s.lDlen.toNat) s.ucur
        (rightBits s.ubuf s.ucnt.toNat ++ bs.flatMap bitsOfByte) = (syms, x.st.ucur, x.bits bs) ∧
      ((y = x ∧ x.st.urem = 0#64) ∨
       (y = { x with st := { x.st with outFull := true } } ∧ x.st.urem ≠ 0#64 ∧ x.out = s.lDlen.toNat) ∨
       (y = { x with st := { x.st with needIn := true } } ∧ x.st.urem ≠ 0#64 ∧ x.out ≠ s.lDlen.toNat ∧
         x.bits bs = []))) ?_ ?_ ⟨.inl rfl, [], Walked.start (ok.2 hu)⟩
  · obtain ⟨x, syms, h⟩ := rule
    exact ⟨x, _, syms, rfl, h⟩
  · rintro x y m ⟨beg, syms, d⟩ e
    have ea : x.st.arena = s.arena := by rw [m.state]
    have e1 : x.st.lSlen = s.lSlen := by rw [m.state]
    have e2 : x.st.lDlen = s.lDlen := by rw [m.state]
    have e3 : x.st.lSrc = s.lSrc := by rw [m.state]
    rcases unpackPass_cases x with ⟨-, h1⟩ | ⟨-, -, h1⟩ | ⟨hx, ho, ⟨sym, w, hn, h1⟩ | ⟨l, r, w, hn, ⟨-, -, h1⟩ | ⟨hc, hi, h1⟩ | ⟨hc, h1⟩⟩⟩
    · rw [h1] at e; exact absurd e nofun
    · rw [h1] at e; exact absurd e nofun
    · rw [h1] at e; injection e with e; subst e
      rw [ea] at hn
      rw [e2] at ho
      exact ⟨beg, _, d.emit m hx ho hn⟩
    · rw [h1] at e; exact absurd e nofun
    · rw [h1] at e; injection e with e; subst e
      have m' := m.load hi
      rw [e1] at hi
      rw [e2] at ho
      have hi' := m.inp
      have hib : x.inp < bs.length := by omega
      have rd : Memory.read x.st.mem (x.st.lSrc.toNat + x.inp) = some bs[x.inp] := by
        have h2 := m.out
        have h3 := d.out
        obtain ⟨f1, f2, f3⟩ := fit
        rw [d.mem, e3, Memory.read_writeAll, if_neg (by omega)]
        exact hm x.inp hib
      have d' := d.load hib rd hc
      obtain ⟨b, t, dr, -, el⟩ := loadByte_eq x
      have f1 : t.urem = x.st.urem := by rw [dr.1]
      have f2 : t.ucur = x.st.ucur := by rw [dr.1]
      rw [ea] at hn
      refine d'.take m' ?_ ?_ ?_ ?_ ?_ (l := l) (r := r) (w := w) <;> rw [el]
      · simpa [f1] using hx
      · exact ho
      · simp
      · simp
      · simpa [f2] using hn
    · rw [h1] at e; injection e with e; subst e
      rw [ea] at hn
      rw [e2] at ho
      exact d.take m hx ho hc (m.ucnt ok.1) hn
  · rintro x y m ⟨beg, syms, d⟩ e
    rcases unpackPass_cases x with ⟨h0, h1⟩ | ⟨h0, h2, h1⟩ | ⟨hx, ho, ⟨sym, w, hn, h1⟩ | ⟨l, r, w, hn, ⟨hc, hi, h1⟩ | ⟨-, -, h1⟩ | ⟨-, h1⟩⟩⟩
    · rw [h1] at e; injection e with e; subst e
      exact ⟨x, syms, m, beg, d, done d (by unfold Walk.room; rw [h0]; simp [walk]), .inl ⟨rfl, h0⟩⟩
    · have e2 : x.st.lDlen = s.lDlen := by rw [m.state]
      rw [e2] at h2
      rw [h1] at e; injection e with e; subst e
      exact ⟨x, syms, m, beg, d, done d (by unfold Walk.room; rw [h2]; simp [walk]), .inr (.inl ⟨rfl, h0, h2⟩)⟩
    · rw [h1] at e; exact absurd e nofun
    · have e1 : x.st.lSlen = s.lSlen := by rw [m.state]
      have e2 : x.st.lDlen = s.lDlen := by rw [m.state]
      have ea : x.st.arena = s.arena := by rw [m.state]
      rw [e1] at hi
      rw [e2] at ho
      rw [ea] at hn
      have eb : x.bits bs = [] := by
        unfold Walk.bits
        rw [hc, hi, ← hl]
        simp [rightBits]
      rw [h1] at e; injection e with e; subst e
      exact ⟨x, syms, m, beg, d, done d (by rw [eb]; exact walk_empty (by rw [hn]; rfl) _),
        .inr (.inr ⟨rfl, hx, ho, eb⟩)⟩
    · rw [h1] at e; exact absurd e nofun
    · rw [h1] at e; exact absurd e nofun

end Sys2Proof.Machine
end

