-- ==== Sys2Proof/Machine/HostProgram.lean ====
section
/-! DEFINITION. The host program notation of 30_encoding.md R109 and R110, as turns of the agents. -/

namespace Sys2Proof.Machine

/-- A line of a host program (30_encoding.md R109). -/
inductive HostLine where
  | wr (r : Reg) (v : Word)
  | rd (r : Reg)
  | wb (a : Nat) (bs : List Byte)
  | cmd (i : Instr)
  | wait
  deriving DecidableEq, Repr

/-- 32-bit write of a register. -/
def writeTurn (r : Reg) (v : Word) : Turn := .host (.write .word r.offset v)

/-- 32-bit read of a register. -/
def readTurn (r : Reg) : Turn := .host (.read .word r.offset)

/-- 8-bit writes of consecutive buffer bytes from `a`. -/
def byteTurns : Nat → List Byte → List Turn
  | _, [] => []
  | a, b :: bs => .host (.write .byte (Config.windowBase + a) (b.setWidth 32)) :: byteTurns (a + 1) bs

/-- The turns of a line. `WAIT` polls STATUS until BUSY = 0 (30_encoding.md R110): the Engine takes its turn if it has
not moved yet, after which no command runs, and the poll that ends the wait reads STATUS (log entries 22 and 25). -/
def HostLine.turns : HostLine → List Turn
  | .wr r v => [writeTurn r v]
  | .rd r => [readTurn r]
  | .wb a bs => byteTurns a bs
  | .cmd i => [writeTurn .cmd (encode i)]
  | .wait => [.engine, readTurn .status]

/-- `CLRERR` (30_encoding.md R110). -/
def clrErr : List HostLine := [.wr .status 0x00000004#32]

/-- `CLRDONE` (30_encoding.md R110). -/
def clrDone : List HostLine := [.wr .status 0x00000002#32]

/-- `SETIO s, sl, d, dl` (30_encoding.md R110). -/
def setIo (s sl d dl : Word) : List HostLine := [.wr .src s, .wr .slen sl, .wr .dst d, .wr .dlen dl]

/-- `SETTOTAL t` (30_encoding.md R110). -/
def setTotal (t : Count) : List HostLine := [.wr .totalLo t.low, .wr .totalHi t.high]

/-- `RUN <MNEMONIC>` (30_encoding.md R110). -/
def runCmd (i : Instr) : List HostLine := [.cmd i, .wait]

/-- The turns of a line, with the Engine moving before it where the flag says so. 44_control.md R216 lets the Engine
move at any time after acceptance: the spec leaves the moment open, and the flags settle it line by line (log entry 25).
An Engine turn with no command running changes nothing (log entry 11). -/
def scheduledTurns (l : Bool × HostLine) : List Turn := (if l.1 then [.engine] else []) ++ l.2.turns

/-- The schedule in which the Engine moves at a `WAIT` and at no other place: ONE of those R216 allows, the model's
choice (log entry 25). The lines between a CMD and its WAIT then meet BUSY = 1. -/
def movesAtWait (p : List HostLine) : List (Bool × HostLine) := p.map (fun l => (false, l))

/-- A state at the start of the run of a host program (44_control.md R219), its lines scheduled by the flags (log entry
25). The record of the bus's answers starts empty, so that it is the run's. -/
def State.withProgram (s : State) (p : List (Bool × HostLine)) : State :=
  { s with agenda := p.flatMap scheduledTurns, replies := [] }

end Sys2Proof.Machine
end

