-- ==== Sys2Proof/Tests/Slice0.lean ====
section
/-! SUPPORT. Small tests of the model against 95_test_vectors.md and the encodings of 30_encoding.md, and a witness for
the hypotheses of each obligation that has some. -/

namespace Sys2Proof.Tests

open Sys2Proof Sys2Proof.Machine

/-! ### States the tests use -/

/-- What is asked of the next state, if there is one. -/
def after {α : Type} (o : Host.Outcome State Fault Refusal) (f : State → α) : Option α :=
  match o with
  | .next t => some (f t)
  | .fault _ => none
  | .refused _ => none

/-- Hard reset, then a frequency table whose words are all written, then BUSY = 1 as for an accepted command. -/
def table (counts : List (Symbol × Count)) : State :=
  { State.reset with
    busy := true
    freq := counts.foldl (fun v e => setSym v e.1 e.2) (Vector.replicate 256 0#64)
    fdefLo := Vector.replicate 256 true
    fdefHi := Vector.replicate 256 true }

/-- The table of 95_test_vectors.md V-F2. -/
def abcTable : State := { table [(0x61#8, 3#64), (0x62#8, 2#64), (0x63#8, 1#64)] with total := 6#64 }

/-- A table whose words are all written is defined. -/
theorem table_defined {s : State} (hl : s.fdefLo = Vector.replicate 256 true)
    (hh : s.fdefHi = Vector.replicate 256 true) : s.allFreqDefined = true := by
  unfold State.allFreqDefined
  rw [hl, hh, Vector.toList_replicate]
  decide +kernel

/-- The aaabbc tree, written out from V-B1. -/
def abcTree : State :=
  { abcTable with
    arena := overlay 0 [.leaf 0x61#8 3#72, .leaf 0x62#8 2#72, .leaf 0x63#8 1#72, .internal 2#9 1#9 3#72,
      .internal 0#9 3#9 6#72] State.reset.arena
    codeV := setSym (setSym (setSym State.reset.codeV 0x61#8 true) 0x62#8 true) 0x63#8 true
    code := setSym (setSym (setSym State.reset.code 0x61#8 [false]) 0x62#8 [true, true]) 0x63#8 [true, false]
    nsym := 3#9
    root := 4#9
    maxLen := 2#9
    fsum := 6#72
    treeValid := true }

/-- The tree of V-B8 ("zzzz"). -/
def zTree : State :=
  { table [(0x7A#8, 4#64)] with
    total := 4#64
    arena := overlay 0 [.leaf 0x7A#8 4#72] State.reset.arena
    codeV := setSym State.reset.codeV 0x7A#8 true
    nsym := 1#9
    fsum := 4#72
    treeValid := true }

def aaabbc : List Byte := [0x61#8, 0x61#8, 0x61#8, 0x62#8, 0x62#8, 0x63#8]

/-- "aaabbc" at buffer offset 0 and the latches of V-P2. -/
def packing : State :=
  { abcTree with mem := Memory.writeAll [] 0 aaabbc, lSlen := 6#32, lDst := 0x908#32, lDlen := 16#32 }

/-- After V-U1, with the payload 1F 00 at 0x908 and the latches of V-U6. -/
def unpacking : State :=
  { abcTree with
    mem := Memory.writeAll [] 0x908 [0x1F#8, 0x00#8]
    urem := 6#64
    ucur := 4#9
    uvalid := true
    lSrc := 0x908#32
    lSlen := 2#32
    lDst := 0x1000#32
    lDlen := 16#32 }

/-! ### Well-formedness: an ill-formed word for each check -/

/-- 30_encoding.md R104: opcode 0x0A is the first reserved one. -/
theorem test_opcode_refused :
    opcodeAssigned 0x0000000A#32 = false ∧ decodeWord 0x0000000A#32 = .error .reservedOpcode := by decide

/-- R104: a bit of RSV is set. -/
theorem test_reserved_refused :
    reservedClear 0x00000200#32 = false ∧ decodeWord 0x00000200#32 = .error .reservedBits := by decide

/-- R104: F = 1 with FCLR. -/
theorem test_flag_refused :
    flagAllowed 0x00000101#32 = false ∧ decodeWord 0x00000101#32 = .error .flagNotAllowed := by decide

/-- 00_scope.md R7: a power of two too small, a size that is none, and the smallest allowed one. -/
theorem test_memSize_refused :
    memSizeAllowed 2048 = false ∧ memSizeAllowed 65537 = false ∧ memSizeAllowed 4096 = true := by decide

/-- V-N2: words that raise BADCMD. -/
theorem test_badcmd_words :
    wordWellFormed 0x000000FF#32 = false ∧ wordWellFormed 0x00000107#32 = false ∧
    wordWellFormed 0x80000004#32 = false := by decide

/-! ### Decoding: each row's word written out bit by bit from 30_encoding.md R101 and R102 -/

theorem test_decode_nop : decodeWord 0b00000000000000000000000000000000#32 = .ok .nop := by decide
theorem test_decode_fclr : decodeWord 0b00000000000000000000000000000001#32 = .ok .fclr := by decide
theorem test_decode_hist : decodeWord 0b00000000000000000000000000000010#32 = .ok .hist := by decide
theorem test_decode_build : decodeWord 0b00000000000000000000000000000011#32 = .ok .build := by decide
theorem test_decode_pack : decodeWord 0b00000000000000000000000000000100#32 = .ok (.pack false) := by decide
theorem test_decode_pack_f : decodeWord 0b00000000000000000000000100000100#32 = .ok (.pack true) := by decide
theorem test_decode_unpack : decodeWord 0b00000000000000000000000000000101#32 = .ok (.unpack false) := by decide
theorem test_decode_unpack_f : decodeWord 0b00000000000000000000000100000101#32 = .ok (.unpack true) := by decide
theorem test_decode_uinit : decodeWord 0b00000000000000000000000000000110#32 = .ok .uinit := by decide
theorem test_decode_pinit : decodeWord 0b00000000000000000000000000000111#32 = .ok .pinit := by decide
theorem test_decode_hdrst : decodeWord 0b00000000000000000000000000001000#32 = .ok .hdrst := by decide
theorem test_decode_hdrld : decodeWord 0b00000000000000000000000000001001#32 = .ok .hdrld := by decide

/-- The encoder writes the same words. -/
theorem test_encode :
    encode (.pack true) = 0b00000000000000000000000100000100#32 ∧
    encode .hdrld = 0b00000000000000000000000000001001#32 := by decide

theorem test_decodeTableWord :
    decodeTableWord 32 0x105 = some (.unpack true) ∧ decodeTableWord 32 0x106 = none := by decide

/-- The word is run by the very next step (log entry 9): UINIT at reset raises ZERO_COUNT, V-U2. -/
theorem test_step_runs_word :
    after (step (State.reset.withFetchWord 32 0x006)) (fun t => (t.cmdLast, t.err, t.errCode)) =
      some (0x00000006#32, true, .zeroCount) := by decide

/-! ### One step of each command, expected values from 95_test_vectors.md -/

/-- V-N1. -/
theorem test_nop : after (exec .nop { State.reset with busy := true, ieDone := true }) State.statusWord =
    some 0x00000202#32 := by decide

/-- V-F1. -/
theorem test_fclr :
    after (exec .fclr { table [(0x61#8, 3#64)] with total := 3#64, treeValid := true })
      (fun t => (atSym t.freq 0x61#8, t.total, t.statusWord)) = some (0#64, 0#64, 0x00000002#32) := by decide

/-- V-F2. -/
theorem test_hist :
    after (exec .hist { table [] with mem := Memory.writeAll [] 0 aaabbc, lSlen := 6#32 })
      (fun t => (atSym t.freq 0x61#8, atSym t.freq 0x62#8, atSym t.freq 0x63#8, t.total, t.rin, t.statusWord)) =
      some (3#64, 2#64, 1#64, 6#64, 6#32, 0x00000002#32) := by decide

/-- V-F6. -/
theorem test_hist_overflow :
    after (exec .hist { table [] with
        mem := Memory.writeAll [] 0 [0x61#8, 0x61#8], lSlen := 2#32, total := 0x7FFFFFFFFFFFFFFE#64 })
      (fun t => (atSym t.freq 0x61#8, t.total, t.errCode, t.errInfo, t.rin, t.statusWord)) =
      some (1#64, 0x7FFFFFFFFFFFFFFF#64, .overflow, 1#32, 1#32, 0x00000004#32) := by decide

/-- V-P1. -/
theorem test_pinit :
    after (exec .pinit { abcTree with pbuf := 0x01#8, pcnt := 3#4 }) (fun t => (t.regValue .pacc, t.statusWord)) =
      some (0#32, 0x00000022#32) := by decide

/-- V-P2. -/
theorem test_pack_f :
    after (exec (.pack true) packing)
      (fun t => (Memory.read t.mem 0x908, Memory.read t.mem 0x909, Memory.read t.mem 0x90A, t.rin, t.rout,
        t.regValue .pacc)) =
      some (some 0x1F#8, some 0x00#8, none, 6#32, 2#32, 0#32) := by decide

/-- V-P5. -/
theorem test_pack_dst_full :
    after (exec (.pack true) { packing with lDlen := 0#32 })
      (fun t => (t.errCode, t.errInfo, t.rin, t.rout, t.regValue .pacc, t.statusWord)) =
      some (.dstFull, 5#32, 5#32, 0#32, 0x0000070F#32, 0x00000024#32) := by decide

/-- V-U1. -/
theorem test_uinit :
    after (exec .uinit abcTree) (fun t => (t.urem, t.regValue .uacc, t.statusWord)) =
      some (6#64, 0x00040000#32, 0x00000062#32) := by decide

/-- V-U3. -/
theorem test_uinit_negative :
    after (exec .uinit { abcTree with total := 0x8000000000000000#64 }) (fun t => (t.errCode, t.errInfo)) =
      some (.zeroCount, 0#32) := by decide

/-- V-U6. -/
theorem test_unpack_f :
    after (exec (.unpack true) unpacking)
      (fun t => ((List.range 7).map (fun k => Memory.read t.mem (0x1000 + k)), t.rin, t.rout, t.urem,
        t.regValue .uacc, t.statusWord)) =
      some (aaabbc.map some ++ [none], 2#32, 6#32, 0#64, 0x00040000#32, 0x00000062#32) := by decide +kernel

/-- V-U7. -/
theorem test_unpack_truncated :
    after (exec (.unpack true) { unpacking with lSlen := 1#32 })
      (fun t => ((t.errCode, t.errInfo), t.rin, t.rout, t.urem, t.regValue .uacc, t.statusWord)) =
      some ((.truncated, 1#32), 1#32, 5#32, 1#64, 0x0003001F#32, 0x000000A4#32) := by decide +kernel

/-- V-H1: four bytes of the header, at their offsets from DST = 0x100. -/
theorem test_hdrst_bytes :
    (headerImage abcTable.total abcTable.freq.toList)[0]? = some 0x06#8 ∧
    (headerImage abcTable.total abcTable.freq.toList)[0x310]? = some 0x03#8 ∧
    (headerImage abcTable.total abcTable.freq.toList)[0x318]? = some 0x02#8 ∧
    (headerImage abcTable.total abcTable.freq.toList)[0x320]? = some 0x01#8 := by decide +kernel

/-- V-H4. -/
theorem test_hdrst_full :
    after (exec .hdrst { abcTree with lDst := 0x100#32, lDlen := 2055#32 }) (fun t => (t.errCode, t.errInfo, t.mem)) =
      some (.dstFull, 0#32, []) := by decide

/-- V-H3. -/
theorem test_hdrld_short :
    after (exec .hdrld { abcTree with lSrc := 0x100#32, lSlen := 2055#32 })
      (fun t => (t.errCode, t.errInfo, t.total)) = some (.shortHdr, 2055#32, 6#64) := by decide

/-- V-H6: the first count of such a header. -/
theorem test_hdrld_count :
    countsOf 1 [0#8, 0#8, 0#8, 0#8, 0#8, 0#8, 0#8, 0x80#8] = [0x8000000000000000#64] := by decide

/-! ### The bus -/

/-- V-N8. -/
theorem test_bus_little_endian :
    after (hostAccess (.read .word 0x100010) { State.reset with mem := Memory.writeAll [] 0x10 [1#8, 2#8, 3#8, 4#8] })
      State.replies = some [.value 0x04030201#32] := by decide

/-- V-N9. -/
theorem test_bus_errors :
    after (hostAccess (.read .half 0x00C) State.reset) State.replies = some [.busError] ∧
    after (hostAccess (.read .word 0x00E) State.reset) State.replies = some [.busError] ∧
    after (hostAccess (.write .half 0x100001 0#32) State.reset) State.replies = some [.busError] ∧
    after (hostAccess (.read .word 0x110000) State.reset) State.replies = some [.busError] := by decide

/-- V-N7: the dropped write to TOTAL_LO. -/
theorem test_bus_busy_write :
    after (hostAccess (.write .word 0x034 5#32) abcTable) (fun t => (t.wrOvr, t.total)) = some (true, 6#64) := by
  decide

/-- V-N11. -/
theorem test_bus_id :
    after (hostAccess (.read .word 0x000) State.reset) State.replies = some [.value 0x48554631#32] ∧
    after (hostAccess (.read .word 0x004) State.reset) State.replies = some [.value 0x00010000#32] := by
  decide

/-- V-B1: the readback of 'b' and of node h3. -/
theorem test_readback :
    { abcTree with codeSel := 0x62#8 }.regValue .codelenR = 0x00010002#32 ∧
    { abcTree with codeSel := 0x62#8 }.regValue (.codebits 0) = 0xC0000000#32 ∧
    { abcTree with nodeSel := 3#9 }.regValue .nodekids = 0x00010002#32 ∧
    { abcTree with nodeSel := 0#9 }.regValue .nodeinfo = 0x00006103#32 ∧
    { abcTree with nodeSel := 5#9 }.regValue .nodeinfo = 0#32 := by decide +kernel

/-- 20_memory.md R79: a byte that nothing has written reads the same twice. -/
theorem test_undefined_read_twice :
    ∃ r : Reply, ∀ given : List Reply,
      hostAccess (.read .byte 0x100000) { State.reset with replies := given } =
        .next { State.reset with replies := r :: given } := by
  refine ⟨State.reset.idleReply .byte 0x100000, fun given => ?_⟩
  have e := State.idleReply_record State.reset [] given .byte 0x100000
  simp only [hostAccess, State.busRead_idle (s := { State.reset with replies := given }) rfl]
  exact congrArg (fun r => Host.Outcome.next ({ State.reset with replies := given }.answer r)) e

/-- 44_control.md R219: a bus error the program expects is acceptable, one it does not expect is not. -/
theorem test_expected_bus_error :
    { State.reset with replies := [.done, .busError] }.acceptable [0] = true ∧
    { State.reset with replies := [.done, .busError] }.acceptable [1] = false := by decide

/-- 44_control.md R216: the two schedules of NOP and a read of STATUS, the Engine's move after and before the read. -/
theorem test_schedules :
    (State.reset.withProgram (movesAtWait [.cmd .nop, .rd .status, .wait])).agenda =
      [writeTurn .cmd 0#32, readTurn .status, .engine, readTurn .status] ∧
    (State.reset.withProgram [(false, .cmd .nop), (true, .rd .status), (false, .wait)]).agenda =
      [writeTurn .cmd 0#32, .engine, readTurn .status, .engine, readTurn .status] := by decide

/-- 30_encoding.md R109: a host program's CMD line is the 32-bit write of the command's word to offset 0x010. -/
theorem test_host_line : (HostLine.cmd (.pack true)).turns = [.host (.write .word 0x010 0x00000104#32)] := by decide

/-! ### Witnesses: a state and operands for the hypotheses of each obligation, at the edges of its clauses -/

/-- 30_encoding.md R104: a word of each of the three cases, and the last opcode that is none of them. -/
theorem witness_BadcmdExactlyOnReservedWords :
    (∃ s : State, s.busy = true ∧ s.agenda = [.engine] ∧ 0x0A ≤ s.cmdLast.toNat % 256) ∧
    (∃ s : State, s.busy = true ∧ s.agenda = [.engine] ∧ s.cmdLast.toNat / 512 ≠ 0) ∧
    (∃ s : State, s.busy = true ∧ s.agenda = [.engine] ∧
      s.cmdLast.getLsbD 8 = true ∧ s.cmdLast.toNat % 256 ≠ 0x04 ∧ s.cmdLast.toNat % 256 ≠ 0x05) ∧
    (∃ s : State, s.busy = true ∧ s.agenda = [.engine] ∧
      ¬(0x0A ≤ s.cmdLast.toNat % 256 ∨ s.cmdLast.toNat / 512 ≠ 0 ∨
        (s.cmdLast.getLsbD 8 = true ∧ s.cmdLast.toNat % 256 ≠ 0x04 ∧ s.cmdLast.toNat % 256 ≠ 0x05))) :=
  ⟨⟨{ State.reset with busy := true, agenda := [.engine], cmdLast := 0x0A#32 }, by decide⟩,
   ⟨{ State.reset with busy := true, agenda := [.engine], cmdLast := 0x200#32 }, by decide⟩,
   ⟨{ State.reset with busy := true, agenda := [.engine], cmdLast := 0x109#32 }, by decide⟩,
   ⟨{ State.reset with busy := true, agenda := [.engine], cmdLast := 0x009#32 }, by decide⟩⟩

theorem witness_StepRunsTheDecodedCommand :
    (∃ s : State, s.busy = true ∧ decodeWord s.cmdLast = .ok (.pack true) ∧ s.agenda = [.engine]) ∧
    (∃ s : State, s.busy = true ∧ decodeWord s.cmdLast = .ok .hdrld ∧ s.agenda = []) :=
  ⟨⟨{ State.reset with busy := true, cmdLast := 0x104#32, agenda := [.engine] }, by decide⟩,
   ⟨{ State.reset with busy := true, cmdLast := 0x009#32 }, by decide⟩⟩

theorem witness_IdleKeepsTheState :
    (State.reset.busy = false ∧ State.reset.agenda = []) ∧
    (∃ s : State, s.busy = false ∧ s.agenda = [.engine]) :=
  ⟨by decide, { State.reset with agenda := [.engine] }, by decide⟩

theorem witness_StepPerformsTheHostAccess : ∃ s : State, s.agenda = [.host (.read .word 0x000)] :=
  ⟨{ State.reset with agenda := [.host (.read .word 0x000)] }, rfl⟩

theorem witness_CmdWriteIsAcceptedOrDropped :
    (∃ s : State, s.busy = true) ∧ (∃ s : State, s.busy = false ∧ s.err = true) ∧
    (State.reset.busy = false ∧ State.reset.err = false) :=
  ⟨⟨{ State.reset with busy := true }, rfl⟩, ⟨{ State.reset with err := true }, rfl, rfl⟩, rfl, rfl⟩

/-- TOTAL at 0, at the most negative value, at 1 and at the greatest. -/
theorem witness_UinitStartsTheCursor :
    State.reset.total.toInt ≤ 0 ∧ { State.reset with total := 0x8000000000000000#64 }.total.toInt ≤ 0 ∧
    (∃ s : State, 0 < s.total.toInt ∧ s.treeValid = false) ∧
    (∃ s : State, 0 < s.total.toInt ∧ s.treeValid = true ∧ s.nsym = 0#9) ∧
    (∃ s : State, 0 < s.total.toInt ∧ s.treeValid = true ∧ s.nsym ≠ 0#9) :=
  ⟨by decide, by decide, ⟨{ State.reset with total := 1#64 }, by decide⟩,
   ⟨{ State.reset with total := 1#64, treeValid := true }, by decide⟩,
   ⟨{ State.reset with total := 0x7FFFFFFFFFFFFFFF#64, treeValid := true, nsym := 256#9 }, by decide⟩⟩

theorem witness_HistKeepsTheSumEqualToTotal :
    ∃ s t : State, s.allFreqDefined = true ∧ sumOf s.freq = s.total.toNat ∧ exec .hist s = .next t :=
  ⟨{ abcTable with lSlen := 0#32 }, _, table_defined rfl rfl, by decide +kernel, rfl⟩

/-- The hypotheses of the obligations about BUILD over a defined table. -/
theorem witness_Build :
    ∃ s t : State, s.allFreqDefined = true ∧ exec .build s = .next t ∧ atSym s.freq 0x61#8 ≠ 0#64 ∧
      distinct s.freq = 3 :=
  ⟨abcTable, _, table_defined rfl rfl, (exec_build abcTable).trans (execBuild_defined (table_defined rfl rfl)),
    by decide, by decide⟩

/-- BuildMergesInKeyOrder: the first and the last merge, and the first handle behind the tree. -/
theorem witness_BuildMergesInKeyOrder :
    (distinct abcTable.freq ≤ (3#9).toNat ∧ (3#9).toNat < 2 * distinct abcTable.freq - 1) ∧
    (distinct abcTable.freq ≤ (4#9).toNat ∧ (4#9).toNat < 2 * distinct abcTable.freq - 1) ∧
    2 * distinct abcTable.freq - 1 ≤ (5#9).toNat := by decide

/-- BuildMergesInKeyOrder: at the first merge of V-B1, of handles 2 and 1, handle 0 is in the collection too. -/
theorem witness_BuildMergesInKeyOrder_least :
    InCollection abcTree.arena 3#9 0#9 ∧ (0#9 : Handle) ≠ 2#9 ∧ (0#9 : Handle) ≠ 1#9 := by
  refine ⟨⟨by decide, fun k l r w hk e => ?_⟩, by decide, by decide⟩
  have h : k = 0#9 ∨ k = 1#9 ∨ k = 2#9 := by
    simp only [BitVec.toNat_ofNat, ← BitVec.toNat_inj] at *
    omega
  have leaf : ∀ g ∈ [0#9, 1#9, 2#9], (nodeOf abcTree.arena g).isLeaf = true := by decide +kernel
  have := leaf k (by simpa using h)
  rw [e] at this
  exact absurd this nofun

/-- BuildCodesLeadToTheirLeaves, BuildCodesArePrefixFree and BuildMaxlenIsTheGreatestLength: two symbols with codes. -/
theorem witness_BuildCodes :
    ∃ s t : State, s.allFreqDefined = true ∧ exec .build s = .next t ∧ (0x61#8 : Symbol) ≠ 0x62#8 ∧
      atSym t.codeV 0x61#8 = true ∧ atSym t.codeV 0x62#8 = true := by
  refine ⟨abcTable, _, table_defined rfl rfl, (exec_build abcTable).trans (execBuild_defined (table_defined rfl rfl)),
    by decide, ?_⟩
  decide +kernel

theorem witness_BuildOverAnUndefinedTableIsRecorded : State.reset.allFreqDefined = false := by decide

/-- The four checks, each at its edge: nothing to encode needs no tree; the areas may touch the end of memory. -/
theorem witness_PackChecksInOrder :
    (∃ s : State, 0 < s.lSlen.toNat ∧ s.treeValid = false) ∧
    (∃ s : State, 0 < s.lSlen.toNat ∧ s.treeValid = true ∧ s.nsym = 0#9) ∧
    (∃ s : State, ¬(0 < s.lSlen.toNat) ∧ s.memBytes < s.lSrc.toNat + s.lSlen.toNat) ∧
    (∃ s : State, ¬(0 < s.lSlen.toNat) ∧ ¬(s.memBytes < s.lSrc.toNat + s.lSlen.toNat) ∧
      s.memBytes < s.lDst.toNat + s.lDlen.toNat) ∧
    (∃ s : State, ¬(0 < s.lSlen.toNat ∧ (s.treeValid = false ∨ s.nsym = 0#9)) ∧
      ¬(s.memBytes < s.lSrc.toNat + s.lSlen.toNat) ∧ ¬(s.memBytes < s.lDst.toNat + s.lDlen.toNat) ∧
      0 < s.lSlen.toNat ∧ 0 < s.lDlen.toNat ∧ s.lSrc.toNat < s.lDst.toNat + s.lDlen.toNat ∧
      s.lDst.toNat < s.lSrc.toNat + s.lSlen.toNat) :=
  ⟨⟨{ State.reset with lSlen := 1#32 }, by decide⟩,
   ⟨{ State.reset with lSlen := 1#32, treeValid := true }, by decide⟩,
   ⟨{ State.reset with lSrc := 65537#32 }, by decide⟩,
   ⟨{ State.reset with lSrc := 65536#32, lDst := 65535#32, lDlen := 2#32 }, by decide⟩,
   ⟨{ State.reset with treeValid := true, nsym := 1#9, lSlen := 6#32, lDst := 5#32, lDlen := 4#32 }, by decide⟩⟩

/-- V-P2's operands, for F = 1 and F = 0, and V-P8's: four symbols with the empty code and no room. -/
theorem witness_PackWritesTheCodes :
    (∀ f : Bool, ∃ (s : State) (xs : List Symbol), s.areasFit ∧ (s.treeValid = true ∧ s.nsym ≠ 0#9) ∧
      xs.length = s.lSlen.toNat ∧ AreaHolds s.mem s.lSrc.toNat xs ∧ (∀ x ∈ xs, atSym s.codeV x = true) ∧ s.packOk ∧
      s.rin = 0#32 ∧ s.rout = 0#32 ∧
      (s.pcnt.toNat + (s.codesOf xs).length + (if f then 7 else 0)) / 8 ≤ s.lDlen.toNat) ∧
    (∃ (s : State) (xs : List Symbol), s.areasFit ∧ xs.length = 4 ∧ s.lDlen = 0#32 ∧
      xs.length = s.lSlen.toNat ∧ AreaHolds s.mem s.lSrc.toNat xs ∧ (∀ x ∈ xs, atSym s.codeV x = true) ∧ s.packOk ∧
      (s.pcnt.toNat + (s.codesOf xs).length + 7) / 8 ≤ s.lDlen.toNat) := by
  refine ⟨fun f => ⟨packing, aaabbc, ?_⟩, ⟨{ zTree with
    mem := Memory.writeAll [] 0 (List.replicate 4 0x7A#8), lSlen := 4#32 }, List.replicate 4 0x7A#8, ?_⟩⟩
  · unfold State.areasFit AreaHolds State.packOk
    revert f
    decide
  · unfold State.areasFit AreaHolds State.packOk
    decide

/-- V-P7: a symbol without a code behind none; V-P5: the sixth symbol does not fit. -/
theorem witness_PackStopsAtTheSymbol :
    (∃ (s : State) (xs : List Symbol) (y : Symbol), s.areasFit ∧ s.treeValid = true ∧ s.nsym ≠ 0#9 ∧
      xs.length < s.lSlen.toNat ∧ AreaHolds s.mem s.lSrc.toNat (xs ++ [y]) ∧ (∀ x ∈ xs, atSym s.codeV x = true) ∧
      s.packOk ∧ s.rin = 0#32 ∧ s.rout = 0#32 ∧ (s.pcnt.toNat + (s.codesOf xs).length) / 8 ≤ s.lDlen.toNat ∧
      atSym s.codeV y = false) ∧
    (∃ (s : State) (xs : List Symbol) (y : Symbol), s.areasFit ∧ s.treeValid = true ∧ s.nsym ≠ 0#9 ∧
      xs.length < s.lSlen.toNat ∧ AreaHolds s.mem s.lSrc.toNat (xs ++ [y]) ∧ (∀ x ∈ xs, atSym s.codeV x = true) ∧
      s.packOk ∧ s.rin = 0#32 ∧ s.rout = 0#32 ∧ (s.pcnt.toNat + (s.codesOf xs).length) / 8 ≤ s.lDlen.toNat ∧
      atSym s.codeV y = true ∧ s.lDlen.toNat < (s.pcnt.toNat + (s.codesOf (xs ++ [y])).length) / 8) := by
  refine ⟨⟨{ packing with mem := [(0x20, 0x64#8)], lSrc := 0x20#32, lSlen := 1#32, lDlen := 4#32 }, [], 0x64#8, ?_⟩,
    ⟨{ packing with lDlen := 0#32 }, [0x61#8, 0x61#8, 0x61#8, 0x62#8, 0x62#8], 0x63#8, ?_⟩⟩
  · unfold State.areasFit AreaHolds State.packOk
    decide
  · unfold State.areasFit AreaHolds State.packOk
    decide

/-- V-P6. -/
theorem witness_PackFlushNeedsRoom :
    ∃ (s : State) (xs : List Symbol), s.areasFit ∧ (s.treeValid = true ∧ s.nsym ≠ 0#9) ∧
      xs.length = s.lSlen.toNat ∧ AreaHolds s.mem s.lSrc.toNat xs ∧ (∀ x ∈ xs, atSym s.codeV x = true) ∧ s.packOk ∧
      s.rin = 0#32 ∧ s.rout = 0#32 ∧ (s.pcnt.toNat + (s.codesOf xs).length) / 8 = s.lDlen.toNat ∧
      (s.pcnt.toNat + (s.codesOf xs).length) % 8 ≠ 0 := by
  refine ⟨{ packing with lDlen := 1#32 }, aaabbc, ?_⟩
  unfold State.areasFit AreaHolds State.packOk
  decide

theorem witness_UnpackChecksInOrder :
    State.reset.uvalid = false ∧
    (∃ s : State, s.uvalid = true ∧ s.memBytes < s.lSrc.toNat + s.lSlen.toNat) ∧
    (∃ s : State, s.uvalid = true ∧ ¬(s.memBytes < s.lSrc.toNat + s.lSlen.toNat) ∧
      s.memBytes < s.lDst.toNat + s.lDlen.toNat) ∧
    (∃ s : State, s.uvalid = true ∧ ¬(s.memBytes < s.lSrc.toNat + s.lSlen.toNat) ∧
      ¬(s.memBytes < s.lDst.toNat + s.lDlen.toNat) ∧ 0 < s.lSlen.toNat ∧ 0 < s.lDlen.toNat ∧
      s.lSrc.toNat < s.lDst.toNat + s.lDlen.toNat ∧ s.lDst.toNat < s.lSrc.toNat + s.lSlen.toNat) :=
  ⟨rfl,
   ⟨{ State.reset with uvalid := true, lSrc := 65535#32, lSlen := 2#32 }, by decide⟩,
   ⟨{ State.reset with uvalid := true, lSrc := 65536#32, lDst := 65535#32, lDlen := 2#32 }, by decide⟩,
   ⟨{ State.reset with uvalid := true, lSrc := 0x908#32, lSlen := 2#32, lDst := 0x909#32, lDlen := 4#32 }, by decide⟩⟩

/-- The three symbols of the aaabbc tree have codes that lead to their leaves. -/
theorem abc_leads (s : State) (ha : s.arena = abcTree.arena) (hc : s.code = abcTree.code) (hr : s.root = abcTree.root) :
    ∀ x ∈ aaabbc, s.leadsToLeaf x := by
  intro x hx
  have h : x = 0x61#8 ∨ x = 0x62#8 ∨ x = 0x63#8 := by
    revert x
    decide
  unfold State.leadsToLeaf
  rw [ha, hc, hr]
  rcases h with rfl | rfl | rfl
  · exact ⟨0#9, 3#72, by decide +kernel⟩
  · exact ⟨1#9, 2#72, by decide +kernel⟩
  · exact ⟨2#9, 1#72, by decide +kernel⟩

/-- V-U6's operands. -/
theorem witness_UnpackRecoversTheSymbols :
    ∃ (s : State) (bs : List Byte) (xs : List Symbol) (pad : List Bool), s.uvalid = true ∧ s.areasFit ∧
      bs.length = s.lSlen.toNat ∧ AreaHolds s.mem s.lSrc.toNat bs ∧ s.ucnt.toNat ≤ 8 ∧ s.ucur = s.root ∧
      (∀ x ∈ xs, s.leadsToLeaf x) ∧
      rightBits s.ubuf s.ucnt.toNat ++ bs.flatMap bitsOfByte = s.codesOf xs ++ pad ∧
      s.urem.toNat = xs.length ∧ xs.length ≤ s.lDlen.toNat ∧
      s.needIn = false ∧ s.outFull = false ∧ s.rin = 0#32 ∧ s.rout = 0#32 := by
  refine ⟨unpacking, [0x1F#8, 0x00#8], aaabbc, List.replicate 7 false, rfl, ?_, rfl, ?_, by decide, rfl,
    abc_leads _ rfl rfl rfl, by decide, by decide, by decide, rfl, rfl, rfl, rfl⟩
  · unfold State.areasFit
    decide
  · unfold AreaHolds
    decide

/-- The first clause: V-U6's operands from the root, and UCUR in the middle of a code with one bit left (as V-U8 leaves
it). -/
theorem witness_UnpackWalks :
    (unpacking.uvalid = true ∧ unpacking.areasFit ∧ unpacking.cursorOk ∧ [0x1F#8, 0x00#8].length = unpacking.lSlen.toNat ∧
      AreaHolds unpacking.mem unpacking.lSrc.toNat [0x1F#8, 0x00#8] ∧ unpacking.needIn = false ∧
      unpacking.outFull = false ∧ unpacking.rin = 0#32 ∧ unpacking.rout = 0#32) ∧
    { unpacking with ucur := 3#9, ubuf := 0x1F#8, ucnt := 1#4 }.cursorOk := by
  unfold State.areasFit State.cursorOk AreaHolds
  decide +kernel

/-- The walk over V-U6's payload, and over V-U7's one byte, which ends at node h3. -/
theorem test_walk :
    walk abcTree.arena 4#9 6 4#9 ([0x1F#8, 0x00#8].flatMap bitsOfByte) = (aaabbc, 4#9, List.replicate 7 false) ∧
    walk abcTree.arena 4#9 6 4#9 (bitsOfByte 0x1F#8) = (aaabbc.take 5, 3#9, []) := by decide +kernel

/-- V-P2's operands, then V-U6's over what PACK.F left. -/
theorem witness_UnpackInvertsPack :
    ∃ (s : State) (xs : List Symbol), s.areasFit ∧ s.treeValid = true ∧ s.nsym ≠ 0#9 ∧ xs.length = s.lSlen.toNat ∧
      AreaHolds s.mem s.lSrc.toNat xs ∧ (∀ x ∈ xs, atSym s.codeV x = true ∧ s.leadsToLeaf x) ∧
      s.pbuf = 0#8 ∧ s.pcnt = 0#4 ∧ s.rin = 0#32 ∧ s.rout = 0#32 ∧
      ((s.codesOf xs).length + 7) / 8 ≤ s.lDlen.toNat ∧
      ∃ t, exec (.pack true) s = .next t ∧
        ∃ u : State, u.mem = t.mem ∧ u.arena = t.arena ∧ u.code = t.code ∧ u.root = t.root ∧
          u.lSrc = s.lDst ∧ u.lSlen = t.rout ∧ u.areasFit ∧ u.uvalid = true ∧ u.ucur = u.root ∧ u.ucnt = 0#4 ∧
          u.urem.toNat = xs.length ∧ xs.length ≤ u.lDlen.toNat ∧
          u.needIn = false ∧ u.outFull = false ∧ u.rin = 0#32 ∧ u.rout = 0#32 := by
  have fit : packing.areasFit := by
    unfold State.areasFit
    decide
  have e : exec (.pack true) packing = .next (packAll true packing) :=
    (exec_pack true packing).trans (execPack_passes fit (.inr (by decide)))
  have k := (execPack_changes ((exec_pack true packing).symm.trans e)).1.state
  refine ⟨packing, aaabbc, fit, rfl, by decide, rfl, ?_, fun x hx => ⟨?_, abc_leads _ rfl rfl rfl x hx⟩, rfl, rfl,
    rfl, rfl, by decide, _, e,
    { packing with
      mem := (packAll true packing).mem, lSrc := 0x908#32, lSlen := (packAll true packing).rout, lDst := 0x1000#32,
      uvalid := true, ucur := 4#9, urem := 6#64 },
    rfl, by rw [k], by rw [k], by rw [k], rfl, rfl, ?_, rfl, rfl, rfl, by decide, by decide, rfl, rfl, rfl, rfl⟩
  · unfold AreaHolds
    decide
  · revert x
    decide
  · unfold State.areasFit
    decide

/-- V-P3's operands: "aaa", then "bbc" from the accumulator it left, and "aaabbc" in one. -/
theorem witness_ChunkingDoesNotChangeResults_pack :
    ∃ (s t u v w z : State) (xs ys : List Symbol),
      (∀ q ∈ [s, u, w], q.rin = 0#32 ∧ q.rout = 0#32 ∧ q.done = false ∧ q.codeV = s.codeV ∧ q.code = s.code) ∧
      s.packOk ∧ xs.length = s.lSlen.toNat ∧ ys.length = u.lSlen.toNat ∧ (xs ++ ys).length = w.lSlen.toNat ∧
      AreaHolds s.mem s.lSrc.toNat xs ∧ AreaHolds u.mem u.lSrc.toNat ys ∧ AreaHolds w.mem w.lSrc.toNat (xs ++ ys) ∧
      u.pbuf = t.pbuf ∧ u.pcnt = t.pcnt ∧ w.pbuf = s.pbuf ∧ w.pcnt = s.pcnt ∧
      exec (.pack false) s = .next t ∧ exec (.pack true) u = .next v ∧ exec (.pack true) w = .next z ∧
      t.done = true ∧ v.done = true ∧ z.done = true := by
  have k : after (exec (.pack false) { packing with lSlen := 3#32 }) (fun t => (t.pbuf, t.pcnt, t.done)) =
      some (0#8, 3#4, true) := by decide
  have k1 : after (exec (.pack true) { packing with lSrc := 3#32, lSlen := 3#32, pcnt := 3#4 }) State.done =
      some true := by decide
  have k2 : after (exec (.pack true) packing) State.done = some true := by decide
  have next : ∀ f s, ∃ t, exec (.pack f) s = .next t := fun _ _ => ⟨_, rfl⟩
  obtain ⟨t, e⟩ := next false { packing with lSlen := 3#32 }
  obtain ⟨v, e1⟩ := next true { packing with lSrc := 3#32, lSlen := 3#32, pcnt := 3#4 }
  obtain ⟨z, e2⟩ := next true packing
  rw [e] at k
  rw [e1] at k1
  rw [e2] at k2
  simp only [after, Option.some.injEq, Prod.mk.injEq] at k k1 k2
  refine ⟨{ packing with lSlen := 3#32 }, t, { packing with lSrc := 3#32, lSlen := 3#32, pcnt := 3#4 }, v, packing, z,
    [0x61#8, 0x61#8, 0x61#8], [0x62#8, 0x62#8, 0x63#8], ?_, ?_, rfl, rfl, rfl, ?_, ?_, ?_, k.1.symm, k.2.1.symm, rfl,
    rfl, e, e1, e2, k.2.2, k1, k2⟩
  · simp [packing, abcTree, abcTable, table, State.reset]
  · unfold State.packOk
    decide
  · unfold AreaHolds
    decide
  · unfold AreaHolds
    decide
  · unfold AreaHolds
    decide

/-- V-U8's operands: the byte 1F, which ends at node h3, then the byte 00 from there, and both in one. -/
theorem witness_ChunkingDoesNotChangeResults_unpack :
    ∃ (s t u w : State) (bs more : List Byte),
      (∀ q ∈ [s, u, w], q.uvalid = true ∧ q.areasFit ∧ q.needIn = false ∧ q.outFull = false ∧ q.rin = 0#32 ∧
        q.rout = 0#32 ∧ q.done = false ∧ q.err = false ∧ q.errCode = .noError ∧ q.arena = s.arena ∧
        q.root = s.root) ∧
      s.cursorOk ∧ bs.length = s.lSlen.toNat ∧ AreaHolds s.mem s.lSrc.toNat bs ∧ exec (.unpack false) s = .next t ∧
      (bs.drop t.rin.toNat ++ more).length = u.lSlen.toNat ∧
      AreaHolds u.mem u.lSrc.toNat (bs.drop t.rin.toNat ++ more) ∧
      (u.urem = t.urem ∧ u.ucur = t.ucur ∧ u.ubuf = t.ubuf ∧ u.ucnt = t.ucnt) ∧
      (bs ++ more).length = w.lSlen.toNat ∧ AreaHolds w.mem w.lSrc.toNat (bs ++ more) ∧
      w.urem = s.urem ∧ w.ucur = s.ucur ∧ w.ubuf = s.ubuf ∧ w.ucnt = s.ucnt ∧
      w.lDlen.toNat = t.rout.toNat + u.lDlen.toNat ∧ t.needIn = true ∧ u.lDlen ≠ 0#32 := by
  have k : after (exec (.unpack false) { unpacking with lSlen := 1#32 })
      (fun t => (t.rin, t.rout, t.needIn)) = some (1#32, 5#32, true) := by decide +kernel
  have k' : after (exec (.unpack false) { unpacking with lSlen := 1#32 })
      (fun t => (t.urem, t.ucur, t.ubuf, t.ucnt)) = some (1#64, 3#9, 0x1F#8, 0#4) := by decide +kernel
  obtain ⟨t, e⟩ : ∃ t, exec (.unpack false) { unpacking with lSlen := 1#32 } = .next t := ⟨_, rfl⟩
  rw [e] at k k'
  simp only [after, Option.some.injEq, Prod.mk.injEq] at k k'
  obtain ⟨k1, k2, k3⟩ := k
  obtain ⟨k4, k5, k6, k7⟩ := k'
  refine ⟨{ unpacking with lSlen := 1#32 }, t,
    { unpacking with lSrc := 0x909#32, lSlen := 1#32, lDlen := 11#32, urem := 1#64, ucur := 3#9, ubuf := 0x1F#8 },
    unpacking, [0x1F#8], [0x00#8], ?_, ?_, rfl, ?_, e, ?_, ?_, ⟨k4.symm, k5.symm, k6.symm, k7.symm⟩, rfl, ?_, rfl, rfl,
    rfl, rfl, ?_, k3, ?_⟩
  · simp [unpacking, abcTree, abcTable, table, State.reset, State.areasFit, Config.defaultMemBytes]
  · unfold State.cursorOk
    decide
  · unfold AreaHolds
    decide
  · rw [k1]; rfl
  · rw [k1]
    unfold AreaHolds
    decide
  · unfold AreaHolds
    decide
  · rw [k2]; rfl
  · decide

/-- V-U12 and V-U13: more room than symbols, and less. -/
theorem witness_UnpackOfOneSymbolConsumesNothing :
    (∃ s : State, s.uvalid = true ∧ s.areasFit ∧ s.ucur = s.root ∧ nodeOf s.arena s.root = .leaf 0x7A#8 4#72 ∧
      s.needIn = false ∧ s.outFull = false ∧ s.rout = 0#32 ∧ s.urem.toNat < s.lDlen.toNat) ∧
    (∃ s : State, s.uvalid = true ∧ s.areasFit ∧ s.ucur = s.root ∧ nodeOf s.arena s.root = .leaf 0x7A#8 4#72 ∧
      s.needIn = false ∧ s.outFull = false ∧ s.rout = 0#32 ∧ s.lDlen.toNat < s.urem.toNat) := by
  refine ⟨⟨{ zTree with uvalid := true, urem := 4#64, lDst := 0x1000#32, lDlen := 16#32 }, ?_⟩,
    ⟨{ zTree with uvalid := true, urem := 4#64, lDst := 0x1000#32, lDlen := 3#32 }, ?_⟩⟩
  · unfold State.areasFit
    decide +kernel
  · unfold State.areasFit
    decide +kernel

theorem witness_UnpackCountsWhatItWrites :
    ∃ s t : State, s.rout = 0#32 ∧ exec (.unpack true) s = .next t := ⟨unpacking, _, rfl, rfl⟩

/-- V-U7, V-U8, V-U6 and V-U9: input out with F = 1 and F = 0, the count reached, the output full. -/
theorem witness_UnpackEndsAsItsFlagsSay :
    (∀ n : Word, { unpacking with lSlen := 1#32, lDlen := n }.uvalid = true) ∧
    unpacking.areasFit ∧ unpacking.needIn = false ∧ unpacking.outFull = false ∧ unpacking.rin = 0#32 ∧
    unpacking.rout = 0#32 ∧
    after (exec (.unpack true) { unpacking with lSlen := 1#32 }) State.needIn = some true ∧
    after (exec (.unpack false) { unpacking with lSlen := 1#32 }) State.needIn = some true ∧
    after (exec (.unpack true) unpacking) State.urem = some 0#64 ∧
    after (exec (.unpack true) { unpacking with lDlen := 4#32 }) State.outFull = some true := by
  refine ⟨fun _ => rfl, ?_, rfl, rfl, rfl, rfl, ?_⟩
  · unfold State.areasFit
    decide
  · decide +kernel

/-- V-U11. -/
theorem witness_UnpackWithoutRoomStopsAtOnce :
    ∃ s : State, s.uvalid = true ∧ s.areasFit ∧ s.lDlen = 0#32 ∧ s.urem ≠ 0#64 ∧ s.needIn = false := by
  refine ⟨{ unpacking with lDlen := 0#32 }, rfl, ?_, rfl, by decide, rfl⟩
  unfold State.areasFit
  decide

/-- V-H5, V-H4 and V-H3: an area one byte beyond memory, and one byte short of a header. -/
theorem witness_HeaderChecksInOrder :
    (∃ s : State, s.memBytes < s.lDst.toNat + s.lDlen.toNat ∧ 2056 ≤ s.lDlen.toNat) ∧
    (∃ s : State, s.lDst.toNat + s.lDlen.toNat ≤ s.memBytes ∧ s.lDlen.toNat < 2056) ∧
    (∃ s : State, s.memBytes < s.lSrc.toNat + s.lSlen.toNat ∧ 2056 ≤ s.lSlen.toNat) ∧
    (∃ s : State, s.lSrc.toNat + s.lSlen.toNat ≤ s.memBytes ∧ s.lSlen.toNat < 2056) :=
  ⟨⟨{ State.reset with lDst := 63481#32, lDlen := 2056#32 }, by decide⟩,
   ⟨{ State.reset with lDst := 63481#32, lDlen := 2055#32 }, by decide⟩,
   ⟨{ State.reset with lSrc := 63481#32, lSlen := 2056#32 }, by decide⟩,
   ⟨{ State.reset with lSrc := 63481#32, lSlen := 2055#32 }, by decide⟩⟩

/-- A header that just fits at the top of memory. -/
theorem witness_HdrstWritesTheHeader :
    ∃ s : State, s.lDst.toNat + s.lDlen.toNat ≤ s.memBytes ∧ 2056 ≤ s.lDlen.toNat ∧ s.allFreqDefined = true :=
  ⟨{ abcTable with lDst := 63480#32, lDlen := 2056#32 }, by decide, by decide, table_defined rfl rfl⟩

/-- A header of 2056 zero bytes: TOTAL and every count 0. -/
theorem witness_HdrldLoadsTheHeader :
    ∃ (s : State) (total : Count) (freq : Vector Count 256), s.lSrc.toNat + s.lSlen.toNat ≤ s.memBytes ∧
      2056 ≤ s.lSlen.toNat ∧ (∀ k, k < 8 → Memory.read s.mem (s.lSrc.toNat + k) = some (byteOf total k)) ∧
      (∀ (b : Symbol) (k : Nat), k < 8 →
        Memory.read s.mem (s.lSrc.toNat + 8 + 8 * b.toNat + k) = some (byteOf (atSym freq b) k)) := by
  refine ⟨{ State.reset with mem := Memory.writeAll [] 0 (List.replicate 2056 0#8), lSlen := 2056#32 }, 0#64,
    Vector.replicate 256 0#64, by decide, by decide, fun k hk => ?_, fun b k hk => ?_⟩
  · rw [Memory.read_writeAll, List.length_replicate, if_pos (by simp [State.reset]; omega), List.getElem?_replicate,
      if_pos (by simp [State.reset]; omega)]
    simp [byteOf]
  · have := b.isLt
    rw [Memory.read_writeAll, List.length_replicate, if_pos (by simp [State.reset]; omega), List.getElem?_replicate,
      if_pos (by simp [State.reset]; omega)]
    simp [byteOf]

theorem witness_HdrldInvertsHdrst :
    ∃ s t u : State, s.lDst.toNat + s.lDlen.toNat ≤ s.memBytes ∧ 2056 ≤ s.lDlen.toNat ∧ s.allFreqDefined = true ∧
      exec .hdrst s = .next t ∧ u.mem = t.mem ∧ u.memBytes = s.memBytes ∧ u.lSrc = s.lDst ∧ u.lSlen = s.lDlen := by
  have key : ∀ s : State, s.outputBeyond = false → ¬ s.lDlen.toNat < Config.headerBytes → s.allFreqDefined = true →
      ∃ t u : State, s.lDst.toNat + s.lDlen.toNat ≤ s.memBytes ∧ 2056 ≤ s.lDlen.toNat ∧ s.allFreqDefined = true ∧
        exec .hdrst s = .next t ∧ u.mem = t.mem ∧ u.memBytes = s.memBytes ∧ u.lSrc = s.lDst ∧ u.lSlen = s.lDlen := by
    intro s h1 h2 h3
    refine ⟨storeHeader s, { s with mem := (storeHeader s).mem, lSrc := s.lDst, lSlen := s.lDlen }, ?_, not_lt.1 h2, h3,
      ?_, ?_⟩
    · rw [← not_lt, ← s.outputBeyond_iff, h1]
      exact nofun
    · simp only [exec_hdrst, execHdrst, h1, Bool.false_eq_true, if_false, if_neg h2]
    · simp only [and_self]
  exact ⟨{ abcTable with lDst := 0x100#32, lDlen := 2056#32 },
    key _ (by decide) (by decide) (table_defined rfl rfl)⟩

/-- An address below and one behind the write set of V-P2. -/
theorem witness_CommandsStoreOnlyInTheirWriteSet :
    ∃ t : State, packing.packOk ∧ exec (.pack true) packing = .next t ∧
      inArea (packing.writeArea (.pack true)) 0x907 = false ∧ inArea (packing.writeArea (.pack true)) 0x918 = false ∧
      packing.rin = 0#32 ∧ packing.rout = 0#32 := by
  refine ⟨_, ?_, rfl, by decide, by decide, rfl, rfl⟩
  unfold State.packOk
  decide

theorem witness_CommandsKeepWhatIsNotTheirs :
    ∃ t : State, exec .nop State.reset = .next t ∧ Instr.nop ≠ .fclr ∧ Instr.nop ≠ .hist ∧ Instr.nop ≠ .hdrld ∧
      Instr.nop ≠ .build ∧ Instr.nop ≠ .pinit ∧ Instr.nop ≠ .uinit ∧ (∀ f, Instr.nop ≠ .pack f) ∧
      (∀ f, Instr.nop ≠ .unpack f) :=
  ⟨_, rfl, nofun, nofun, nofun, nofun, nofun, nofun, fun _ => nofun, fun _ => nofun⟩

theorem witness_CommandsEndInDoneOrInErr :
    State.reset.done = false ∧ State.reset.err = false ∧ State.reset.errCode = .noError := ⟨rfl, rfl, rfl⟩

theorem witness_SoftResetKeepsTheStorage :
    ∃ (s : State) (v : Word), s.busy = false ∧ v.getLsbD 0 = true := ⟨State.reset, 3#32, rfl, by decide⟩

/-- HIST, HDRST, NOP, PACK, UNPACK and a word that raises BADCMD in progress, and for HDRST, PACK and UNPACK an address
of the write set. -/
theorem witness_SoftResetUndefinesWhatItAborts :
    (∃ (s : State) (v : Word), s.busy = true ∧ decodeWord s.cmdLast = .ok .hist ∧ v.getLsbD 0 = true) ∧
    (∃ (s : State) (v : Word), s.busy = true ∧ decodeWord s.cmdLast = .ok .hdrst ∧ v.getLsbD 0 = true ∧
      s.lDst.toNat + 2055 < s.lDst.toNat + s.lDlen.toNat) ∧
    (∃ (s : State) (v : Word), s.busy = true ∧ decodeWord s.cmdLast = .ok .nop ∧ v.getLsbD 0 = true) ∧
    (∃ (s : State) (v : Word), s.busy = true ∧ decodeWord s.cmdLast = .ok (.pack true) ∧ v.getLsbD 0 = true ∧
      s.lDst.toNat < s.lDst.toNat + s.lDlen.toNat) ∧
    (∃ (s : State) (v : Word), s.busy = true ∧ decodeWord s.cmdLast = .ok (.unpack false) ∧ v.getLsbD 0 = true ∧
      s.lDst.toNat < s.lDst.toNat + s.lDlen.toNat) ∧
    (∃ (s : State) (v : Word), s.busy = true ∧ decodeWord s.cmdLast = .error .reservedOpcode ∧ v.getLsbD 0 = true) :=
  ⟨⟨{ State.reset with busy := true, cmdLast := 2#32 }, 1#32, by decide⟩,
   ⟨{ State.reset with busy := true, cmdLast := 8#32, lDlen := 2056#32 }, 1#32, by decide⟩,
   ⟨{ State.reset with busy := true }, 1#32, by decide⟩,
   ⟨{ packing with cmdLast := 0x104#32 }, 1#32, by decide⟩,
   ⟨{ unpacking with cmdLast := 0x005#32 }, 7#32, by decide⟩,
   ⟨{ State.reset with busy := true, cmdLast := 0x0A#32 }, 1#32, by decide⟩⟩

theorem witness_ResetLeavesTheBlockIdle : ∃ s : State, s.agenda = [.hardReset] ∧ s.busy = true :=
  ⟨{ table [] with agenda := [.hardReset] }, rfl, rfl⟩

/-- FreqWriteIdleAndBusy and RegisterWritesTakeEffect. -/
theorem witness_writes_idle_and_busy : State.reset.busy = false ∧ (table []).busy = true := ⟨rfl, rfl⟩

/-- RegisterWritesTakeEffect: a CTRL value without SRST, and read-only registers at both ends of the map. -/
theorem witness_RegisterWritesTakeEffect :
    (0x00000006#32).getLsbD 0 = false ∧ Reg.id.readOnly ∧ (Reg.codebits 7).readOnly :=
  ⟨by decide, trivial, trivial⟩

/-- A register that can be read while a command runs; an idle state whose last FREQ words are written, with a code and
with none for CODESEL, a leaf and an internal node for NODESEL, and the handles behind the tree. -/
theorem witness_RegistersReadTheirValue :
    Reg.status ∈ [Reg.id, .version, .ctrl, .status, .cmd, .src, .slen, .dst, .dlen, .codesel, .nodesel] ∧
    { abcTree with busy := false }.busy = false ∧ atSym abcTree.fdefLo 0xFF#8 = true ∧
    atSym abcTree.fdefHi 0xFF#8 = true ∧ abcTree.treeValid = true ∧ atSym abcTree.codeV 0x63#8 = true ∧
    atSym abcTree.codeV 0x64#8 = false ∧ abcTree.nsym ≠ 0#9 ∧ (0#9).toNat ≤ abcTree.root.toNat ∧
    nodeOf abcTree.arena 0#9 = .leaf 0x61#8 3#72 ∧ (4#9).toNat ≤ abcTree.root.toNat ∧
    nodeOf abcTree.arena 4#9 = .internal 0#9 3#9 6#72 ∧ ¬ (5#9).toNat ≤ abcTree.root.toNat := by decide +kernel

/-- HostReadsChangeNothing: an idle state with nothing written. -/
theorem witness_HostReadsChangeNothing : State.reset.busy = false := rfl

/-- V-N9, the last register offset, the last byte of the aperture, and the first offset outside it. -/
theorem witness_BadAccessesHaveNoEffect :
    (0x00C < 0x100000 ∧ Width.half ≠ .word) ∧ (0x00E < 0x100000 ∧ 0x00E % 4 ≠ 0) ∧
    (0x100000 ≤ 0x100001 ∧ 0x100001 < 0x200000 ∧ 0x100001 % Width.half.bytes ≠ 0) ∧
    (0x100000 ≤ 0x110000 ∧ 0x110000 < 0x200000 ∧ 0x100000 + State.reset.memBytes ≤ 0x110000) ∧
    0x200000 ≤ 0x200000 := by decide

/-- The first and the last offset of each reserved range. -/
theorem witness_ReservedOffsetsReadZero :
    (0x084 % 4 = 0 ∧ 0x084 ≤ 0x09C) ∧ 0x09C % 4 = 0 ∧ (0x0C0 % 4 = 0 ∧ 0x0C0 ≤ 0x7FC) ∧ 0x7FC % 4 = 0 ∧
    (0x1000 % 4 = 0 ∧ 0x1000 ≤ 0xFFFFC) ∧ 0xFFFFC % 4 = 0 := by decide

/-- The last aligned word of buffer memory, idle; the halfword right behind the output area of a running PACK. -/
theorem witness_WindowReadsBackWhatWasWritten :
    (∃ (s : State) (w : Width) (a : Nat), s.busy = false ∧ s.sizeOk ∧ a < s.memBytes ∧ a % w.bytes = 0) ∧
    (∃ (s : State) (w : Width) (a : Nat), s.busy = true ∧
      (∀ i k, s.busy = true → decodeWord s.cmdLast = .ok i → k < w.bytes → ¬ s.touches (a + k) i) ∧
      s.sizeOk ∧ a < s.memBytes ∧ a % w.bytes = 0) := by
  refine ⟨⟨State.reset, .word, 65532, rfl, ?_, by decide⟩,
    ⟨{ packing with cmdLast := 0x004#32 }, .half, 0x918, rfl, ?_, ?_, by decide⟩⟩
  · unfold State.sizeOk
    decide
  · intro i k _ h hk
    have e : i = .pack false := by
      have d : decodeWord 0x004#32 = .ok (.pack false) := by decide
      exact (Except.ok.inj (d.symm.trans h)).symm
    subst e
    rintro (⟨-, h2⟩ | ⟨-, h2⟩)
    · replace h2 : 0x918 + k < 0 + 6 := h2
      omega
    · replace h2 : 0x918 + k < 0x908 + 16 := h2
      omega
  · unfold State.sizeOk
    decide

/-- RacingWriteIsHostRace: a write into the output area of a running PACK is a race, one behind it is none. -/
theorem witness_RacingWriteIsHostRace :
    { packing with cmdLast := 0x004#32 }.races .byte 0x100908 = true ∧
    { packing with cmdLast := 0x004#32 }.races .byte 0x100918 = false := by decide

theorem witness_StepKeepsTheMachineGood : ∃ t : State, State.reset.Good ∧ step State.reset = .next t := by
  refine ⟨State.reset, ⟨⟨Memory.wf_reset, ?_⟩, ?_, ?_, ?_, ?_⟩, rfl⟩
  · simp [State.reset]
  · unfold State.sizeOk
    decide
  · unfold State.statusOk
    decide
  · unfold State.packOk
    decide
  · unfold State.cursorOk
    decide

/-- The state that BUILD makes of the aaabbc table. -/
theorem witness_StepKeepsTheTreeTrue :
    ∃ s t : State, s.treeValid = true ∧ s.undefRead = false ∧ s.treeOk ∧ step s = .next t := by
  have key : ∀ s : State, s.allFreqDefined = true → s.agenda = [] → s.undefRead = false →
      ∃ u t : State, u.treeValid = true ∧ u.undefRead = false ∧ u.treeOk ∧ step u = .next t := by
    intro s h1 h2 h3
    refine ⟨(buildFrom s.freq.toList s).complete, (buildFrom s.freq.toList s).complete, rfl, h3, fun _ _ => ⟨h1, ?_⟩,
      ?_⟩
    · have h : builtArena s.freq.toList (builtArena s.freq.toList s.arena) = builtArena s.freq.toList s.arena :=
        overlay_overlay _ _ _
      rw [buildFrom_eq_iff, State.complete_freq, buildFrom_freq, State.complete_arena, buildFrom_arena, h]
      exact ⟨rfl, rfl, rfl, rfl, rfl, rfl, rfl⟩
    · simp [step, advance, takeTurn, h2]
  exact key abcTable (table_defined rfl rfl) rfl rfl

theorem witness_RecordedFaultIsNeverCleared : ∃ s t : State, s.undefRead = true ∧ step s = .next t :=
  ⟨{ State.reset with undefRead := true }, _, rfl, rfl⟩

/-! ### The tests that take longest to check, last -/

/-- One byte to count, at the top of memory, with TOTAL and its count one below their limits. -/
theorem witness_HistCountsTheBytes :
    ∃ (s : State) (bs : List Byte), s.lSrc.toNat + s.lSlen.toNat ≤ s.memBytes ∧ bs.length = s.lSlen.toNat ∧
      AreaHolds s.mem s.lSrc.toNat bs ∧ s.allFreqDefined = true ∧ s.rin = 0#32 ∧
      s.total.toNat + bs.length ≤ 2 ^ 63 - 1 ∧ ∀ b, (atSym s.freq b).toNat + bs.count b ≤ 2 ^ 64 - 1 := by
  refine ⟨{ table [(0x61#8, 0xFFFFFFFFFFFFFFFE#64)] with
    mem := [(65535, 0x61#8)], lSrc := 65535#32, lSlen := 1#32, total := 0x7FFFFFFFFFFFFFFE#64 }, [0x61#8], ?_⟩
  unfold AreaHolds
  decide +kernel

/-- An area one byte too long; a full TOTAL before any byte; a full count behind one byte. -/
theorem witness_HistStopsAtTheFirstOverflow :
    (∃ s : State, s.memBytes < s.lSrc.toNat + s.lSlen.toNat) ∧
    (∃ (s : State) (bs : List Byte) (x : Byte), s.lSrc.toNat + s.lSlen.toNat ≤ s.memBytes ∧
      bs.length < s.lSlen.toNat ∧ AreaHolds s.mem s.lSrc.toNat (bs ++ [x]) ∧ s.allFreqDefined = true ∧ s.rin = 0#32 ∧
      bs = [] ∧ (∀ b, (atSym s.freq b).toNat + bs.count b ≤ 2 ^ 64 - 1) ∧ 2 ^ 63 - 1 ≤ s.total.toNat + bs.length) ∧
    (∃ (s : State) (bs : List Byte) (x : Byte), s.lSrc.toNat + s.lSlen.toNat ≤ s.memBytes ∧
      bs.length < s.lSlen.toNat ∧ AreaHolds s.mem s.lSrc.toNat (bs ++ [x]) ∧ s.allFreqDefined = true ∧ s.rin = 0#32 ∧
      s.total.toNat + bs.length ≤ 2 ^ 63 - 1 ∧ (∀ b, (atSym s.freq b).toNat + bs.count b ≤ 2 ^ 64 - 1) ∧
      (atSym s.freq x).toNat + bs.count x = 2 ^ 64 - 1) := by
  refine ⟨⟨{ State.reset with lSrc := 65535#32, lSlen := 2#32 }, by decide⟩,
    ⟨{ table [] with mem := [(0, 0x61#8)], lSlen := 1#32, total := 0x8000000000000000#64 }, [], 0x61#8, ?_⟩,
    ⟨{ table [(0x61#8, 0xFFFFFFFFFFFFFFFE#64)] with mem := [(0, 0x61#8), (1, 0x61#8)], lSlen := 2#32 },
      [0x61#8], 0x61#8, ?_⟩⟩
  · unfold AreaHolds
    decide +kernel
  · unfold AreaHolds
    decide +kernel

/-- V-B1: the registers, a code and a node of the aaabbc tree. -/
theorem test_build :
    after (exec .build abcTable)
      (fun t => ((t.nsym, t.root, t.maxLen, t.fsum), t.statusWord, atSym t.code 0x62#8, nodeOf t.arena 3#9)) =
      some ((3#9, 4#9, 2#9, 6#72), 0x00000022#32, [true, true], .internal 2#9 1#9 3#72) := by decide +kernel

/-- V-B2: the leaf C and the older internal node tie at weight 2. -/
theorem test_build_tie :
    after (exec .build (table [(0x41#8, 1#64), (0x42#8, 1#64), (0x43#8, 2#64)]))
      (fun t => (nodeOf t.arena 4#9, atSym t.code 0x41#8, atSym t.code 0x42#8, atSym t.code 0x43#8)) =
      some (.internal 2#9 3#9 4#72, [true, false], [true, true], [false]) := by decide +kernel

end Sys2Proof.Tests
end

/-! SUPPORT. What holds of the machine between its steps (`State.Good`): each operation keeps it, then each command,
each host access, the resets, and so every step. -/

namespace Sys2Proof.Machine

/-! ### The parts of the invariant -/

/-- The invariant reads no field but MEM_BYTES, BUSY, DONE, ERR, TREE_VALID, UVALID, ROOT, the arena, the accumulator,
UCUR, UCNT and buffer memory: whatever leaves these as they are keeps it. -/
theorem State.Good.of_rest {s t : State} (h : s.Good)
    (e : t = { s with
      ieDone := t.ieDone, ieErr := t.ieErr, cmdOvr := t.cmdOvr, wrOvr := t.wrOvr, needIn := t.needIn,
      outFull := t.outFull, cmdLast := t.cmdLast, errCode := t.errCode, errInfo := t.errInfo, src := t.src,
      slen := t.slen, dst := t.dst, dlen := t.dlen, rin := t.rin, rout := t.rout, total := t.total, nsym := t.nsym,
      maxLen := t.maxLen, fsum := t.fsum, codeSel := t.codeSel, nodeSel := t.nodeSel, lSrc := t.lSrc,
      lSlen := t.lSlen, lDst := t.lDst, lDlen := t.lDlen, freq := t.freq, fdefLo := t.fdefLo, fdefHi := t.fdefHi,
      codeV := t.codeV, code := t.code, urem := t.urem, ubuf := t.ubuf, undefRead := t.undefRead, draws := t.draws,
      epoch := t.epoch, agenda := t.agenda, replies := t.replies }) : t.Good := by
  rw [e]
  exact ⟨h.memory, h.size, h.status, h.pack, h.cursor⟩

section
variable {s t : State}

theorem State.Good.tree_of_cursor (h : s.Good) : s.uvalid = true → s.treeValid = true := h.status.2.2

theorem State.Good.cursor_count (h : s.Good) : s.ucnt.toNat ≤ 8 := h.cursor.1

theorem State.Good.cursor_place (h : s.Good) :
    s.uvalid = true → s.ucur = s.root ∨ (nodeOf s.arena s.ucur).isLeaf = false := h.cursor.2

theorem State.memoryOk.of_same (h : s.memoryOk) (hb : t.memBytes = s.memBytes) (hm : t.mem = s.mem) :
    t.memoryOk := by
  unfold State.memoryOk
  rw [hm, hb]
  exact h

/-- Stores that stay inside 0..MEM_BYTES-1 keep buffer memory canonical and in range. -/
theorem State.memoryOk.writeAll (h : s.memoryOk) (hb : t.memBytes = s.memBytes) {a : Nat} {bs : List Byte}
    (hm : t.mem = Memory.writeAll s.mem a bs) (fit : bs = [] ∨ a + bs.length ≤ s.memBytes) :
    t.memoryOk := by
  obtain ⟨canonical, inside⟩ := h
  unfold State.memoryOk
  rw [hm, hb]
  refine ⟨Memory.wf_writeAll canonical a bs, fun c hc => ?_⟩
  rcases fit with rfl | fit
  · exact inside c hc
  · rcases Memory.mem_writeAll bs s.mem a c hc with stored | old
    · omega
    · exact inside c old

/-- Forgetting bytes keeps buffer memory canonical and in range. -/
theorem State.memoryOk.forget (h : s.memoryOk) (hb : t.memBytes = s.memBytes) {lo hi : Nat}
    (hm : t.mem = Memory.forget s.mem lo hi) : t.memoryOk := by
  unfold State.memoryOk
  rw [hm, hb]
  exact ⟨Memory.wf_forget h.1 lo hi, fun c hc => h.2 c (Memory.mem_forget hc)⟩

/-- A running command has neither DONE nor ERR, so its end sets exactly one of them. -/
theorem Ends.statusOk (e : Ends s t) (h : s.statusOk) (run : s.busy = true)
    (hv : t.uvalid = true → t.treeValid = true) : t.statusOk := by
  obtain ⟨-, running, -⟩ := h
  obtain ⟨hd, he⟩ := running run
  obtain ⟨idle, ⟨-, err, -⟩ | ⟨done, -⟩⟩ := e
  · exact ⟨by simp [err, he], by simp [idle], hv⟩
  · exact ⟨by simp [done, hd], by simp [idle], hv⟩

/-- `invalidate` drops UVALID with TREE_VALID, so nothing is left to claim of the cursor's place. -/
theorem State.Good.invalidate (h : s.Good) : s.invalidate.Good := by
  obtain ⟨one, running, -⟩ := h.status
  exact ⟨h.memory, h.size, ⟨one, running, nofun⟩, h.pack, h.cursor_count, nofun⟩

end

/-! ### The commands -/

theorem ChangesFreq.refl (s : State) : ChangesFreq s s := ⟨rfl, id, .inl ⟨rfl, rfl, rfl, rfl, rfl⟩⟩

/-- What FCLR, HIST and HDRLD may change. -/
theorem ChangesFreq.good {s t : State} (c : ChangesFreq s t) (e : Ends s t) (h : s.Good) (run : s.busy = true) :
    t.Good := by
  have valid : t.uvalid = true → t.treeValid = true ∧ s.uvalid = true := by
    rcases c.tree with ⟨tree, cursor, -⟩ | ⟨-, dropped⟩
    · rw [tree, cursor]
      exact fun u => ⟨h.tree_of_cursor u, u⟩
    · simp [dropped]
  have status := e.statusOk h.status run fun u => (valid u).1
  have cursor : t.cursorOk := by
    refine ⟨?_, fun u => ?_⟩
    · rw [c.state]; exact h.cursor_count
    · have stands := h.cursor_place (valid u).2
      rw [c.state]; exact stands
  refine ⟨?_, ?_, status, ?_, cursor⟩ <;> rw [c.state]
  · exact h.memory
  · exact h.size
  · exact h.pack

/-- What PINIT and PACK may change. -/
theorem ChangesPack.good {s t : State} (c : ChangesPack s t) (e : Ends s t) (h : s.Good) (run : s.busy = true)
    (memory : t.memoryOk) (pack : t.packOk) : t.Good := by
  have status := e.statusOk h.status run (by rw [c.state]; exact h.tree_of_cursor)
  refine ⟨memory, ?_, status, pack, ?_⟩ <;> rw [c.state]
  · exact h.size
  · exact h.cursor

/-- What UINIT and UNPACK may change: `place` says where they may leave a valid cursor. -/
theorem ChangesUnpack.good {s t : State} (c : ChangesUnpack s t) (e : Ends s t) (h : s.Good) (run : s.busy = true)
    (memory : t.memoryOk) (tree : t.uvalid = true → s.treeValid = true) (count : t.ucnt.toNat ≤ 8)
    (place : t.uvalid = true → t.ucur = s.root ∨ (nodeOf s.arena t.ucur).isLeaf = false) : t.Good := by
  have status := e.statusOk h.status run fun u => by
    have := tree u
    rw [c.state]; exact this
  have cursor : t.cursorOk := by
    refine ⟨count, fun u => ?_⟩
    have stands := place u
    rw [c.state]; exact stands
  refine ⟨memory, ?_, status, ?_, cursor⟩ <;> rw [c.state]
  · exact h.size
  · exact h.pack

section
variable {s t : State} (h : s.Good) (run : s.busy = true)
include h run

theorem execNop_good (e : execNop s = .next t) : t.Good := by
  injection e with e
  subst e
  exact (ChangesFreq.refl s).complete.good ⟨rfl, .inl ⟨rfl, rfl, rfl, rfl⟩⟩ h run

theorem execBuild_good (e : execBuild s = .next t) : t.Good := by
  obtain ⟨⟨c, -⟩, ends⟩ := execBuild_changes e
  have invalid : t.uvalid = false := by rw [c]
  have status := ends.statusOk h.status run (by simp [invalid])
  have cursor : t.cursorOk := ⟨by rw [c]; exact h.cursor_count, by simp [invalid]⟩
  refine ⟨?_, ?_, status, ?_, cursor⟩ <;> rw [c]
  · exact h.memory
  · exact h.size
  · exact h.pack

theorem execPinit_good (e : execPinit s = .next t) : t.Good := by
  obtain ⟨⟨c, ends⟩, mem, pack⟩ := execPinit_changes e
  exact c.good ends h run (h.memory.of_same (by rw [c.state]) mem) pack

theorem execPack_good {f : Bool} (e : execPack f s = .next t) : t.Good := by
  obtain ⟨c, ends⟩ := execPack_changes e
  obtain ⟨pack, ys, len, mem, fit⟩ := execPack_stores h.pack e
  exact c.good ends h run (h.memory.writeAll (by rw [c.state]) mem (fit.imp_right (by omega))) pack

theorem execUinit_good (e : execUinit s = .next t) : t.Good := by
  obtain ⟨c, ends, mem, cursor⟩ := execUinit_changes e
  have memory : t.memoryOk := h.memory.of_same (by rw [c.state]) mem
  rcases cursor with ⟨valid, count, cur⟩ | ⟨-, tree, count, cur⟩
  · refine c.good ends h run memory ?_ ?_ ?_
    · rw [valid]; exact h.tree_of_cursor
    · rw [count]; exact h.cursor_count
    · rw [valid, cur]; exact h.cursor_place
  · exact c.good ends h run memory (fun _ => tree) (by simp [count]) (fun _ => .inl cur)

theorem execUnpack_good {f : Bool} (e : execUnpack f s = .next t) : t.Good := by
  obtain ⟨⟨c, ends⟩, valid, count, cur, ys, len, mem, fit⟩ := execUnpack_changes e
  have kept : t.uvalid = true → s.uvalid = true := by
    rcases valid with same | dropped
    · rw [same]; exact id
    · simp [dropped]
  refine c.good ends h run (h.memory.writeAll (by rw [c.state]) mem (fit.imp_right (by omega)))
    (fun u => h.tree_of_cursor (kept u)) (count h.cursor_count) (fun u => ?_)
  rcases cur with same | moved
  · rw [same]; exact h.cursor_place (kept u)
  · exact moved

theorem execHdrst_good (e : execHdrst s = .next t) : t.Good := by
  obtain ⟨⟨c, undef⟩, ends, stores⟩ := execHdrst_changes e
  have hb : t.memBytes = s.memBytes := by rw [c]
  have memory : t.memoryOk := by
    rcases stores with mem | ⟨ys, len, mem, room, fit⟩
    · exact h.memory.of_same hb mem
    · exact h.memory.writeAll hb mem (.inr (by omega))
  have pack : t.packOk := by rw [c]; exact h.pack
  have changes : ChangesPack s t := ⟨by rw [c], undef⟩
  exact changes.good ends h run memory pack

/-- Every command keeps the invariant, on every path. -/
theorem exec_good (i : Instr) (e : exec i s = .next t) : t.Good := by
  cases i with
  | nop => exact execNop_good h run e
  | fclr =>
    obtain ⟨c, ends⟩ := execFclr_changes e
    exact c.good ends h run
  | hist =>
    obtain ⟨c, ends⟩ := execHist_changes e
    exact c.good ends h run
  | build => exact execBuild_good h run e
  | pack f => exact execPack_good h run e
  | unpack f => exact execUnpack_good h run e
  | uinit => exact execUinit_good h run e
  | pinit => exact execPinit_good h run e
  | hdrst => exact execHdrst_good h run e
  | hdrld =>
    obtain ⟨c, ends⟩ := execHdrld_changes e
    exact c.good ends h run

/-- A word that is no command raises BADCMD, which changes nothing else. -/
theorem engineStep_good (e : engineStep s = .next t) : t.Good := by
  unfold engineStep at e
  cases d : decodeWord s.cmdLast with
  | ok i => rw [d] at e; exact exec_good h run i e
  | error u =>
    rw [d] at e
    injection e with e
    subst e
    exact ((ChangesFreq.refl s).raise .badCmd 0#32).good ⟨rfl, .inr ⟨rfl, rfl, nofun⟩⟩ h run

end

/-! ### The resets -/

/-- The reset values of the registers meet the invariant whatever memory holds. -/
theorem State.clearRegisters_good {s : State} (memory : s.memoryOk) (size : s.sizeOk) : s.clearRegisters.Good :=
  ⟨memory, size, ⟨nofun, nofun, nofun⟩, ⟨by simp, by simp⟩, by simp, nofun⟩

/-- Hard reset clears the registers, and the storage as well (log entries 4 to 6). -/
theorem State.hardReset_eq_clearRegisters (s : State) :
    s.hardReset = State.clearRegisters { State.reset with
      memBytes := s.memBytes, undefRead := s.undefRead, draws := s.draws, epoch := s.epoch + 1, agenda := s.agenda,
      replies := s.replies } := rfl

theorem State.Good.hardReset {s : State} (h : s.Good) : s.hardReset.Good := by
  rw [s.hardReset_eq_clearRegisters]
  exact State.clearRegisters_good ⟨Memory.wf_reset, nofun⟩ h.size

/-- The registers are cleared after an abort, which at most forgets bytes of the output area
(70_reset_and_hazards.md R263). -/
theorem State.abort_cases (s : State) :
    s.abort.memBytes = s.memBytes ∧
      (s.abort.mem = s.mem ∨ ∃ lo hi, s.abort.mem = Memory.forget s.mem lo hi) := by
  unfold State.abort
  split_ifs with run
  · cases decodeWord s.cmdLast with
    | error u => exact ⟨rfl, .inl rfl⟩
    | ok i =>
      cases i with
      | pack f | unpack f | hdrst => exact ⟨rfl, .inr ⟨_, _, rfl⟩⟩
      | nop | fclr | hist | build | uinit | pinit | hdrld => exact ⟨rfl, .inl rfl⟩
  · exact ⟨rfl, .inl rfl⟩

theorem State.Good.softReset {s : State} (h : s.Good) : s.softReset.Good := by
  obtain ⟨hb, mem⟩ := s.abort_cases
  refine State.clearRegisters_good ?_ (by unfold State.sizeOk; rw [hb]; exact h.size)
  rcases mem with mem | ⟨lo, hi, mem⟩
  · exact h.memory.of_same hb mem
  · exact h.memory.forget hb mem

/-! ### Host writes -/

theorem State.Good.writeCtrl {s : State} (h : s.Good) (v : Word) : (s.writeCtrl v).Good := by
  unfold State.writeCtrl
  cases v.getLsbD 0 with
  | true => exact h.softReset.of_rest rfl
  | false => exact h.of_rest rfl

theorem State.writeStatus_eq (s : State) (v : Word) :
    s.writeStatus v = { s with
      err := s.err && !(v.getLsbD 2)
      done := s.done && !(v.getLsbD 1)
      cmdOvr := s.cmdOvr && !(v.getLsbD 3)
      wrOvr := s.wrOvr && !(v.getLsbD 4) } := by
  unfold State.writeStatus
  cases v.getLsbD 2 <;> simp [State.clearErr]

/-- A write to STATUS only clears bits. -/
theorem State.Good.writeStatus {s : State} (h : s.Good) (v : Word) : (s.writeStatus v).Good := by
  obtain ⟨one, running, valid⟩ := h.status
  rw [s.writeStatus_eq]
  refine ⟨h.memory, h.size, ⟨?_, ?_, valid⟩, h.pack, h.cursor⟩
  · simp only [Bool.and_eq_true]
    rintro ⟨⟨done, -⟩, err, -⟩
    exact one ⟨done, err⟩
  · intro run
    obtain ⟨hd, he⟩ := running run
    simp [hd, he]

/-- A command is accepted only with ERR = 0, and acceptance clears DONE (10_state.md R27). -/
theorem State.Good.writeCmd {s : State} (h : s.Good) (w : Word) : (s.writeCmd w).Good := by
  obtain ⟨-, -, valid⟩ := h.status
  unfold State.writeCmd
  split_ifs with blocked
  · exact h.of_rest rfl
  · have he : s.err = false := by
      simp only [Bool.or_eq_true, not_or, Bool.not_eq_true] at blocked
      exact blocked.2
    exact ⟨h.memory, h.size, ⟨nofun, fun _ => ⟨rfl, he⟩, valid⟩, h.pack, h.cursor⟩

theorem State.Good.unlessBusy {s put : State} (h : s.Good) (hp : put.Good) : (s.unlessBusy put).Good := by
  unfold State.unlessBusy
  split_ifs with run
  · exact h.of_rest rfl
  · exact hp

theorem State.Good.writeRegister {s : State} (h : s.Good) (r : Reg) (v : Word) : (s.writeRegister r v).Good := by
  cases r with
  | ctrl => exact h.writeCtrl v
  | status => exact h.writeStatus v
  | cmd => exact h.writeCmd v
  | totalLo | totalHi => exact h.unlessBusy (h.of_rest rfl)
  | freqLo b | freqHi b => exact h.unlessBusy (h.invalidate.of_rest rfl)
  | src | slen | dst | dlen | codesel | nodesel => exact h.of_rest rfl
  | _ => exact h

/-- An aligned access that begins in buffer memory ends in it: every size of 00_scope.md R7 is a multiple of 4. -/
theorem State.sizeOk.access_fits {s : State} (h : s.sizeOk) {w : Width} {off a : Nat}
    (hr : route s.memBytes w off = .window a) : a + w.bytes ≤ s.memBytes := by
  obtain ⟨low, -, aligned, inside, place⟩ := route_window_iff.1 hr
  have multiple : ∀ m ∈ Config.memSizes, m % 4 = 0 := by decide
  have four : s.memBytes % 4 = 0 := multiple _ (List.contains_iff_mem.1 h)
  cases w <;> simp only [Width.bytes] at aligned ⊢ <;> omega

theorem State.Good.busWrite {s : State} (h : s.Good) (w : Width) (off : Nat) (v : Word) :
    (s.busWrite w off v).2.Good := by
  unfold State.busWrite
  cases hr : route s.memBytes w off with
  | outside | refused | reserved => exact h
  | register r => exact h.writeRegister r v
  | window a =>
    have fit := h.size.access_fits hr
    exact ⟨h.memory.writeAll rfl rfl (.inr (by simpa using fit)), h.size, h.status, h.pack, h.cursor⟩

/-! ### The turns -/

theorem hostAccess_good {a : Access} {s t : State} (h : s.Good) (e : hostAccess a s = .next t) : t.Good := by
  cases a with
  | read w off =>
    injection e with e
    subst e
    have read : (s.busRead w off).2.Good := h.of_rest (by rw [s.busRead_state w off])
    exact read.of_rest rfl
  | write w off v =>
    unfold hostAccess at e
    simp only at e
    split_ifs at e with race
    injection e with e
    subst e
    exact (h.busWrite w off v).of_rest rfl

theorem takeTurn_good {turn : Turn} {s t : State} (h : s.Good) (e : takeTurn turn s = .next t) : t.Good := by
  cases turn with
  | engine =>
    unfold takeTurn at e
    simp only at e
    split_ifs at e with run
    · exact engineStep_good h run e
    · injection e with e
      exact e ▸ h
  | host a => exact hostAccess_good h e
  | hardReset =>
    injection e with e
    exact e ▸ h.hardReset

/-- Settles O57, turn by turn: the Engine's turn by what each command may change, the Host's by the write rules of the
registers and the window, and hard reset. -/
theorem stepKeepsTheMachineGood : Obligations.StepKeepsTheMachineGood := by
  intro s t h e
  unfold step advance at e
  cases turns : s.agenda with
  | nil => rw [turns] at e; exact takeTurn_good h e
  | cons turn rest =>
    rw [turns] at e
    have popped : State.Good { s with agenda := rest } := h.of_rest rfl
    exact takeTurn_good popped e

end Sys2Proof.Machine

/-! SUPPORT. What a step can do, in one inversion lemma; and what TREE_VALID means (10_state.md R44), which every step
keeps: a step leaves the table, the tree and its registers as they are, or drops TREE_VALID, or is BUILD's. -/

namespace Sys2Proof.Machine

/-! ### What a step can do -/

/-- `t` is what one turn makes of `s`: the block is idle, the Engine performs a command or refuses the word, the Host
reads or writes without a race, or the platform resets the block. -/
inductive Turned (s : State) : State → Prop
  | idle : s.busy = false → Turned s s
  | command {t : State} (i : Instr) : s.busy = true → decodeWord s.cmdLast = .ok i → exec i s = .next t → Turned s t
  | badWord : s.busy = true → Turned s (s.raise .badCmd 0#32)
  | read (w : Width) (off : Nat) : Turned s ((s.busRead w off).2.answer (s.busRead w off).1)
  | write (w : Width) (off : Nat) (v : Word) : s.races w off = false →
      Turned s ((s.busWrite w off v).2.answer (s.busWrite w off v).1)
  | hardReset : Turned s s.hardReset

theorem engineStep_cases {s t : State} (run : s.busy = true) (e : engineStep s = .next t) : Turned s t := by
  unfold engineStep at e
  cases d : decodeWord s.cmdLast with
  | ok i => rw [d] at e; exact .command i run d e
  | error u => rw [d] at e; injection e with e; exact e ▸ .badWord run

theorem hostAccess_cases {a : Access} {s t : State} (e : hostAccess a s = .next t) : Turned s t := by
  cases a with
  | read w off => injection e with e; exact e ▸ .read w off
  | write w off v =>
    simp only [hostAccess] at e
    split_ifs at e with race
    injection e with e
    exact e ▸ .write w off v (by simpa using race)

theorem takeTurn_cases {turn : Turn} {s t : State} (e : takeTurn turn s = .next t) : Turned s t := by
  cases turn with
  | engine =>
    simp only [takeTurn] at e
    split_ifs at e with run
    · exact engineStep_cases run e
    · injection e with e; exact e ▸ .idle (by simpa using run)
  | host a => exact hostAccess_cases e
  | hardReset => injection e with e; exact e ▸ .hardReset

/-- A step is one turn, taken from the agenda or owed to the Engine. -/
theorem step_cases {s t : State} (e : step s = .next t) : ∃ rest, Turned { s with agenda := rest } t := by
  unfold step advance at e
  cases turns : s.agenda with
  | nil => rw [turns] at e; exact ⟨s.agenda, takeTurn_cases e⟩
  | cons turn rest => rw [turns] at e; exact ⟨rest, takeTurn_cases e⟩

/-! ### What keeps the meaning of TREE_VALID -/

/-- A state without a valid tree claims nothing. -/
theorem State.treeOk_of_invalid {s : State} (h : s.treeValid = false) : s.treeOk := by
  intro valid
  rw [h] at valid
  exact absurd valid nofun

/-- The fields that TREE_VALID speaks of are those of `s`, and TREE_VALID is not set anew. -/
theorem State.treeOk.of_same {s t : State} (h : s.treeOk) (valid : t.treeValid = true → s.treeValid = true)
    (undef : s.undefRead = true → t.undefRead = true)
    (e : t = { t with
      freq := s.freq, fdefLo := s.fdefLo, fdefHi := s.fdefHi, arena := s.arena, codeV := s.codeV, code := s.code,
      nsym := s.nsym, root := s.root, maxLen := s.maxLen, fsum := s.fsum }) : t.treeOk := by
  apply State.treeOk_congr h valid undef <;> rw [e]

/-- Over a defined table, what BUILD leaves is the tree of that table: a second BUILD finds each of its fields made
(41_tree_build.md R148). -/
theorem State.treeOk_build {s : State} (defined : s.allFreqDefined = true) :
    (buildFrom s.freq.toList s).complete.treeOk := by
  intro _ _
  have again : builtArena s.freq.toList (builtArena s.freq.toList s.arena) = builtArena s.freq.toList s.arena :=
    overlay_overlay _ _ _
  refine ⟨defined, ?_⟩
  rw [buildFrom_eq_iff, State.complete_freq, buildFrom_freq, State.complete_arena, buildFrom_arena, again]
  exact ⟨rfl, rfl, rfl, rfl, rfl, rfl, rfl⟩

/-! ### The commands -/

section
variable {s t : State} (h : s.treeOk)

/-- BUILD over a table with an undefined word records UNDEF_READ, and then nothing is claimed
(60_exceptions.md R240). -/
theorem execBuild_treeOk (e : execBuild s = .next t) : t.treeOk := by
  cases defined : s.allFreqDefined with
  | true =>
    rw [execBuild_defined defined] at e
    injection e with e
    exact e ▸ State.treeOk_build defined
  | false =>
    rw [execBuild_eq] at e
    injection e with e
    intro _ clean
    rw [← e, State.complete_undefRead, buildFrom_undefRead, State.readAllFreq_undefined defined] at clean
    exact absurd clean nofun

include h

/-- FCLR, HIST and HDRLD keep the table or drop TREE_VALID. -/
theorem ChangesFreq.treeOk (c : ChangesFreq s t) : t.treeOk := by
  rcases c.tree with ⟨valid, -, freq, lo, hi⟩ | ⟨invalid, -⟩
  · exact h.of_same (by rw [valid]; exact id) c.undef (by rw [← freq, ← lo, ← hi, c.state])
  · exact State.treeOk_of_invalid invalid

theorem ChangesPack.treeOk (c : ChangesPack s t) : t.treeOk :=
  h.of_same (by rw [c.state]; exact id) c.undef (by rw [c.state])

theorem ChangesUnpack.treeOk (c : ChangesUnpack s t) : t.treeOk :=
  h.of_same (by rw [c.state]; exact id) c.undef (by rw [c.state])

/-- Every command keeps the meaning of TREE_VALID, on every path. -/
theorem exec_treeOk (i : Instr) (e : exec i s = .next t) : t.treeOk := by
  cases i with
  | nop => injection e with e; exact e ▸ (ChangesFreq.refl s).complete.treeOk h
  | fclr => exact (execFclr_changes e).1.treeOk h
  | hist => exact (execHist_changes e).1.treeOk h
  | hdrld => exact (execHdrld_changes e).1.treeOk h
  | build => exact execBuild_treeOk e
  | pack f => exact (execPack_changes e).1.treeOk h
  | pinit => exact (execPinit_changes e).1.1.treeOk h
  | unpack f => exact (execUnpack_changes e).1.1.treeOk h
  | uinit => exact (execUinit_changes e).1.treeOk h
  | hdrst =>
    obtain ⟨c, undef⟩ := (execHdrst_changes e).1
    exact h.of_same (by rw [c]; exact id) undef (by rw [c])

/-! ### Host writes -/

theorem State.treeOk.writeStatus (v : Word) : (s.writeStatus v).treeOk := by
  rw [s.writeStatus_eq]
  exact h.of_same id id rfl

/-- A soft reset drops TREE_VALID; without one CTRL has the enables only. -/
theorem State.treeOk.writeCtrl (v : Word) : (s.writeCtrl v).treeOk := by
  unfold State.writeCtrl
  cases v.getLsbD 0 with
  | true => exact State.treeOk_of_invalid rfl
  | false => exact h.of_same id id rfl

theorem State.treeOk.writeCmd (w : Word) : (s.writeCmd w).treeOk := by
  unfold State.writeCmd
  split_ifs <;> exact h.of_same id id rfl

theorem State.treeOk.unlessBusy (put : t.treeOk) : (s.unlessBusy t).treeOk := by
  unfold State.unlessBusy
  split_ifs
  · exact h.of_same id id rfl
  · exact put

/-- A FREQ write drops TREE_VALID; no other register the Host can write belongs to the table or the tree. -/
theorem State.treeOk.writeRegister (r : Reg) (v : Word) : (s.writeRegister r v).treeOk := by
  cases r with
  | ctrl => exact h.writeCtrl v
  | status => exact h.writeStatus v
  | cmd => exact h.writeCmd v
  | totalLo | totalHi => exact h.unlessBusy (h.of_same id id rfl)
  | freqLo b | freqHi b => exact h.unlessBusy (State.treeOk_of_invalid rfl)
  | src | slen | dst | dlen | codesel | nodesel => exact h.of_same id id rfl
  | _ => exact h

theorem State.treeOk.busWrite (w : Width) (off : Nat) (v : Word) : (s.busWrite w off v).2.treeOk := by
  unfold State.busWrite
  cases route s.memBytes w off with
  | register r => exact h.writeRegister r v
  | window a => exact h.of_same id id rfl
  | outside | refused | reserved => exact h

theorem State.treeOk.answer (r : Reply) : (s.answer r).treeOk := h.of_same id id rfl

/-! ### The step -/

theorem Turned.treeOk (e : Turned s t) : t.treeOk := by
  cases e with
  | idle => exact h
  | command i run d e => exact exec_treeOk h i e
  | badWord => exact h.of_same id id rfl
  | read w off =>
    have read : (s.busRead w off).2.treeOk := by
      rw [s.busRead_state w off]
      exact h.of_same id id rfl
    exact read.answer _
  | write w off v => exact (h.busWrite w off v).answer _
  | hardReset => exact State.treeOk_of_invalid rfl

end

/-- Settles O59, by what one turn can do. -/
theorem stepKeepsTheTreeTrue : Obligations.StepKeepsTheTreeTrue := by
  intro s t h e
  obtain ⟨rest, turned⟩ := step_cases e
  have popped : State.treeOk { s with agenda := rest } := h.of_same id id rfl
  exact turned.treeOk popped

end Sys2Proof.Machine

/-! SUPPORT. The frame of every command, on every path: which registers it leaves as they are (10_state.md section 3),
and what it does to TREE_VALID and UVALID (10_state.md R44). -/

namespace Sys2Proof.Machine

/-! ### The registers a command leaves as they are -/

/-- What command `i` leaves as it was in `s`: the operands and what else no command writes, and each group of registers
that belongs to other commands. -/
structure LeavesOthers (i : Instr) (s t : State) : Prop where
  operands : t.src = s.src ∧ t.slen = s.slen ∧ t.dst = s.dst ∧ t.dlen = s.dlen ∧ t.lSrc = s.lSrc ∧
    t.lSlen = s.lSlen ∧ t.lDst = s.lDst ∧ t.lDlen = s.lDlen ∧ t.cmdLast = s.cmdLast ∧ t.ieDone = s.ieDone ∧
    t.ieErr = s.ieErr ∧ t.codeSel = s.codeSel ∧ t.nodeSel = s.nodeSel ∧ t.cmdOvr = s.cmdOvr ∧ t.wrOvr = s.wrOvr ∧
    t.memBytes = s.memBytes ∧ t.agenda = s.agenda ∧ t.replies = s.replies
  table : i ≠ .fclr → i ≠ .hist → i ≠ .hdrld →
    t.freq = s.freq ∧ t.fdefLo = s.fdefLo ∧ t.fdefHi = s.fdefHi ∧ t.total = s.total
  tree : i ≠ .build → t.arena = s.arena ∧ t.codeV = s.codeV ∧ t.code = s.code ∧ t.nsym = s.nsym ∧ t.root = s.root ∧
    t.maxLen = s.maxLen ∧ t.fsum = s.fsum
  accumulator : i ≠ .pinit → (∀ f, i ≠ .pack f) → t.pbuf = s.pbuf ∧ t.pcnt = s.pcnt
  cursor : i ≠ .uinit → (∀ f, i ≠ .unpack f) →
    t.urem = s.urem ∧ t.ucur = s.ucur ∧ t.ubuf = s.ubuf ∧ t.ucnt = s.ucnt
  rin : i ≠ .hist → i ≠ .hdrld → (∀ f, i ≠ .pack f) → (∀ f, i ≠ .unpack f) → t.rin = s.rin
  rout : i ≠ .hdrst → (∀ f, i ≠ .pack f) → (∀ f, i ≠ .unpack f) → t.rout = s.rout
  unpackFlags : (∀ f, i ≠ .unpack f) → t.needIn = s.needIn ∧ t.outFull = s.outFull

section
variable {s t : State}

/-! FCLR, PINIT and UINIT have no area, so that RIN and ROUT stay: they write less than the commands they share
`ChangesFreq`, `ChangesPack` and `ChangesUnpack` with. -/

theorem execFclr_state (e : execFclr s = .next t) :
    t = { s with
      treeValid := false, uvalid := false, freq := t.freq, fdefLo := t.fdefLo, fdefHi := t.fdefHi, total := t.total,
      busy := t.busy, done := t.done } := by
  injection e with e
  rw [← e]; rfl

theorem execPinit_state (e : execPinit s = .next t) :
    t = { s with pbuf := t.pbuf, pcnt := t.pcnt, busy := t.busy, done := t.done } := by
  injection e with e
  rw [← e]; rfl

theorem execUinit_state (e : execUinit s = .next t) :
    t = { s with
      uvalid := t.uvalid, urem := t.urem, ucur := t.ucur, ubuf := t.ubuf, ucnt := t.ucnt, busy := t.busy,
      done := t.done, err := t.err, errCode := t.errCode, errInfo := t.errInfo } := by
  injection e with e
  rw [← e]
  split_ifs <;> rfl

theorem exec_leavesOthers (i : Instr) (e : exec i s = .next t) : LeavesOthers i s t := by
  cases i with
  | nop => injection e with e; rw [← e]; constructor <;> simp
  | fclr => rw [execFclr_state e]; constructor <;> simp
  | hist => rw [(execHist_changes e).1.state]; constructor <;> simp
  | hdrld => rw [(execHdrld_changes e).1.state]; constructor <;> simp
  | build => rw [(execBuild_changes e).1.1]; constructor <;> simp
  | pack f => rw [(execPack_changes e).1.state]; constructor <;> simp
  | pinit => rw [execPinit_state e]; constructor <;> simp
  | unpack f => rw [(execUnpack_changes e).1.1.state]; constructor <;> simp
  | uinit => rw [execUinit_state e]; constructor <;> simp
  | hdrst => rw [(execHdrst_changes e).1.1]; constructor <;> simp

/-! ### TREE_VALID and UVALID -/

/-- A pass of HIST leaves both validity bits alone, whether it goes on or raises OVERFLOW. -/
theorem histByte_valid {i : Nat} {x y : State} (e : histByte i x = .going y ∨ histByte i x = .ended y) :
    y.treeValid = x.treeValid ∧ y.uvalid = x.uvalid := by
  obtain ⟨s₂, b, f, d, -, pass⟩ := histByte_cases i x
  rw [pass, d.1] at e
  split_ifs at e
  · obtain e | e := e
    · exact absurd e nofun
    · injection e with e; rw [← e]; exact ⟨rfl, rfl⟩
  · obtain e | e := e
    · injection e with e; rw [← e]; exact ⟨rfl, rfl⟩
    · exact absurd e nofun

theorem histCount_invalid (s : State) : (histCount s).treeValid = false ∧ (histCount s).uvalid = false := by
  have pass : ∀ i x y, (histByte i x = .going y ∨ histByte i x = .ended y) →
      x.treeValid = false ∧ x.uvalid = false → y.treeValid = false ∧ y.uvalid = false := by
    intro i x y e invalid
    obtain ⟨tree, cursor⟩ := histByte_valid e
    rw [tree, cursor]
    exact invalid
  exact andThen_induct (Q := fun _ x => x.treeValid = false ∧ x.uvalid = false)
    (R := fun x => x.treeValid = false ∧ x.uvalid = false) _ _ _
    (fun i x y _ h e => pass i x y (.inl e) h) (fun i x y _ h e => pass i x y (.inr e) h) ⟨rfl, rfl⟩ fun _ h => h

theorem execHist_valid (e : execHist s = .next t) :
    (t.treeValid = false ∧ t.uvalid = false) ∨
      (t.treeValid = s.treeValid ∧ t.uvalid = s.uvalid ∧ t.err = true ∧ t.errCode = .range) := by
  injection e with e
  rw [← e]
  split_ifs
  · exact .inr ⟨rfl, rfl, rfl, rfl⟩
  · exact .inl (histCount_invalid s)

theorem loadHeader_invalid (s : State) : (loadHeader s).treeValid = false ∧ (loadHeader s).uvalid = false := by
  unfold loadHeader
  generalize State.readBytes Config.headerBytes s.lSrc.toNat s = x
  exact ⟨rfl, rfl⟩

theorem execHdrld_valid (e : execHdrld s = .next t) :
    (t.treeValid = false ∧ t.uvalid = false) ∨
      (t.treeValid = s.treeValid ∧ t.uvalid = s.uvalid ∧ t.err = true ∧
        (t.errCode = .range ∨ t.errCode = .shortHdr)) := by
  injection e with e
  rw [← e]
  split_ifs
  · exact .inr ⟨rfl, rfl, rfl, .inl rfl⟩
  · exact .inr ⟨rfl, rfl, rfl, .inr rfl⟩
  · exact .inl (loadHeader_invalid s)

theorem execUinit_valid (e : execUinit s = .next t) :
    t.treeValid = s.treeValid ∧ ((t.uvalid = true ∧ t.done = true) ∨ (t.uvalid = s.uvalid ∧ t.err = true)) := by
  injection e with e
  rw [← e]
  split_ifs
  · exact ⟨rfl, .inr ⟨rfl, rfl⟩⟩
  · exact ⟨rfl, .inr ⟨rfl, rfl⟩⟩
  · exact ⟨rfl, .inl ⟨rfl, rfl⟩⟩

/-- However UNPACK's loop is left, UVALID is as it was. -/
theorem Left.uvalid {x : Walk} (h : Left s x) : x.st.uvalid = s.uvalid := by
  cases h with
  | count x m | full x m | empty x l r w m => rw [m.state]

/-- Only TRUNCATED drops the cursor (10_state.md R44, 42_bitcodec.md R175). -/
theorem finishUnpack_uvalid (f : Bool) (x : Walk) :
    (finishUnpack f x).uvalid = x.st.uvalid ∨
      ((finishUnpack f x).uvalid = false ∧ (finishUnpack f x).err = true ∧
        (finishUnpack f x).errCode = .truncated) := by
  unfold finishUnpack
  split_ifs
  · exact .inr ⟨rfl, rfl, rfl⟩
  · exact .inl rfl
  · exact .inl rfl

theorem execUnpack_valid {f : Bool} (e : execUnpack f s = .next t) :
    t.treeValid = s.treeValid ∧
      (t.uvalid = s.uvalid ∨ (t.uvalid = false ∧ t.err = true ∧ t.errCode = .truncated)) := by
  refine ⟨by rw [(execUnpack_changes e).1.1.state], ?_⟩
  rcases execUnpack_cases f s with ⟨code, info, raised, -⟩ | ⟨looped, -⟩
  · rw [raised] at e
    injection e with e
    exact .inl (by rw [← e]; rfl)
  · rw [looped] at e
    injection e with e
    rw [← e, ← (unpackLoop_left s).uvalid]
    exact finishUnpack_uvalid f _

/-- The other commands leave both validity bits as they are. -/
theorem exec_keeps_valid {i : Instr} (other : i = .nop ∨ i = .pinit ∨ i = .hdrst ∨ ∃ f, i = .pack f)
    (e : exec i s = .next t) : t.treeValid = s.treeValid ∧ t.uvalid = s.uvalid := by
  rcases other with rfl | rfl | rfl | ⟨f, rfl⟩
  · injection e with e; rw [← e]; exact ⟨rfl, rfl⟩
  · rw [execPinit_state e]; exact ⟨rfl, rfl⟩
  · rw [(execHdrst_changes e).1.1]; exact ⟨rfl, rfl⟩
  · rw [(execPack_changes e).1.state]; exact ⟨rfl, rfl⟩

end

/-- Settles O42: the registers of other commands by each command's frame, the validity bits row by row of R44. -/
theorem commandsKeepWhatIsNotTheirs : Obligations.CommandsKeepWhatIsNotTheirs := by
  intro i s t e
  obtain ⟨operands, table, tree, accumulator, cursor, rin, rout, unpackFlags⟩ := exec_leavesOthers i e
  refine ⟨operands, table, tree, accumulator, cursor, rin, rout, unpackFlags, ?_, ?_, ?_, ?_, ?_,
    fun other => exec_keeps_valid other e⟩
  · rintro rfl
    rw [execFclr_state e]
    exact ⟨rfl, rfl⟩
  · rintro (rfl | rfl)
    · exact (execHist_valid e).imp_right fun ⟨tree, cursor, err, code⟩ => ⟨tree, cursor, err, .inl code⟩
    · exact (execHdrld_valid e).imp_right fun ⟨tree, cursor, err, code⟩ =>
        ⟨tree, cursor, err, code.imp_right fun short => ⟨rfl, short⟩⟩
  · rintro rfl
    rw [(execBuild_changes e).1.1]
    exact ⟨rfl, rfl⟩
  · rintro rfl
    exact execUinit_valid e
  · rintro ⟨f, rfl⟩
    exact execUnpack_valid e

end Sys2Proof.Machine

/-! SUPPORT. The register map: every register is found at its offset and none at a reserved one (10_state.md section 2);
what a host write does to each register, and the reset state. -/

namespace Sys2Proof.Machine

/-! ### Offsets -/

theorem Reg.ofOffset_codebits (k : Fin 8) : Reg.ofOffset (0x0A0 + 4 * k.val) = some (.codebits k) := by
  have := k.isLt
  unfold Reg.ofOffset
  rw [if_neg (by omega), if_pos (by omega), show (0x0A0 + 4 * k.val - 0x0A0) / 4 = k.val by omega]
  simp

theorem Reg.ofOffset_offset (r : Reg) : Reg.ofOffset r.offset = some r := by
  cases r with
  | codebits k => exact Reg.ofOffset_codebits k
  | freqLo b => exact Reg.ofOffset_freqLo b
  | freqHi b => exact Reg.ofOffset_freqHi b
  | _ => rfl

theorem regTable_below : ∀ entry ∈ regTable, entry.1 < 0x084 := by decide

/-- Between the register table, CODEBITS and FREQ, and behind FREQ, no register stands (10_state.md R39). -/
theorem Reg.ofOffset_reserved {off : Nat} (table : 0x084 ≤ off) (codebits : off < 0x0A0 ∨ 0x0C0 ≤ off)
    (freq : off < 0x800 ∨ 0x1000 ≤ off) : Reg.ofOffset off = none := by
  unfold Reg.ofOffset
  rw [if_neg (by omega), if_neg (by omega), List.lookup_eq_none_iff]
  intro entry member
  have := regTable_below entry member
  rw [bne_iff_ne]
  omega

/-! ### Accesses to a register at its offset -/

theorem hostAccess_write_reg (s : State) (r : Reg) (v : Word) :
    hostAccess (.write .word r.offset v) s = .next ((s.writeRegister r v).answer .done) :=
  hostAccess_write_register v r.offset_bounds.1 r.offset_bounds.2 r.ofOffset_offset

theorem hostAccess_read_reg (s : State) (r : Reg) :
    hostAccess (.read .word r.offset) s = .next ((s.readRegister r).2.answer (.value (s.readRegister r).1)) :=
  hostAccess_read_register r.offset_bounds.1 r.offset_bounds.2 r.ofOffset_offset

/-- Settles O54: a reserved offset routes to no register, for reads and writes alike. -/
theorem reservedOffsetsReadZero : Obligations.ReservedOffsetsReadZero := by
  intro s off v aligned reserved
  have place : route s.memBytes .word off = .reserved :=
    route_reserved (by omega) aligned (Reg.ofOffset_reserved (by omega) (by omega) (by omega))
  constructor
  · simp [hostAccess, State.busRead, place]
  · simp [hostAccess, State.races, State.busWrite, place]

/-! ### Writes -/

theorem State.writeCmd_blocked {s : State} (h : s.busy = true ∨ s.err = true) (w : Word) :
    s.writeCmd w = { s with cmdOvr := true } := by
  rw [← Bool.or_eq_true] at h
  rw [State.writeCmd, if_pos h]

theorem State.writeCmd_accepted {s : State} (idle : s.busy = false) (noErr : s.err = false) (w : Word) :
    s.writeCmd w = s.accept w := by
  rw [State.writeCmd, if_neg (by simp [idle, noErr])]

theorem State.unlessBusy_idle {s : State} (idle : s.busy = false) (put : State) : s.unlessBusy put = put := by
  rw [State.unlessBusy, if_neg (by simp [idle])]

theorem State.unlessBusy_busy {s : State} (busy : s.busy = true) (put : State) :
    s.unlessBusy put = { s with wrOvr := true } := by
  rw [State.unlessBusy, if_pos busy]

theorem State.writeCtrl_enables {s : State} {v : Word} (h : v.getLsbD 0 = false) :
    s.writeCtrl v = { s with ieDone := v.getLsbD 1, ieErr := v.getLsbD 2 } := by
  simp only [State.writeCtrl, h, Bool.false_eq_true, if_false]

theorem State.writeRegister_readOnly {r : Reg} (h : r.readOnly) (s : State) (v : Word) : s.writeRegister r v = s := by
  cases r with
  | ctrl | status | cmd | src | slen | dst | dlen | totalLo | totalHi | codesel | nodesel => exact h.elim
  | freqLo b | freqHi b => exact h.elim
  | _ => rfl

/-- Settles O7, by the two cases of R27. -/
theorem cmdWriteIsAcceptedOrDropped : Obligations.CmdWriteIsAcceptedOrDropped := by
  intro s w
  have written : hostAccess (.write .word 0x010 w) s = .next ((s.writeCmd w).answer .done) :=
    hostAccess_write_reg s .cmd w
  rw [written]
  constructor
  · intro blocked
    rw [State.writeCmd_blocked blocked]
  · intro idle noErr
    rw [State.writeCmd_accepted idle noErr, State.accept]

/-- Settles O48, by the STATUS write in the form that shows each bit. -/
theorem statusWriteClearsWhatIsWrittenOne : Obligations.StatusWriteClearsWhatIsWrittenOne := by
  intro s v
  have written : hostAccess (.write .word 0x00C v) s = .next ((s.writeStatus v).answer .done) :=
    hostAccess_write_reg s .status v
  rw [written, s.writeStatus_eq]

/-- Settles O49: both words of FREQ[b] have a write that BUSY = 1 drops. -/
theorem freqWriteIdleAndBusy : Obligations.FreqWriteIdleAndBusy := by
  intro s b v
  have low : hostAccess (.write .word (0x800 + 8 * b.toNat) v) s =
      .next ((s.unlessBusy (s.putFreqLo b v)).answer .done) := hostAccess_write_reg s (.freqLo b) v
  have high : hostAccess (.write .word (0x800 + 8 * b.toNat + 4) v) s =
      .next ((s.unlessBusy (s.putFreqHi b v)).answer .done) := hostAccess_write_reg s (.freqHi b) v
  rw [low, high]
  constructor
  · intro idle
    rw [State.unlessBusy_idle idle, State.unlessBusy_idle idle]
    exact ⟨rfl, rfl⟩
  · intro busy
    rw [State.unlessBusy_busy busy, State.unlessBusy_busy busy]
    exact ⟨rfl, rfl⟩

/-- Settles O50, register by register. -/
theorem registerWritesTakeEffect : Obligations.RegisterWritesTakeEffect := by
  intro s v
  have low : hostAccess (.write .word 0x034 v) s =
      .next ((s.unlessBusy { s with total := s.total.high ++ v }).answer .done) := hostAccess_write_reg s .totalLo v
  have high : hostAccess (.write .word 0x038 v) s =
      .next ((s.unlessBusy { s with total := v ++ s.total.low }).answer .done) := hostAccess_write_reg s .totalHi v
  have ctrl : hostAccess (.write .word 0x008 v) s = .next ((s.writeCtrl v).answer .done) :=
    hostAccess_write_reg s .ctrl v
  rw [low, high]
  refine ⟨fun idle => ?_, fun busy => ?_, hostAccess_write_reg s .src v, hostAccess_write_reg s .slen v,
    hostAccess_write_reg s .dst v, hostAccess_write_reg s .dlen v, hostAccess_write_reg s .codesel v,
    hostAccess_write_reg s .nodesel v, fun noReset => ?_, fun r readOnly => ?_⟩
  · rw [State.unlessBusy_idle idle, State.unlessBusy_idle idle]
    exact ⟨rfl, rfl⟩
  · rw [State.unlessBusy_busy busy, State.unlessBusy_busy busy]
    exact ⟨rfl, rfl⟩
  · rw [ctrl, State.writeCtrl_enables noReset]
  · rw [hostAccess_write_reg, State.writeRegister_readOnly readOnly]

/-! ### STATUS -/

theorem State.statusWord_reserved (s : State) {k : Nat} (h : 10 ≤ k) : s.statusWord.getLsbD k = false := by
  rw [State.statusWord, BitVec.getLsbD_append, if_neg (by omega), BitVec.getLsbD_zero]

/-- Settles O47: STATUS is the concatenation of its bits. -/
theorem statusReadsItsBits : Obligations.StatusReadsItsBits := by
  intro s
  refine ⟨?_, ?_, ?_, ?_, ?_, ?_, ?_, ?_, ?_, ?_, fun k reserved => s.statusWord_reserved reserved⟩
  all_goals
    simp only [State.statusWord, BitVec.getLsbD_append]
    simp [State.irq]

/-! ### Reset -/

/-- Settles O58: the registers of the reset state are clear and its memory is empty. -/
theorem resetIsGood : Obligations.ResetIsGood :=
  State.clearRegisters_good (s := State.reset) ⟨Memory.wf_reset, nofun⟩ (by unfold State.sizeOk; decide)

/-- Settles O44: a hard reset turn runs `hardReset`, and the reset values are read off the reset state. -/
theorem resetLeavesTheBlockIdle : Obligations.ResetLeavesTheBlockIdle := by
  refine ⟨fun s rest turns => ?_, ?_⟩
  · simp only [step, advance, turns]
    rfl
  · refine ⟨by decide, by decide, ?_⟩
    simp [State.reset, Memory.read]

end Sys2Proof.Machine

/-! SUPPORT. What each register reads, as a number (10_state.md R22 to R40). -/

namespace Sys2Proof.Machine

/-! ### Numbers made of fields and of bits -/

theorem toNat_append_fields {n m : Nat} (x : BitVec n) (y : BitVec m) : (x ++ y).toNat = y.toNat + 2 ^ m * x.toNat := by
  rw [BitVec.toNat_append, ← Nat.shiftLeft_add_eq_or_of_lt y.isLt, Nat.shiftLeft_eq, Nat.mul_comm, Nat.add_comm]

theorem Count.low_toNat (c : Count) : c.low.toNat = c.toNat % 2 ^ 32 := BitVec.toNat_setWidth 32 c

theorem Count.high_toNat (c : Count) : c.high.toNat = c.toNat / 2 ^ 32 := by
  have := c.isLt
  rw [Count.high, BitVec.toNat_setWidth, BitVec.toNat_ushiftRight, Nat.shiftRight_eq_div_pow]
  omega

theorem Weight.low_toNat (w : Weight) : (Weight.low w).toNat = w.toNat % 2 ^ 32 := BitVec.toNat_setWidth 32 w

theorem Weight.mid_toNat (w : Weight) : (Weight.mid w).toNat = w.toNat / 2 ^ 32 % 2 ^ 32 := by
  rw [Weight.mid, BitVec.toNat_setWidth, BitVec.toNat_ushiftRight, Nat.shiftRight_eq_div_pow]

theorem Weight.high_toNat (w : Weight) : (Weight.high w).toNat = w.toNat / 2 ^ 64 := by
  have := w.isLt
  rw [Weight.high, BitVec.toNat_setWidth, BitVec.toNat_ushiftRight, Nat.shiftRight_eq_div_pow]
  omega

/-- The number whose binary digits are `f 0`, `f 1`, ..., `f (n - 1)`, the first the most significant. -/
def ofDigits (f : Nat → Bool) (n : Nat) : Nat := (List.range n).foldl (fun acc j => 2 * acc + (f j).toNat) 0

theorem ofDigits_succ (f : Nat → Bool) (n : Nat) : ofDigits f (n + 1) = 2 * ofDigits f n + (f n).toNat := by
  simp [ofDigits, List.range_succ]

theorem ofDigits_lt (f : Nat → Bool) (n : Nat) : ofDigits f n < 2 ^ n := by
  induction n with
  | zero => simp [ofDigits]
  | succ n ih =>
    have := (f n).toNat_le
    rw [ofDigits_succ, Nat.pow_succ]
    omega

theorem testBit_ofDigits (f : Nat → Bool) {n j : Nat} (h : j < n) : (ofDigits f n).testBit (n - 1 - j) = f j := by
  induction n with
  | zero => omega
  | succ n ih =>
    rw [ofDigits_succ]
    rcases Nat.lt_succ_iff_lt_or_eq.1 h with before | rfl
    · have half : (2 * ofDigits f n + (f n).toNat) / 2 = ofDigits f n := by
        have := (f n).toNat_le
        omega
      rw [show n + 1 - 1 - j = (n - 1 - j) + 1 by omega, Nat.testBit_succ, half, ih before]
    · rw [show j + 1 - 1 - j = 0 by omega, Nat.testBit_zero]
      cases f j <;> simp

/-- A code window is a word of 32 digits, so each of its bits is one code bit. -/
theorem testBit_codeWindow (c : List Bool) (start : Nat) {j : Nat} (h : j < 32) :
    (codeWindow c start).toNat.testBit (31 - j) = c.getD (start + j) false := by
  have value : (codeWindow c start).toNat = ofDigits (fun j => c.getD (start + j) false) 32 := by
    rw [codeWindow, BitVec.toNat_ofNat]
    exact Nat.mod_eq_of_lt (ofDigits_lt _ 32)
  rw [value]
  exact testBit_ofDigits (fun j => c.getD (start + j) false) h

/-! ### Reads that the spec defines -/

theorem State.readRegister_defined {s : State} {r : Reg} (h : s.busy = false ∨ r.definedWhileBusy = true) :
    s.readRegister r = (s.regValue r, s) := by
  rw [State.readRegister, if_pos (by simpa using h)]

theorem hostAccess_read_defined {s : State} {r : Reg} (h : s.busy = false ∨ r.definedWhileBusy = true) :
    hostAccess (.read .word r.offset) s = .next (s.answer (.value (s.regValue r))) := by
  rw [hostAccess_read_reg, State.readRegister_defined h]

/-- An aligned read at `off` answers the number `n`, and changes nothing. -/
def State.Reads (s : State) (off n : Nat) : Prop :=
  n < 2 ^ 32 ∧ hostAccess (.read .word off) s = .next (s.answer (.value (BitVec.ofNat 32 n)))

/-- The value of its register, as a number, is what an idle read answers. -/
theorem State.reads_reg {s : State} (idle : s.busy = false) (r : Reg) {n : Nat} (h : (s.regValue r).toNat = n) :
    s.Reads r.offset n := by
  subst h
  refine ⟨(s.regValue r).isLt, ?_⟩
  rw [BitVec.ofNat_toNat, BitVec.setWidth_eq]
  exact hostAccess_read_defined (.inl idle)

/-- The codes and their numbers (60_exceptions.md R225). -/
def ErrCode.numbers : List (ErrCode × Nat) :=
  [(.noError, 0x00), (.badCmd, 0x01), (.range, 0x02), (.overlap, 0x03), (.overflow, 0x04), (.noTree, 0x05),
   (.noCode, 0x06), (.dstFull, 0x07), (.truncated, 0x08), (.zeroCount, 0x09), (.shortHdr, 0x0A), (.notInit, 0x0B)]

theorem ErrCode.code_of_numbers : ∀ p ∈ ErrCode.numbers, (p.1.code.setWidth 32).toNat = p.2 := by decide

/-! ### The value of each computed register -/

section
variable {s : State}

theorem State.ctrlWord_toNat (s : State) : s.ctrlWord.toNat = 2 * s.ieDone.toNat + 4 * s.ieErr.toNat := by
  simp only [State.ctrlWord, toNat_append_fields, BitVec.toNat_ofBool, BitVec.toNat_ofNat]
  omega

theorem State.codeShown_iff : s.codeShown = true ↔ s.treeValid = true ∧ atSym s.codeV s.codeSel = true := by
  simp [State.codeShown]

theorem State.nodeShown_iff : s.nodeShown = true ↔
    s.treeValid = true ∧ s.nsym ≠ 0#9 ∧ s.nodeSel.toNat ≤ s.root.toNat ∧ s.nodeSel ≠ 511#9 := by
  simp [State.nodeShown, BitVec.le_def, and_assoc]

theorem State.codeLenWord_shown (h : s.codeShown = true) :
    s.codeLenWord.toNat = 2 ^ 16 + (atSym s.code s.codeSel).length % 2 ^ 9 := by
  simp only [State.codeLenWord, h, if_true, State.codeLen, toNat_append_fields, BitVec.toNat_ofBool,
    BitVec.toNat_ofNat, Bool.toNat_true]
  omega

theorem State.codeLenWord_hidden (h : ¬ s.codeShown = true) : s.codeLenWord = 0#32 := by
  simp [State.codeLenWord, h]

theorem State.codeBitsWord_shown (h : s.codeShown = true) (k : Nat) :
    s.codeBitsWord k = codeWindow (atSym s.code s.codeSel) (32 * k) := if_pos h

theorem State.codeBitsWord_hidden (h : ¬ s.codeShown = true) (k : Nat) : s.codeBitsWord k = 0#32 := if_neg h

theorem State.nodeInfoWord_leaf (h : s.nodeShown = true) {sym : Symbol} {w : Weight}
    (node : nodeOf s.arena s.nodeSel = .leaf sym w) : s.nodeInfoWord.toNat = 3 + 2 ^ 8 * sym.toNat := by
  simp only [State.nodeInfoWord, h, if_true, node, toNat_append_fields, BitVec.toNat_ofNat]
  omega

theorem State.nodeInfoWord_internal (h : s.nodeShown = true) {l r : Handle} {w : Weight}
    (node : nodeOf s.arena s.nodeSel = .internal l r w) : s.nodeInfoWord.toNat = 1 := by
  simp only [State.nodeInfoWord, h, if_true, node]
  rfl

theorem State.nodeInfoWord_hidden (h : ¬ s.nodeShown = true) : s.nodeInfoWord = 0#32 := if_neg h

theorem State.nodeKidsWord_leaf (h : s.nodeShown = true) {sym : Symbol} {w : Weight}
    (node : nodeOf s.arena s.nodeSel = .leaf sym w) : s.nodeKidsWord.toNat = 0 := by
  simp only [State.nodeKidsWord, h, if_true, node]
  rfl

theorem State.nodeKidsWord_internal (h : s.nodeShown = true) {l r : Handle} {w : Weight}
    (node : nodeOf s.arena s.nodeSel = .internal l r w) : s.nodeKidsWord.toNat = l.toNat + 2 ^ 16 * r.toNat := by
  simp only [State.nodeKidsWord, h, if_true, node, toNat_append_fields, BitVec.toNat_ofNat]
  omega

theorem State.nodeKidsWord_hidden (h : ¬ s.nodeShown = true) : s.nodeKidsWord = 0#32 := if_neg h

theorem State.nodeWeight_shown (h : s.nodeShown = true) : s.nodeWeight = (nodeOf s.arena s.nodeSel).weight := if_pos h

theorem State.nodeWeight_hidden (h : ¬ s.nodeShown = true) : s.nodeWeight = 0#72 := if_neg h

/-! ### The reads, group by group -/

variable (idle : s.busy = false)
include idle

theorem State.reads_errCode {e : ErrCode} {n : Nat} (number : (e, n) ∈ ErrCode.numbers) (h : s.errCode = e) :
    s.Reads 0x014 n := by
  subst h
  exact s.reads_reg idle .errcode (ErrCode.code_of_numbers _ number)

theorem State.reads_pacc : s.Reads 0x05C (s.pbuf.toNat + 2 ^ 8 * s.pcnt.toNat) := by
  refine s.reads_reg idle .pacc ?_
  simp only [State.regValue, toNat_append_fields, BitVec.toNat_ofNat]
  omega

theorem State.reads_uacc : s.Reads 0x060 (s.ubuf.toNat + 2 ^ 8 * s.ucnt.toNat + 2 ^ 16 * s.ucur.toNat) := by
  refine s.reads_reg idle .uacc ?_
  simp only [State.regValue, toNat_append_fields, BitVec.toNat_ofNat]
  omega

theorem State.reads_codeBits (k : Fin 8) :
    ∃ n, s.Reads (0x0A0 + 4 * k.val) n ∧ (¬ s.codeShown = true → n = 0) ∧
      (s.codeShown = true → ∀ j, j < 32 →
        n.testBit (31 - j) = (atSym s.code s.codeSel).getD (32 * k.val + j) false) := by
  refine ⟨_, s.reads_reg idle (.codebits k) rfl, fun hidden => ?_, fun shown j h => ?_⟩
  · rw [State.regValue, State.codeBitsWord_hidden hidden]; rfl
  · rw [State.regValue, State.codeBitsWord_shown shown]
    exact testBit_codeWindow _ _ h

theorem State.reads_node_hidden (h : ¬ s.nodeShown = true) :
    s.Reads 0x070 0 ∧ s.Reads 0x074 0 ∧ s.Reads 0x078 0 ∧ s.Reads 0x07C 0 ∧ s.Reads 0x080 0 := by
  have info : s.nodeInfoWord.toNat = 0 := by rw [State.nodeInfoWord_hidden h]; rfl
  have kids : s.nodeKidsWord.toNat = 0 := by rw [State.nodeKidsWord_hidden h]; rfl
  have weight := State.nodeWeight_hidden h
  exact ⟨s.reads_reg idle .nodeinfo info, s.reads_reg idle .nodekids kids,
    s.reads_reg idle .nodewLo (by rw [State.regValue, weight]; rfl),
    s.reads_reg idle .nodewMid (by rw [State.regValue, weight]; rfl),
    s.reads_reg idle .nodewHi (by rw [State.regValue, weight]; rfl)⟩

theorem State.reads_nodeWeight (h : s.nodeShown = true) :
    s.Reads 0x078 ((nodeOf s.arena s.nodeSel).weight.toNat % 2 ^ 32) ∧
      s.Reads 0x07C ((nodeOf s.arena s.nodeSel).weight.toNat / 2 ^ 32 % 2 ^ 32) ∧
      s.Reads 0x080 ((nodeOf s.arena s.nodeSel).weight.toNat / 2 ^ 64) := by
  rw [← State.nodeWeight_shown h]
  exact ⟨s.reads_reg idle .nodewLo (Weight.low_toNat _), s.reads_reg idle .nodewMid (Weight.mid_toNat _),
    s.reads_reg idle .nodewHi (Weight.high_toNat _)⟩

theorem State.reads_freqLo {b : Symbol} (h : atSym s.fdefLo b = true) :
    s.Reads (0x800 + 8 * b.toNat) ((atSym s.freq b).toNat % 2 ^ 32) :=
  s.reads_reg idle (.freqLo b) (by rw [State.regValue, State.freqLoWord, if_pos h, Count.low_toNat])

theorem State.reads_freqHi {b : Symbol} (h : atSym s.fdefHi b = true) :
    s.Reads (0x800 + 8 * b.toNat + 4) ((atSym s.freq b).toNat / 2 ^ 32) :=
  s.reads_reg idle (.freqHi b) (by rw [State.regValue, State.freqHiWord, if_pos h, Count.high_toNat])

end

/-- Settles O51: each register is found at its offset, and its value as a number is what a defined read answers. -/
theorem registersReadTheirValue : Obligations.RegistersReadTheirValue := by
  refine ⟨Reg.ofOffset_offset, fun s r idle => hostAccess_read_defined (.inl idle), fun s r named => ?_,
    fun s idle => ?_⟩
  · have defined : ∀ r ∈ [Reg.id, .version, .ctrl, .status, .cmd, .src, .slen, .dst, .dlen, .codesel, .nodesel],
        r.definedWhileBusy = true := by decide
    exact hostAccess_read_defined (.inr (defined r named))
  have reads (r : Reg) {n : Nat} (h : (s.regValue r).toNat = n) : s.Reads r.offset n := s.reads_reg idle r h
  dsimp only
  rw [← State.codeShown_iff, ← State.nodeShown_iff]
  refine ⟨?_, fun e n number h => State.reads_errCode idle number h, ?_, ?_, ?_,
    fun b => ⟨State.reads_freqLo idle, State.reads_freqHi idle⟩⟩
  · exact ⟨reads .id rfl, reads .version rfl, reads .ctrl s.ctrlWord_toNat, reads .status rfl, reads .cmd rfl,
      reads .errinfo rfl, reads .src rfl, reads .slen rfl, reads .dst rfl, reads .dlen rfl, reads .rin rfl,
      reads .rout rfl⟩
  · exact ⟨reads .totalLo (Count.low_toNat _), reads .totalHi (Count.high_toNat _),
      reads .uremLo (Count.low_toNat _), reads .uremHi (Count.high_toNat _),
      reads .nsym (BitVec.toNat_setWidth_of_le (by decide)), reads .root (BitVec.toNat_setWidth_of_le (by decide)),
      reads .maxlen (BitVec.toNat_setWidth_of_le (by decide)), reads .fsumLo (Weight.low_toNat _),
      reads .fsumMid (Weight.mid_toNat _), reads .fsumHi (Weight.high_toNat _), State.reads_pacc idle,
      State.reads_uacc idle⟩
  · exact ⟨reads .codesel (BitVec.toNat_setWidth_of_le (by decide)),
      fun shown => reads .codelenR (State.codeLenWord_shown shown),
      fun hidden => reads .codelenR (by rw [State.regValue, State.codeLenWord_hidden hidden]; rfl),
      State.reads_codeBits idle⟩
  · exact ⟨reads .nodesel (BitVec.toNat_setWidth_of_le (by decide)), State.reads_node_hidden idle,
      fun sym w shown node => ⟨reads .nodeinfo (State.nodeInfoWord_leaf shown node),
        reads .nodekids (State.nodeKidsWord_leaf shown node)⟩,
      fun l r w shown node => ⟨reads .nodeinfo (State.nodeInfoWord_internal shown node),
        reads .nodekids (State.nodeKidsWord_internal shown node)⟩,
      State.reads_nodeWeight idle⟩

end Sys2Proof.Machine

/-! SUPPORT. The host's window and the commands' stores (20_memory.md): which accesses are refused or race, what a
window write stores and a window read answers, and where the commands store. -/

namespace Sys2Proof.Machine

/-- Settles O6: the Host's turn, taken from the agenda, is its access. -/
theorem stepPerformsTheHostAccess : Obligations.StepPerformsTheHostAccess := by
  intro s a rest turns
  rw [step, advance, turns]
  rfl

/-! ### Host accesses by where they go -/

section
variable {s : State} {w : Width} {off : Nat}

theorem hostAccess_read (s : State) (w : Width) (off : Nat) :
    hostAccess (.read w off) s = .next ((s.busRead w off).2.answer (s.busRead w off).1) := rfl

theorem hostAccess_write {v : Word} (h : s.races w off = false) :
    hostAccess (.write w off v) s = .next ((s.busWrite w off v).2.answer (s.busWrite w off v).1) := by
  rw [hostAccess, h, if_neg Bool.false_ne_true]

theorem hostAccess_write_fault_iff {v : Word} :
    hostAccess (.write w off v) s = .fault .hostRace ↔ s.races w off = true := by
  cases h : s.races w off with
  | true => simp [hostAccess, h]
  | false => simp [hostAccess_write h]

/-- Only an access to the window can race. -/
theorem State.races_eq_false (h : ∀ a, route s.memBytes w off ≠ .window a) : s.races w off = false := by
  rw [← Bool.not_eq_true, s.races_iff]
  rintro ⟨a, place, -⟩
  exact h a place

/-- An access that reaches nothing in the block is answered by the bus error response, or by nobody. -/
theorem hostAccess_rejected {r : Reply} (v : Word)
    (h : (route s.memBytes w off = .refused ∧ r = .busError) ∨ (route s.memBytes w off = .outside ∧ r = .notDecoded)) :
    hostAccess (.read w off) s = .next (s.answer r) ∧ hostAccess (.write w off v) s = .next (s.answer r) := by
  have quiet : s.races w off = false :=
    State.races_eq_false (by rcases h with ⟨place, -⟩ | ⟨place, -⟩ <;> simp [place])
  rw [hostAccess_read, hostAccess_write quiet, State.busRead, State.busWrite]
  rcases h with ⟨place, rfl⟩ | ⟨place, rfl⟩ <;> rw [place] <;> exact ⟨rfl, rfl⟩

end

/-- Settles O53: each such access is routed to a bus error response, or to nobody. -/
theorem badAccessesHaveNoEffect : Obligations.BadAccessesHaveNoEffect := by
  intro s w off v
  refine ⟨?_, fun outside => hostAccess_rejected v (.inr ⟨route_outside outside, rfl⟩)⟩
  rintro (⟨register, bad⟩ | ⟨window, inside, bad⟩)
  · exact hostAccess_rejected v (.inl ⟨route_refused_register register bad, rfl⟩)
  · exact hostAccess_rejected v (.inl ⟨route_refused_window window inside bad, rfl⟩)

/-- Settles O52: a host read draws free values at most, and with BUSY = 0 it draws none. -/
theorem hostReadsChangeNothing : Obligations.HostReadsChangeNothing := by
  constructor
  · intro s w off
    refine ⟨_, (s.busRead w off).1, hostAccess_read s w off, ?_⟩
    rw [s.busRead_state w off]
    rfl
  · intro s w off idle
    refine ⟨s.idleReply w off, fun turns given => ?_⟩
    have idle' : { s with agenda := turns, replies := given }.busy = false := idle
    rw [hostAccess_read, State.busRead_idle idle', State.idleReply_record]

/-! ### Races -/

/-- The table of 20_memory.md R82 is the read set and the write set together. -/
theorem State.touches_iff (s : State) (a : Nat) (i : Instr) :
    s.touches a i ↔ inArea (s.readArea i) a = true ∨ inArea (s.writeArea i) a = true := by
  simp only [inArea_iff]
  cases i with
  | nop | fclr | build | pinit | uinit => simp [State.touches, State.readArea, State.writeArea]
  | hist => simp only [State.touches, State.readArea, State.writeArea]; omega
  | pack f | unpack f => rfl
  | hdrst | hdrld => simp only [State.touches, State.readArea, State.writeArea, Config.headerBytes]; omega

theorem State.inSets_iff (s : State) (a : Nat) :
    (s.inReadSet a = true ∨ s.inWriteSet a = true) ↔
      s.busy = true ∧ ∃ i, decodeWord s.cmdLast = .ok i ∧ s.touches a i := by
  rw [State.inReadSet, State.inWriteSet]
  cases decodeWord s.cmdLast with
  | error u => simp
  | ok i => simp [s.touches_iff, ← and_or_left]

/-- Settles O56: a race is a window access with a byte in the running command's sets. -/
theorem racingWriteIsHostRace : Obligations.RacingWriteIsHostRace := by
  intro s w off v
  rw [hostAccess_write_fault_iff, s.races_iff]
  constructor
  · rintro ⟨a, place, k, hk, hit⟩
    obtain ⟨low, high, aligned, inside, e⟩ := route_window_iff.1 place
    obtain ⟨run, i, decoded, touched⟩ := (s.inSets_iff _).1 hit
    exact ⟨run, low, high, inside, aligned, i, k, decoded, hk, e ▸ touched⟩
  · rintro ⟨run, low, high, inside, aligned, i, k, decoded, hk, touched⟩
    exact ⟨_, route_window_iff.2 ⟨low, high, aligned, inside, rfl⟩, k, hk,
      (s.inSets_iff _).2 ⟨run, i, decoded, touched⟩⟩

/-! ### What the window stores and answers -/

/-- Byte `k` of a number, byte 0 the least significant (20_memory.md R72), in two spellings. -/
theorem ofNat_div_eq_byte {n : Nat} (v : BitVec n) (k : Nat) :
    BitVec.ofNat 8 (v.toNat / 256 ^ k) = (v >>> (8 * k)).setWidth 8 := by
  apply BitVec.eq_of_toNat_eq
  rw [BitVec.toNat_ofNat, BitVec.toNat_setWidth, BitVec.toNat_ushiftRight, Nat.shiftRight_eq_div_pow, Nat.pow_mul]

theorem areaHolds_writeAll (m : Memory) (a : Nat) (bs : List Byte) : AreaHolds (Memory.writeAll m a bs) a bs := by
  intro k hk
  rw [Memory.read_writeAll, if_pos (by omega), Nat.add_sub_cancel_left, List.getElem?_eq_getElem hk]

theorem Memory.read_writeAll_outside (m : Memory) {a x : Nat} {bs : List Byte} (h : x < a ∨ a + bs.length ≤ x) :
    Memory.read (Memory.writeAll m a bs) x = Memory.read m x := by
  rw [Memory.read_writeAll, if_neg (by omega)]

theorem getElem_leBytes {n k : Nat} (v : Word) (h : k < (leBytes n v.toNat).length) :
    (leBytes n v.toNat)[k] = (v >>> (8 * k)).setWidth 8 := by
  have digit := getElem?_leBytes n v.toNat k (by simpa using h)
  rw [List.getElem?_eq_getElem h, ofNat_div_eq_byte] at digit
  exact Option.some.inj digit

section
variable {s : State} {w : Width} {a : Nat}

theorem hostAccess_write_window {off : Nat} {v : Word} (place : route s.memBytes w off = .window a)
    (quiet : s.races w off = false) :
    hostAccess (.write w off v) s = .next ((s.writeBytes a (leBytes w.bytes v.toNat)).answer .done) := by
  rw [hostAccess_write quiet, State.busWrite, place]

/-- A read of defined bytes outside the running command's write set answers them, least significant first. -/
theorem hostAccess_read_window {off : Nat} {bs : List Byte} (place : route s.memBytes w off = .window a)
    (len : bs.length = w.bytes) (free : ∀ k, k < w.bytes → s.inWriteSet (a + k) = false) (holds : AreaHolds s.mem a bs) :
    hostAccess (.read w off) s = .next (s.answer (.value (BitVec.ofNat 32 (leValue bs)))) := by
  have bytes : State.windowBytes w.bytes a s = (bs, s) := by
    rw [← len]
    exact State.windowBytes_defined bs a fun k hk => ⟨free k (len ▸ hk), holds k hk⟩
  rw [hostAccess_read, State.busRead, place]
  simp only [bytes]

/-- The window reaches every aligned place of buffer memory: no size of 00_scope.md R7 exceeds it. -/
theorem State.sizeOk.route_window (size : s.sizeOk) (inside : a < s.memBytes) (aligned : a % w.bytes = 0) :
    route s.memBytes w (0x100000 + a) = .window a := by
  have fits : ∀ m ∈ Config.memSizes, m ≤ 0x100000 := by decide
  have bound : s.memBytes ≤ 0x100000 := fits _ (List.contains_iff_mem.1 size)
  have aligned' : (0x100000 + a) % w.bytes = 0 := by cases w <;> simp only [Width.bytes] at aligned ⊢ <;> omega
  exact route_window_iff.2 ⟨by omega, by omega, aligned', by omega, by omega⟩

end

/-- Settles O55: the write is no race and stores its bytes; the read finds them, as neither changes the command's
sets. -/
theorem windowReadsBackWhatWasWritten : Obligations.WindowReadsBackWhatWasWritten := by
  intro s w a v apart size inside aligned
  have place := size.route_window inside aligned
  have free : ∀ k, k < w.bytes → ¬ (s.inReadSet (a + k) = true ∨ s.inWriteSet (a + k) = true) := by
    intro k hk
    rw [s.inSets_iff]
    rintro ⟨run, i, decoded, touched⟩
    exact apart i k run decoded hk touched
  have quiet : s.races w (0x100000 + a) = false := by
    rw [← Bool.not_eq_true, s.races_iff]
    rintro ⟨b, place', k, hk, hit⟩
    rw [place] at place'
    injection place' with e
    exact free k hk (e ▸ hit)
  have len := length_leBytes w.bytes v.toNat
  have stored := areaHolds_writeAll s.mem a (leBytes w.bytes v.toNat)
  refine ⟨_, hostAccess_write_window place quiet, fun k hk => ?_, fun x outside => ?_, rfl, ?_⟩
  · rw [← getElem_leBytes v (len.symm ▸ hk)]
    exact stored k _
  · exact Memory.read_writeAll_outside s.mem (len.symm ▸ outside)
  · have value : leValue (leBytes w.bytes v.toNat) = v.toNat % 2 ^ (8 * w.bytes) := by
      rw [leValue_leBytes, Nat.pow_mul]
    rw [← value]
    refine hostAccess_read_window place len (fun k hk => ?_) stored
    have outside : s.inWriteSet (a + k) = false := by simpa using fun h => free k hk (.inr h)
    exact outside

/-! ### Where the commands store -/

/-- A command's stores are bytes from the start of its write set on, and end within it (20_memory.md R82). -/
def StoresWithin (i : Instr) (s t : State) : Prop :=
  ∃ ys : List Byte, t.mem = Memory.writeAll s.mem (s.writeArea i).1 ys ∧
    (s.writeArea i).1 + ys.length ≤ (s.writeArea i).2

theorem StoresWithin.outside {i : Instr} {s t : State} (h : StoresWithin i s t) {a : Nat}
    (ha : inArea (s.writeArea i) a = false) : Memory.read t.mem a = Memory.read s.mem a := by
  obtain ⟨ys, mem, fit⟩ := h
  rw [← Bool.not_eq_true, inArea_iff] at ha
  rw [mem, Memory.read_writeAll_outside _ (by omega)]

section
variable {s t : State}

theorem exec_storesWithin {i : Instr} (ok : s.packOk) (e : exec i s = .next t) : StoresWithin i s t := by
  have nothing (mem : t.mem = s.mem) (le : (s.writeArea i).1 ≤ (s.writeArea i).2) : StoresWithin i s t := ⟨[], mem, le⟩
  cases i with
  | nop => injection e with e; exact nothing (by rw [← e]; rfl) le_rfl
  | fclr => exact nothing (by rw [execFclr_state e]) le_rfl
  | hist => exact nothing (by rw [(execHist_changes e).1.state]) le_rfl
  | hdrld => exact nothing (by rw [(execHdrld_changes e).1.state]) le_rfl
  | build => exact nothing (by rw [(execBuild_changes e).1.1]) le_rfl
  | uinit => exact nothing (by rw [execUinit_state e]) le_rfl
  | pinit => exact nothing (by rw [execPinit_state e]) le_rfl
  | pack f =>
    obtain ⟨-, ys, len, mem, -⟩ := execPack_stores ok e
    exact ⟨ys, mem, Nat.add_le_add_left len _⟩
  | unpack f =>
    obtain ⟨-, -, -, -, ys, len, mem, -⟩ := execUnpack_changes e
    exact ⟨ys, mem, Nat.add_le_add_left len _⟩
  | hdrst =>
    obtain ⟨-, -, mem | ⟨ys, len, mem, room, -⟩⟩ := execHdrst_changes e
    · exact nothing mem (Nat.le_add_right _ _)
    · refine ⟨ys, mem, Nat.add_le_add_left ?_ _⟩
      rw [len]
      exact le_min room le_rfl

theorem exec_extent {i : Instr} (ok : s.packOk) (hi : s.rin = 0#32) (ho : s.rout = 0#32)
    (e : exec i s = .next t) : Extent s t := by
  cases i with
  | nop => injection e with e; rw [← e]; exact .still hi ho rfl rfl rfl
  | fclr => rw [execFclr_state e]; exact .still hi ho rfl rfl rfl
  | hist => exact execHist_extent hi ho e
  | hdrld => exact execHdrld_extent hi ho e
  | build => rw [(execBuild_changes e).1.1]; exact .still hi ho rfl rfl rfl
  | uinit => rw [execUinit_state e]; exact .still hi ho rfl rfl rfl
  | pinit => rw [execPinit_state e]; exact .still hi ho rfl rfl rfl
  | pack f => exact execPack_extent ok hi ho e
  | unpack f => exact execUnpack_extent hi ho e
  | hdrst => exact execHdrst_extent hi ho e

end

/-- Settles O41: by where each command stores and how far it reaches. -/
theorem commandsStoreOnlyInTheirWriteSet : Obligations.CommandsStoreOnlyInTheirWriteSet := by
  intro i s t ok e
  refine ⟨fun a => (exec_storesWithin ok e).outside, fun hi ho => ?_⟩
  have reach := exec_extent ok hi ho e
  exact ⟨reach.rin, reach.rout, fun a => reach.outside⟩

end Sys2Proof.Machine

/-! SUPPORT. The decoder and the encoder (30_encoding.md R101 to R104): what each check on a word says, that decoding
and encoding are inverse, and what the Engine's turn makes of a word. -/

namespace Sys2Proof

/-! ### Words, field by field -/

/-- A word is its fields RSV, F and OPC, from the most significant end. -/
theorem word_eq_fields (w : Word) : w = wordRsv w ++ (BitVec.ofBool (wordF w) ++ wordOpc w) := by
  apply BitVec.eq_of_getLsbD_eq
  intro k hk
  simp only [wordRsv, wordF, wordOpc, BitVec.getLsbD_append, BitVec.getLsbD_setWidth, BitVec.getLsbD_ushiftRight,
    BitVec.getLsbD_ofBool]
  rcases Nat.lt_trichotomy k 8 with opc | rfl | rsv
  · simp [opc, show k < 9 by omega]
  · simp
  · simp [show ¬ k < 9 by omega, show k - 9 < 23 by omega, show 9 + (k - 9) = k by omega]

theorem opcodeAssigned_iff (w : Word) : opcodeAssigned w = true ↔ w.toNat % 256 < 0x0A := by
  simp only [opcodeAssigned, wordOpc, decide_eq_true_eq, BitVec.le_def, BitVec.toNat_setWidth, BitVec.toNat_ofNat]
  omega

theorem reservedClear_iff (w : Word) : reservedClear w = true ↔ w.toNat / 512 = 0 := by
  have := w.isLt
  simp only [reservedClear, wordRsv, beq_iff_eq, ← BitVec.toNat_inj, BitVec.toNat_setWidth, BitVec.toNat_ushiftRight,
    Nat.shiftRight_eq_div_pow, BitVec.toNat_ofNat]
  omega

theorem wordOpc_eq_iff (w : Word) (opc : Byte) : wordOpc w = opc ↔ w.toNat % 256 = opc.toNat := by
  rw [← BitVec.toNat_inj, wordOpc, BitVec.toNat_setWidth]

theorem flagAllowed_iff (w : Word) :
    flagAllowed w = true ↔ w.getLsbD 8 = false ∨ w.toNat % 256 = 0x04 ∨ w.toNat % 256 = 0x05 := by
  simp [flagAllowed, wordF, wordOpc_eq_iff, or_assoc]

/-- The three cases of 30_encoding.md R104, on the number that the word is. -/
theorem wordWellFormed_iff (w : Word) :
    wordWellFormed w = true ↔
      ¬(0x0A ≤ w.toNat % 256 ∨ w.toNat / 512 ≠ 0 ∨
        (w.getLsbD 8 = true ∧ w.toNat % 256 ≠ 0x04 ∧ w.toNat % 256 ≠ 0x05)) := by
  simp only [wordWellFormed, Bool.and_eq_true, opcodeAssigned_iff, reservedClear_iff, flagAllowed_iff]
  cases w.getLsbD 8 with
  | false => simp
  | true => simp; omega

/-! ### The row of an opcode -/

/-- Every assigned opcode selects a row of 30_encoding.md R102. -/
theorem exists_instrOfOpcode {n : Nat} (assigned : n < 0x0A) (f : Bool) : ∃ i, instrOfOpcode n f = .ok i := by
  interval_cases n <;> exact ⟨_, rfl⟩

/-- An opcode's row is that opcode's, and carries the F bit where it has one. -/
theorem instrOfOpcode_ok {n : Nat} {f : Bool} {i : Instr} (h : instrOfOpcode n f = .ok i) :
    i.opcode.toNat = n ∧ (i.flag = f ∨ (i.flag = false ∧ n ≠ 0x04 ∧ n ≠ 0x05)) := by
  unfold instrOfOpcode at h
  split at h <;> cases h <;> simp [Instr.opcode, Instr.flag]

theorem instrOfOpcode_opcode (i : Instr) : instrOfOpcode i.opcode.toNat i.flag = .ok i := by
  cases i <;> rfl

/-! ### Decoding -/

theorem decodeWord_wellFormed {w : Word} (h : wordWellFormed w = true) :
    decodeWord w = instrOfOpcode (wordOpc w).toNat (wordF w) := by
  simp only [wordWellFormed, Bool.and_eq_true] at h
  obtain ⟨⟨opcode, reserved⟩, flag⟩ := h
  simp [decodeWord, opcode, reserved, flag]

theorem exists_decodeWord_error {w : Word} (h : wordWellFormed w = false) : ∃ u, decodeWord w = .error u := by
  unfold decodeWord
  split_ifs with opcode reserved flag
  · exact ⟨_, rfl⟩
  · exact ⟨_, rfl⟩
  · exact ⟨_, rfl⟩
  · simp_all [wordWellFormed]

theorem exists_decodeWord_ok {w : Word} (h : wordWellFormed w = true) : ∃ i, decodeWord w = .ok i := by
  rw [decodeWord_wellFormed h]
  refine exists_instrOfOpcode ?_ _
  simp only [wordWellFormed, Bool.and_eq_true, opcodeAssigned_iff] at h
  simpa [wordOpc] using h.1.1

theorem wordWellFormed_of_decodeWord {w : Word} {i : Instr} (h : decodeWord w = .ok i) : wordWellFormed w = true := by
  by_contra bad
  obtain ⟨u, e⟩ := exists_decodeWord_error (by simpa using bad)
  rw [e] at h
  exact absurd h nofun

theorem encode_fields (i : Instr) : Laws.EncodedWord.Statement i := by
  cases i with
  | nop => exact Laws.EncodedWord.nop
  | fclr => exact Laws.EncodedWord.fclr
  | hist => exact Laws.EncodedWord.hist
  | build => exact Laws.EncodedWord.build
  | pack f => exact Laws.EncodedWord.pack f
  | unpack f => exact Laws.EncodedWord.unpack f
  | uinit => exact Laws.EncodedWord.uinit
  | pinit => exact Laws.EncodedWord.pinit
  | hdrst => exact Laws.EncodedWord.hdrst
  | hdrld => exact Laws.EncodedWord.hdrld

theorem decodeWord_encode (i : Instr) : decodeWord (encode i) = .ok i := by
  obtain ⟨wellFormed, opcode, flag, -⟩ := encode_fields i
  rw [decodeWord_wellFormed wellFormed, opcode, flag, instrOfOpcode_opcode]

/-- The fields of a word that decodes are those of the command's word: RSV is 0, OPC selects the row, and F is the
command's, being 0 where the row has no such bit. -/
theorem eq_encode_of_decodeWord {w : Word} {i : Instr} (h : decodeWord w = .ok i) : w = encode i := by
  have wellFormed := wordWellFormed_of_decodeWord h
  rw [decodeWord_wellFormed wellFormed] at h
  obtain ⟨opcode, flag⟩ := instrOfOpcode_ok h
  simp only [wordWellFormed, Bool.and_eq_true] at wellFormed
  obtain ⟨⟨-, reserved⟩, allowed⟩ := wellFormed
  have rsv : wordRsv w = 0#23 := by simpa [reservedClear] using reserved
  have opc : wordOpc w = i.opcode := (BitVec.eq_of_toNat_eq opcode).symm
  have f : wordF w = i.flag := by
    rcases flag with same | ⟨clear, notPack, notUnpack⟩
    · exact same.symm
    · rw [wordOpc, BitVec.toNat_setWidth] at notPack notUnpack
      rw [clear]
      exact ((flagAllowed_iff w).1 allowed).resolve_right (by omega)
  rw [word_eq_fields w, rsv, opc, f, encode]

/-- Settles O1: `decodeWord` and `encode` are inverse to each other. -/
theorem decodeAcceptsExactlyTheEncodings : Obligations.DecodeAcceptsExactlyTheEncodings := by
  intro w i
  exact ⟨eq_encode_of_decodeWord, fun e => e ▸ decodeWord_encode i⟩

/-- Settles O2, word by word. -/
theorem sampleWordsDecode : Obligations.SampleWordsDecode := by
  unfold Obligations.SampleWordsDecode
  decide

namespace Machine

/-! ### The Engine's turn -/

theorem step_engine {s : State} {rest : List Turn} (run : s.busy = true) (next : s.agenda = .engine :: rest) :
    step s = engineStep { s with agenda := rest } := by
  simp only [step, advance, next, takeTurn, run, if_true]

theorem engineStep_ok {s : State} {i : Instr} (h : decodeWord s.cmdLast = .ok i) : engineStep s = exec i s := by
  simp only [engineStep, h]

theorem engineStep_error {s : State} {u : Undecodable} (h : decodeWord s.cmdLast = .error u) :
    engineStep s = .next (s.raise .badCmd 0#32) := by
  simp only [engineStep, h]

/-- Settles O3: the three cases are the words that are not well-formed, and those are the words that do not decode. -/
theorem badcmdExactlyOnReservedWords : Obligations.BadcmdExactlyOnReservedWords := by
  intro s rest run next w
  rw [step_engine run next, ← wordWellFormed_iff]
  constructor
  · intro reserved
    obtain ⟨u, e⟩ := exists_decodeWord_error
      (Bool.eq_false_iff.2 fun wellFormed => (wordWellFormed_iff w).1 wellFormed reserved)
    exact engineStep_error e
  · intro wellFormed
    obtain ⟨i, e⟩ := exists_decodeWord_ok wellFormed
    refine ⟨i, fun j => ?_, engineStep_ok e⟩
    rw [e, Except.ok.injEq, eq_comm]

end Machine
end Sys2Proof

/-! SUPPORT. PACK.F and UNPACK as functions of bits that undo each other (30_encoding.md R108): what PACK.F writes are
the codes of the symbols and fewer than eight padding bits, and UNPACK over bits that start with the codes of symbols
writes those symbols. -/

namespace Sys2Proof.Machine

/-! ### Codes and the walk -/

/-- Bits that lead to a leaf are taken whole, and none behind them. -/
theorem descend_of_follow {arena : Vector Node 511} {h g : Handle} {sym : Symbol} {w : Weight} {bits : List Bool}
    (path : follow arena h bits = some g) (leaf : nodeOf arena g = .leaf sym w) (rest : List Bool) :
    descend arena h (bits ++ rest) = (g, rest) := by
  induction bits generalizing h with
  | nil =>
    injection path with path
    subst path
    cases rest with
    | nil => rfl
    | cons b bs => rw [List.nil_append, descend, leaf]
  | cons b bs ih =>
    rw [follow] at path
    rw [List.cons_append, descend]
    cases node : nodeOf arena h with
    | leaf _ _ => rw [node] at path; exact absurd path nofun
    | internal l r _ => rw [node] at path; exact ih path

/-- The walk over codes that lead to their leaves finds their symbols, and ends at the root behind the codes. -/
theorem walk_codesOf {s : State} {xs : List Symbol} (leads : ∀ x ∈ xs, s.leadsToLeaf x) (rest : List Bool) :
    walk s.arena s.root xs.length s.root (s.codesOf xs ++ rest) = (xs, s.root, rest) := by
  induction xs with
  | nil => rfl
  | cons x xs ih =>
    obtain ⟨⟨g, w, path, leaf⟩, others⟩ := List.forall_mem_cons.1 leads
    have codes : s.codesOf (x :: xs) ++ rest = atSym s.code x ++ (s.codesOf xs ++ rest) := by simp [State.codesOf]
    rw [codes, List.length_cons, walk, descend_of_follow path leaf]
    simp only [leaf, ih others]

/-! ### PACK.F -/

/-- The pending bits and the zero bits behind them are the bits of the byte that flush writes (42_bitcodec.md R165). -/
theorem bitsOfByte_paddedByte {s : State} (ok : s.packOk) :
    bitsOfByte (paddedByte s) = s.pending ++ List.replicate (8 - s.pcnt.toNat) false :=
  bitsOfByte_shiftLeft s.pbuf (by have := ok.1; omega)

/-- Flush with room for the pending bits: they are written, padded to a byte, behind the bytes `ys` written before. -/
theorem flushAndComplete_fits {y : Packing} {m : Memory} {ys : List Byte} (ok : y.1.packOk) (out : y.2 = ys.length)
    (rout : y.1.rout.toNat = ys.length) (mem : y.1.mem = Memory.writeAll m y.1.lDst.toNat ys)
    (room : y.2 + (y.1.pcnt.toNat + 7) / 8 ≤ y.1.lDlen.toNat) :
    ∃ (zs : List Byte) (pad : Nat), (flushAndComplete true y).mem = Memory.writeAll m y.1.lDst.toNat zs ∧
      (flushAndComplete true y).rout.toNat = zs.length ∧ pad ≤ 7 ∧
      zs.flatMap bitsOfByte = ys.flatMap bitsOfByte ++ y.1.pending ++ List.replicate pad false := by
  unfold flushAndComplete
  by_cases empty : y.1.pcnt = 0#4
  · rw [if_neg (by simp [empty])]
    exact ⟨ys, 0, mem, rout, by omega, by simp [State.pending, empty, rightBits]⟩
  · have some_pending := toNat_ne_zero empty
    have no_error : ¬ y.2 + 1 > y.1.lDlen.toNat := by omega
    rw [if_pos (by simp [empty]), if_neg no_error]
    refine ⟨ys ++ [paddedByte y.1], 8 - y.1.pcnt.toNat, ?_, ?_, by omega, ?_⟩
    · simp [putByte, State.writeByte, mem, out, Memory.writeAll_append, Memory.writeAll]
    · rw [List.length_append, ← out]
      exact toNat_ofNat_le (w := y.1.lDlen) (by omega)
    · simp [bitsOfByte_paddedByte ok]

/-- PACK.F of defined symbols that have codes, with room for their bytes (42_bitcodec.md R163, R165): the bytes written
are the pending bits, the codes in order, and fewer than eight zero bits. -/
theorem packAll_flushes {s : State} {xs : List Symbol} (fit : s.areasFit) (len : xs.length = s.lSlen.toNat)
    (input : AreaHolds s.mem s.lSrc.toNat xs) (coded : ∀ x ∈ xs, atSym s.codeV x = true) (ok : s.packOk)
    (rout : s.rout = 0#32) (room : (s.pcnt.toNat + (s.codesOf xs).length + 7) / 8 ≤ s.lDlen.toNat) :
    ∃ (ys : List Byte) (pad : Nat), (packAll true s).mem = Memory.writeAll s.mem s.lDst.toNat ys ∧
      (packAll true s).rout.toNat = ys.length ∧ pad ≤ 7 ∧
      ys.flatMap bitsOfByte = s.pending ++ s.codesOf xs ++ List.replicate pad false := by
  have apart : ∀ j, j < xs.length → s.lSrc.toNat + (0 + j) < s.lDst.toNat + 0 ∨
      s.lDst.toNat + s.lDlen.toNat ≤ s.lSrc.toNat + (0 + j) := by
    obtain ⟨-, -, disjoint⟩ := fit
    omega
  obtain ⟨y, ys, loop, ⟨appended, -⟩⟩ := packLoop_encodes xs 0 (s, 0)
    (fun j hj => by rw [Nat.zero_add]; exact input j hj) apart coded ok (by dsimp only; omega)
  obtain ⟨written, pending⟩ := appended.count
  have out : y.2 = ys.length := by simpa using appended.out
  have lDst : y.1.lDst = s.lDst := by rw [appended.state]
  have lDlen : y.1.lDlen = s.lDlen := by rw [appended.state]
  have mem : y.1.mem = Memory.writeAll s.mem y.1.lDst.toNat ys := by rw [appended.state]; rfl
  have rout' : y.1.rout = if ys = [] then s.rout else BitVec.ofNat 32 ys.length := by
    rw [appended.state]; simp
  have counted : y.1.rout.toNat = ys.length := by
    rw [rout']
    split_ifs with none
    · rw [rout, none]; rfl
    · exact toNat_ofNat_le (w := s.lDlen) (by dsimp only at written; omega)
  have all : packAll true s = flushAndComplete true y := by
    rw [packAll, ← len, loop]; rfl
  obtain ⟨zs, pad, h⟩ := flushAndComplete_fits appended.ok out counted mem
    (by dsimp only at written pending; rw [lDlen]; omega)
  rw [← all, lDst, appended.bits] at h
  exact ⟨zs, pad, h⟩

/-! ### UNPACK -/

/-- From the 0 that acceptance leaves in it, ROUT counts the symbols written. -/
theorem Moved.rout_toNat {s : State} {x : Walk} (moved : Moved s x) (rout : s.rout = 0#32) :
    x.st.rout.toNat = x.out := by
  rw [moved.rout]
  split_ifs with none
  · rw [rout, none]; rfl
  · exact toNat_ofNat_le moved.out

section
variable {s : State} {bs : List Byte} {xs : List Symbol} {rest : List Bool} (fit : s.areasFit)
  (valid : s.uvalid = true) (root : s.ucur = s.root) (ucnt : s.ucnt.toNat ≤ 8) (len : bs.length = s.lSlen.toNat)
  (input : AreaHolds s.mem s.lSrc.toNat bs) (leads : ∀ x ∈ xs, s.leadsToLeaf x)
  (bits : rightBits s.ubuf s.ucnt.toNat ++ bs.flatMap bitsOfByte = s.codesOf xs ++ rest)
  (count : s.urem.toNat = xs.length) (room : xs.length ≤ s.lDlen.toNat)
include fit valid root ucnt len input leads bits count room

/-- From the root, over bits that start with the codes of `xs`, where `xs` is what is left to emit and fits the output
area, the loop ends by the count with exactly `xs` written, whatever bits follow. -/
theorem unpackLoop_codesOf :
    ∃ x : Walk, unpackLoop (unpackBound s) { st := s, inp := 0, out := 0 } = x ∧ Moved s x ∧ Walked s bs x xs ∧
      x.begun ∧ x.bits bs = rest ∧ x.st.urem = 0#64 := by
  obtain ⟨x, y, syms, loop, moved, begun, walked, found, left⟩ :=
    unpackLoop_walks fit valid ⟨ucnt, fun _ => .inl root⟩ len input
  rw [bits, root, count, Nat.min_eq_left room, walk_codesOf leads] at found
  obtain ⟨rfl, -, unread⟩ : xs = syms ∧ s.root = x.st.ucur ∧ rest = x.bits bs := by simpa using found
  have emitted : x.st.urem = 0#64 := by
    have := moved.urem
    have := walked.out
    exact BitVec.eq_of_toNat_eq (by rw [BitVec.toNat_ofNat]; omega)
  obtain ⟨rfl, -⟩ | ⟨-, more, -⟩ | ⟨-, more, -⟩ := left
  · exact ⟨y, loop, moved, walked, begun, unread.symm, emitted⟩
  · exact absurd emitted more
  · exact absurd emitted more

/-- UNPACK.F over such bits completes with exactly `xs` written (30_encoding.md R108). -/
theorem unpackAll_codesOf (needIn : s.needIn = false) (rout : s.rout = 0#32) :
    (unpackAll true s).mem = Memory.writeAll s.mem s.lDst.toNat xs ∧ (unpackAll true s).rout.toNat = xs.length ∧
      (unpackAll true s).urem = 0#64 ∧ (unpackAll true s).err = s.err := by
  obtain ⟨x, loop, moved, walked, -, -, done⟩ :=
    unpackLoop_codesOf fit valid root ucnt len input leads bits count room
  have quiet : x.st.needIn = false := by rw [moved.state]; exact needIn
  have err : x.st.err = s.err := by rw [moved.state]
  have finish : unpackAll true s = ({ x.st with ucnt := 0#4 }).complete := by
    rw [unpackAll, loop, finishUnpack, if_neg (by simp [quiet]), if_pos ⟨done, rfl⟩]
  rw [finish]
  exact ⟨walked.mem, (moved.rout_toNat rout).trans walked.out, done, err⟩

end

/-! ### The round trip -/

/-- Settles O31: the bytes PACK.F writes are the codes and padding, and UNPACK.F over them finds the symbols. -/
theorem unpackInvertsPack : Obligations.UnpackInvertsPack := by
  intro s xs fit tree nsym len input coded pbuf pcnt _ rout room
  have ok : s.packOk := by simp [State.packOk, pbuf, pcnt]
  have pack : execPack true s = .next (packAll true s) :=
    execPack_passes fit (.inr (by simp [State.hasTree, tree, nsym]))
  obtain ⟨ys, pad, stored, written, -, bits⟩ := packAll_flushes fit len input (fun x hx => (coded x hx).1) ok rout
    (by rw [pcnt]; simpa using room)
  have same := (execPack_changes pack).1.state
  refine ⟨_, (exec_pack true s).trans pack, ?_⟩
  intro u mem arena code root lSrc lSlen fit' valid cursor ucnt urem room' needIn _ _ rout'
  have arena' : u.arena = s.arena := by rw [arena, same]
  have code' : u.code = s.code := by rw [code, same]
  have root' : u.root = s.root := by rw [root, same]
  have leads : ∀ x ∈ xs, u.leadsToLeaf x := fun x hx => by
    simpa only [State.leadsToLeaf, arena', code', root'] using (coded x hx).2
  have payload : AreaHolds u.mem u.lSrc.toNat ys := by
    rw [mem, stored, lSrc]; exact areaHolds_writeAll _ _ _
  have bits' : rightBits u.ubuf u.ucnt.toNat ++ ys.flatMap bitsOfByte =
      u.codesOf xs ++ List.replicate pad false := by
    rw [bits]
    simp [ucnt, State.pending, pcnt, rightBits, State.codesOf, code']
  obtain ⟨output, counted, done, err⟩ := unpackAll_codesOf fit' valid cursor (by simp [ucnt])
    (by rw [lSlen, written]) payload leads bits' urem room' needIn rout'
  refine ⟨_, (exec_unpack true u).trans (execUnpack_passes fit' valid), ?_, counted, done, err⟩
  rw [output]
  exact areaHolds_writeAll _ _ _

end Sys2Proof.Machine

/-! SUPPORT. FCLR and HIST whole (40_frequency.md R121 to R125): what the table, TOTAL and RIN hold when HIST completes,
when it stops at a byte it cannot count, and that the sum of FREQ stays TOTAL. -/

namespace Sys2Proof.Machine

/-! ### FCLR -/

/-- Settles O9: FCLR's writes and its completion touch different fields. -/
theorem fclrClearsTheTable : Obligations.FclrClearsTheTable := by
  intro s
  rw [exec_fclr]
  rfl

/-! ### HIST counts -/

/-- The first bytes of an area. -/
theorem AreaHolds.of_append {m : Memory} {a : Nat} {bs cs : List Byte} (h : AreaHolds m a (bs ++ cs)) :
    AreaHolds m a bs := by
  intro k hk
  rw [h k (by rw [List.length_append]; omega), List.getElem_append_left hk]

/-- Over an input area inside memory HIST gets to its loop. -/
theorem execHist_passes {s : State} (fit : s.lSrc.toNat + s.lSlen.toNat ≤ s.memBytes) :
    execHist s = .next (histCount s) := by
  have inside : ¬ s.inputBeyond = true := by rw [s.inputBeyond_iff]; omega
  rw [execHist, if_neg inside]

/-- `x` is `s` after HIST has counted the bytes `bs`: their occurrences are in FREQ, their number is in TOTAL and RIN,
the validity bits are clear, and all else is as before. -/
structure Counted (s : State) (bs : List Byte) (x : State) : Prop where
  freq : ∀ b, (atSym x.freq b).toNat = (atSym s.freq b).toNat + bs.count b
  total : x.total.toNat = s.total.toNat + bs.length
  state : x = { s with
    freq := x.freq, total := x.total, treeValid := false, uvalid := false, rin := BitVec.ofNat 32 bs.length }

section
variable {s : State} {bs : List Byte}
  (defined : s.allFreqDefined = true) (rin : s.rin = 0#32)
  (room : bs = [] ∨ s.total.toNat + bs.length ≤ 2 ^ 63 - 1)
  (counts : ∀ b, (atSym s.freq b).toNat + bs.count b ≤ 2 ^ 64 - 1)
include defined rin room counts

/-- The loop from its start over bytes that all can be counted. -/
theorem histLoop_counted (input : AreaHolds s.mem s.lSrc.toNat bs) :
    ∃ x, forElems histByte bs.length 0 s.invalidate = .going x ∧ Counted s bs x := by
  obtain ⟨x, loop, freq, total, state⟩ := histLoop_counts bs 0 s.invalidate
    (fun j hj => by rw [Nat.zero_add]; exact input j hj) defined room counts
  have count : (if bs = [] then s.rin else BitVec.ofNat 32 (0 + bs.length)) = BitVec.ofNat 32 bs.length := by
    split_ifs with none
    · rw [rin, none]; rfl
    · rw [Nat.zero_add]
  exact ⟨x, loop, freq, total, state.trans (by rw [State.invalidate_rin, count]; rfl)⟩

/-- HIST over bytes that all can be counted completes with all of them counted. -/
theorem histCount_completes (input : AreaHolds s.mem s.lSrc.toNat bs) (len : bs.length = s.lSlen.toNat) :
    ∃ x, Counted s bs x ∧ histCount s = x.complete := by
  obtain ⟨x, loop, counted⟩ := histLoop_counted defined rin room counts input
  exact ⟨x, counted, by rw [histCount, ← len, loop]; rfl⟩

/-- HIST stops at a byte `b` it cannot count behind bytes `bs` that it can, which stay counted. -/
theorem histCount_overflows {b : Byte} (input : AreaHolds s.mem s.lSrc.toNat (bs ++ [b]))
    (more : bs.length < s.lSlen.toNat)
    (full : 2 ^ 63 - 1 ≤ s.total.toNat + bs.length ∨ (atSym s.freq b).toNat + bs.count b = 2 ^ 64 - 1) :
    ∃ x, Counted s bs x ∧ histCount s = x.raise .overflow (BitVec.ofNat 32 bs.length) := by
  obtain ⟨x, loop, counted⟩ := histLoop_counted defined rin room counts input.of_append
  have next : Memory.read x.mem (x.lSrc.toNat + bs.length) = some b := by
    rw [counted.state]
    simpa using input bs.length (by simp)
  have defined' : x.allFreqDefined = true := by rw [counted.state]; exact defined
  have stop : histByte bs.length x = .ended (x.raise .overflow (BitVec.ofNat 32 bs.length)) := by
    rw [histByte_defined next defined', if_pos]
    rwa [countFull_iff, counted.total, counted.freq]
  obtain ⟨rest, split⟩ : ∃ rest, s.lSlen.toNat = bs.length + (rest + 1) :=
    ⟨s.lSlen.toNat - bs.length - 1, by omega⟩
  refine ⟨x, counted, ?_⟩
  rw [histCount, split, forElems_add, loop]
  simp only [Nat.zero_add, forElems, stop]
  rfl

end

/-- Settles O12: the area passes the RANGE check, and the loop over it counts every byte. -/
theorem histCountsTheBytes : Obligations.HistCountsTheBytes := by
  intro s bs fit len input defined rin room counts
  obtain ⟨x, counted, done⟩ := histCount_completes defined rin (.inr room) counts input len
  refine ⟨x.complete, ?_, counted.freq, counted.total, ?_⟩
  · rw [exec_hist, execHist_passes fit, done]
  · rw [counted.state, len, BitVec.ofNat_toNat, BitVec.setWidth_eq]
    rfl

/-- Settles O13: the RANGE check comes before the loop, and the loop ends at the first byte that cannot be counted. -/
theorem histStopsAtTheFirstOverflow : Obligations.HistStopsAtTheFirstOverflow := by
  refine ⟨fun s beyond => ?_, fun s bs b fit more input defined rin room counts full => ?_⟩
  · rw [exec_hist, execHist, if_pos (s.inputBeyond_iff.2 beyond)]
    rfl
  · obtain ⟨x, counted, stopped⟩ := histCount_overflows defined rin room counts input more full
    refine ⟨x.raise .overflow (BitVec.ofNat 32 bs.length), ?_, counted.freq, counted.total, ?_⟩
    · rw [exec_hist, execHist_passes fit, stopped]
    · rw [counted.state]
      rfl

/-! ### HIST keeps the sum -/

/-- Replacing one count takes the old one out of the sum and puts the new one in. -/
theorem sumOf_setSym (v : Vector Count 256) (b : Symbol) (c : Count) :
    sumOf (setSym v b c) + (atSym v b).toNat = sumOf v + c.toNat := by
  have inside : b.toNat < (v.toList.map BitVec.toNat).length := by simpa using b.isLt
  have around (n : Nat) := List.sum_set (v.toList.map BitVec.toNat) b.toNat n
  have old := around (v.toList.map BitVec.toNat)[b.toNat]
  have new := around c.toNat
  rw [List.set_getElem_self, if_pos inside] at old
  rw [if_pos inside] at new
  simp only [sumOf, setSym, atSym, Vector.toList_set, List.map_set, List.getElem_map, Vector.getElem_toList]
    at old new ⊢
  omega

/-- The table is defined and its counts sum to TOTAL: what HIST keeps (40_frequency.md R125). -/
def State.Tallied (s : State) : Prop := s.allFreqDefined = true ∧ sumOf s.freq = s.total.toNat

/-- A byte that can be counted adds 1 to its count and 1 to TOTAL, and neither wraps. -/
theorem State.Tallied.count {s : State} (h : s.Tallied) {b : Symbol}
    (room : ¬ countFull s.total (atSym s.freq b) = true) (r : Word) :
    State.Tallied { s.writeFreq b (atSym s.freq b + 1#64) with total := s.total + 1#64, rin := r } := by
  obtain ⟨defined, sum⟩ := h
  rw [countFull_iff] at room
  have total : (s.total + 1#64).toNat = s.total.toNat + 1 :=
    BitVec.toNat_add_of_lt (by rw [BitVec.toNat_ofNat]; omega)
  have freq : (atSym s.freq b + 1#64).toNat = (atSym s.freq b).toNat + 1 :=
    BitVec.toNat_add_of_lt (by rw [BitVec.toNat_ofNat]; have := (atSym s.freq b).isLt; omega)
  have moved := sumOf_setSym s.freq b (atSym s.freq b + 1#64)
  rw [State.writeFreq_defined defined]
  exact ⟨defined, by dsimp only; omega⟩

/-- A pass of HIST keeps the sum, whether it goes on or raises OVERFLOW. -/
theorem State.Tallied.histByte {i : Nat} {x y : State} (h : x.Tallied)
    (e : histByte i x = .going y ∨ histByte i x = .ended y) : y.Tallied := by
  obtain ⟨x', b, f, read, value, pass⟩ := histByte_cases i x
  obtain rfl : f = atSym x.freq b := value (x.allFreqDefined_iff.1 h.1 b)
  have h' : x'.Tallied := by rw [read.1]; exact h
  have freq : x'.freq = x.freq := by rw [read.1]
  have total : x'.total = x.total := by rw [read.1]
  rw [pass, ← freq, ← total] at e
  split_ifs at e with full
  · obtain ended | ended := e <;> cases ended
    exact h'
  · obtain going | going := e <;> cases going
    exact h'.count full _

theorem State.Tallied.histCount {s : State} (h : s.Tallied) : (histCount s).Tallied :=
  andThen_induct (Q := fun _ x => x.Tallied) (R := State.Tallied) _ _ _
    (fun _ _ _ _ hx e => hx.histByte (.inl e)) (fun _ _ _ _ hx e => hx.histByte (.inr e)) h fun _ hy => hy

/-- Settles O14: RANGE(0) leaves the table and TOTAL alone, and every pass of the loop keeps the sum. -/
theorem histKeepsTheSumEqualToTotal : Obligations.HistKeepsTheSumEqualToTotal := by
  intro s t defined sum e
  injection e with e
  rw [← e]
  split_ifs
  · exact sum
  · exact (State.Tallied.histCount ⟨defined, sum⟩).2

end Sys2Proof.Machine

/-! SUPPORT. BUILD whole (41_tree_build.md R140 to R149): its registers, the leaves and the merges it leaves in the
arena, the codes, and that a second BUILD finds its work done. -/

namespace Sys2Proof.Machine

/-! ### What BUILD leaves -/

/-- BUILD, whatever it reads, works on the counts it read and completes. -/
theorem execBuild_cases {s t : State} (e : exec .build s = .next t) : ∃ fs u, t = (buildFrom fs u).complete := by
  have done := (execBuild_eq s).symm.trans e
  injection done with done
  exact ⟨_, _, done.symm⟩

/-- Over a defined table BUILD works on the counts of the table. -/
theorem eq_of_execBuild {s t : State} (defined : s.allFreqDefined = true) (e : exec .build s = .next t) :
    t = (buildFrom s.freq.toList s).complete := by
  have done := (execBuild_defined defined).symm.trans e
  injection done with done
  exact done.symm

theorem length_leafNodes_freq (s : State) : (leafNodes 0 s.freq.toList).length = distinct s.freq :=
  length_leafNodes _ 0

/-- `t` holds the tree over the table of `s`, with a leaf for each nonzero count, and the table of its codes. -/
structure HoldsTreeOf (s t : State) : Prop where
  arena : t.arena = builtArena s.freq.toList s.arena
  tree : Built s.freq.toList t.arena (distinct s.freq)
  nsym : t.nsym = BitVec.ofNat 9 (distinct s.freq)
  root : t.root = rootFor (distinct s.freq)
  codeV : t.codeV = codeValidOf (builtEntries (distinct s.freq) t.arena)
  code : t.code = codeBitsOf (builtEntries (distinct s.freq) t.arena)
  maxLen : t.maxLen = BitVec.ofNat 9 (greatestLength t.codeV t.code)
  fsum : t.fsum.toNat = sumOf s.freq

theorem execBuild_tree {s t : State} (defined : s.allFreqDefined = true) (e : exec .build s = .next t) :
    HoldsTreeOf s t := by
  obtain rfl := eq_of_execBuild defined e
  have count := length_leafNodes_freq s
  exact {
    arena := rfl
    tree := count ▸ built s.freq.toList (by simp) s.arena
    nsym := congrArg (BitVec.ofNat 9) count
    root := congrArg rootFor count
    codeV := congrArg (fun n => codeValidOf (builtEntries n _)) count
    code := congrArg (fun n => codeBitsOf (builtEntries n _)) count
    maxLen := rfl
    fsum := freqSum_toNat _ (by simp) }

/-- Settles O15: there are at most 256 leaves and 256 counts, so no register wraps. -/
theorem buildWritesItsRegisters : Obligations.BuildWritesItsRegisters := by
  intro s defined
  have left := execBuild_tree defined (execBuild_defined defined)
  have atMost := left.tree.bound
  refine ⟨_, execBuild_defined defined, ?_, ?_, left.fsum, rfl⟩
  · rw [left.nsym, BitVec.toNat_ofNat]
    omega
  · rw [left.root, rootFor_toNat atMost]

/-! ### The arena -/

/-- The leaf of count `i` stands at the handle that counts the nonzero counts before it. -/
theorem Built.nodeOf_leaf {fs : List Count} {arena : Vector Node 511} {n : Nat} (B : Built fs arena n) {i : Nat}
    (hi : i < fs.length) (present : fs[i] ≠ 0#64) :
    nodeOf arena (BitVec.ofNat 9 ((fs.take i).filter (fun f => f != 0#64)).length) =
      .leaf (BitVec.ofNat 8 i) (fs[i].setWidth 72) := by
  have leaf := getElem?_leafNodes fs 0 i hi present
  have inside := (List.getElem?_eq_some_iff.1 leaf).1
  rw [← B.count] at inside
  have handle : (BitVec.ofNat 9 ((fs.take i).filter (fun f => f != 0#64)).length).toNat =
      ((fs.take i).filter (fun f => f != 0#64)).length := by
    have := B.bound
    rw [BitVec.toNat_ofNat]
    omega
  have same := B.leaf _ (by rw [handle]; exact inside)
  rw [handle, leaf, Nat.zero_add] at same
  exact (Option.some.inj same).symm

/-- Settles O16, by the leaf of each nonzero count. -/
theorem buildMakesTheLeavesInOrder : Obligations.BuildMakesTheLeavesInOrder := by
  intro s t defined e b present
  have leaf := (execBuild_tree defined e).tree.nodeOf_leaf (i := b.toNat) (by simpa using b.isLt) present
  rwa [BitVec.ofNat_toNat, BitVec.setWidth_eq] at leaf

theorem KeyBefore.trans {arena : Vector Node 511} {f g h : Handle} (fg : KeyBefore arena f g)
    (gh : KeyBefore arena g h) : KeyBefore arena f h := by
  unfold KeyBefore at *
  rw [← BitVec.toNat_inj] at *
  omega

/-- The tree of n leaves has the handles below 2n - 1. -/
theorem length_treeNodes_le {fs : List Count} (short : fs.length ≤ 256) :
    (treeNodes fs).length ≤ 2 * (leafNodes 0 fs).length - 1 := by
  obtain ⟨q, -, forest⟩ := treeNodes_forest fs short
  have size := forest.size
  by_cases empty : leafNodes 0 fs = []
  · rw [empty] at size ⊢
    simp only [List.length_nil] at size ⊢
    omega
  · have := List.length_pos_iff.2 (forest.nonempty empty)
    omega

/-- Behind the tree the arena is as it was (10_state.md R42). -/
theorem nodeOf_builtArena_above {fs : List Count} (short : fs.length ≤ 256) (old : Vector Node 511) {h : Handle}
    (above : 2 * (leafNodes 0 fs).length - 1 ≤ h.toNat) : nodeOf (builtArena fs old) h = nodeOf old h := by
  rw [nodeOf_builtArena, List.getElem?_eq_none ((length_treeNodes_le short).trans above), Option.getD_none, ite_self]

/-- Settles O17: the children of a merge are the two least of the collection, and the left one comes before the right
one, so before every other. -/
theorem buildMergesInKeyOrder : Obligations.BuildMergesInKeyOrder := by
  intro s t defined e
  have left := execBuild_tree defined e
  refine ⟨fun h low high => ?_, fun h above => ?_⟩
  · obtain ⟨l, r, w, node, -, -, sum, order⟩ := left.tree.inner h low (by omega)
    obtain ⟨inL, inR, least⟩ := left.tree.least h l r w low (by omega) node
    exact ⟨l, r, w, node, inL, inR, sum, order, fun g inG notL notR =>
      ⟨KeyBefore.trans order (least g inG notL notR), least g inG notL notR⟩⟩
  · rw [left.arena]
    exact nodeOf_builtArena_above (by simp) s.arena (by rw [length_leafNodes_freq]; exact above)

/-- Settles O22: the root's weight and FSUM are both the exact sum of the counts. -/
theorem buildRootWeighsTheSum : Obligations.BuildRootWeighsTheSum := by
  intro s t defined e present
  have left := execBuild_tree defined e
  apply BitVec.eq_of_toNat_eq
  rw [left.root, left.tree.rootWeight (Nat.pos_of_ne_zero present), left.fsum, sumOf]

/-! ### The codes -/

/-- Settles O18, by the entries of the code table. -/
theorem buildGivesCodesToExactlyThePresentSymbols : Obligations.BuildGivesCodesToExactlyThePresentSymbols := by
  intro s t defined e b
  have left := execBuild_tree defined e
  rw [left.codeV]
  exact left.tree.present (by simp) b

/-- Settles O19: every entry of the code table is the path to its leaf, whatever BUILD read. -/
theorem buildCodesLeadToTheirLeaves : Obligations.BuildCodesLeadToTheirLeaves := by
  intro s t e b coded
  obtain ⟨fs, u, rfl⟩ := execBuild_cases e
  exact buildFrom_leadsToLeaf coded

/-- Settles O20: both codes are paths from ROOT to leaves, and no path goes on from a leaf. -/
theorem buildCodesArePrefixFree : Obligations.BuildCodesArePrefixFree := by
  intro s t e b c differ codedB codedC ⟨rest, extended⟩
  obtain ⟨g, w, pathB, leafB⟩ := buildCodesLeadToTheirLeaves s t e b codedB
  obtain ⟨h, v, pathC, leafC⟩ := buildCodesLeadToTheirLeaves s t e c codedC
  rw [← extended] at pathC
  exact differ (follow_leaf_prefix pathB leafB pathC leafC).2

/-- A code of a tree of n leaves has at most n - 1 bits: the handles of its path fall from 2n - 2, and all but the last
are merges, from n on. -/
theorem Built.code_length {fs : List Count} {arena : Vector Node 511} {n : Nat} (B : Built fs arena n) {b : Symbol}
    (coded : atSym (codeValidOf (builtEntries n arena)) b = true) :
    (atSym (codeBitsOf (builtEntries n arena)) b).length + 1 ≤ n := by
  obtain ⟨pos, g, w, path, -⟩ := (B.mem_entries b _).1 (codeBitsOf_mem coded)
  have root := rootFor_toNat B.bound
  obtain ⟨-, empty | short⟩ := B.follow_bounds (by omega) path
  · rw [empty]
    exact pos
  · omega

/-- Settles O21: MAXLEN is the greatest length, which fits its register since every code has at most 255 bits. -/
theorem buildMaxlenIsTheGreatestLength : Obligations.BuildMaxlenIsTheGreatestLength := by
  intro s t defined e
  have left := execBuild_tree defined e
  have short : ∀ b, atSym t.codeV b = true → (atSym t.code b).length + 1 ≤ distinct s.freq := by
    rw [left.codeV, left.code]
    exact fun b => left.tree.code_length
  obtain ⟨bounds, attained⟩ := greatestLength_spec t.codeV t.code
  have fits : greatestLength t.codeV t.code < 2 ^ 9 := by
    have atMost := left.tree.bound
    obtain zero | ⟨b, coded, longest⟩ := attained
    · omega
    · have := short b coded
      omega
  rw [left.maxLen, BitVec.toNat_ofNat, Nat.mod_eq_of_lt fits]
  exact ⟨fun b coded => ⟨bounds b coded, short b coded⟩, attained⟩

/-! ### A second BUILD -/

/-- Over a tree of the same counts each field BUILD writes is already what it writes. -/
theorem buildFrom_again (fs : List Count) (s : State) :
    (buildFrom fs (buildFrom fs s).complete).complete = (buildFrom fs s).complete := by
  have arena : builtArena fs (builtArena fs s.arena) = builtArena fs s.arena := overlay_overlay _ _ _
  have same : buildFrom fs (buildFrom fs s).complete =
      { (buildFrom fs s).complete with treeValid := true, uvalid := false } := by
    rw [buildFrom_eq_iff, State.complete_arena, buildFrom_arena, arena]
    exact ⟨rfl, rfl, rfl, rfl, rfl, rfl, rfl⟩
  rw [same]
  rfl

/-- Settles O23: BUILD keeps the table and its flags, so the second one works on the same counts. -/
theorem buildTwiceIsBuildOnce : Obligations.BuildTwiceIsBuildOnce := by
  intro s t defined e
  obtain rfl := eq_of_execBuild defined e
  have kept : (buildFrom s.freq.toList s).complete.allFreqDefined = true := defined
  rw [exec_build, execBuild_defined kept, State.complete_freq, buildFrom_freq, buildFrom_again]

end Sys2Proof.Machine

/-! SUPPORT. PINIT, UINIT and the upfront checks of PACK and UNPACK (42_bitcodec.md R160, R162, R170, R172), each with
its whole next state. -/

namespace Sys2Proof.Machine

theorem State.hasTree_eq_false_iff (s : State) : s.hasTree = false ↔ s.treeValid = false ∨ s.nsym = 0#9 := by
  rw [← Bool.not_eq_true, s.hasTree_iff]
  simp [or_iff_not_imp_left]

/-- Settles O10: PINIT is the empty accumulator and completion. -/
theorem pinitEmptiesTheAccumulator : Obligations.PinitEmptiesTheAccumulator :=
  ⟨decodeWord_encode .pinit, fun _ => rfl⟩

/-- Settles O11, check by check in UINIT's order. -/
theorem uinitStartsTheCursor : Obligations.UinitStartsTheCursor := by
  refine ⟨decodeWord_encode .uinit, fun s => ⟨fun zero => ?_, fun positive noTree => ?_,
    fun positive tree symbols => ?_⟩⟩ <;> rw [exec_uinit, execUinit]
  · rw [if_pos (by simpa using zero)]
    rfl
  · rw [if_neg (by simpa using positive), if_pos (by simpa using s.hasTree_eq_false_iff.2 noTree)]
    rfl
  · rw [if_neg (by simpa using positive), if_neg (by simpa using s.hasTree_iff.2 ⟨tree, symbols⟩)]
    rfl

/-- PACK's first check: there are symbols to encode and no tree (42_bitcodec.md R162). -/
theorem State.lacksTree_iff (s : State) :
    (decide (s.lSlen.toNat > 0) && !s.hasTree) = true ↔
      0 < s.lSlen.toNat ∧ (s.treeValid = false ∨ s.nsym = 0#9) := by
  simp [s.hasTree_eq_false_iff]

/-- Settles O25, check by check in PACK's order. -/
theorem packChecksInOrder : Obligations.PackChecksInOrder := by
  intro f s noTree inBad outBad meet
  have tree := s.lacksTree_iff
  have input := s.inputBeyond_iff
  have output := s.outputBeyond_iff
  refine ⟨fun h1 => ?_, fun h1 h2 => ?_, fun h1 h2 h3 => ?_, fun h1 h2 h3 h4 => ?_⟩ <;> rw [exec_pack, execPack]
  · rw [if_pos (tree.2 h1)]
    rfl
  · rw [if_neg (mt tree.1 h1), if_pos (input.2 h2)]
    rfl
  · rw [if_neg (mt tree.1 h1), if_neg (mt input.1 h2), if_pos (output.2 h3)]
    rfl
  · rw [if_neg (mt tree.1 h1), if_neg (mt input.1 h2), if_neg (mt output.1 h3), if_pos (s.areasOverlap_iff.2 h4)]
    rfl

/-- Settles O29, check by check in UNPACK's order. -/
theorem unpackChecksInOrder : Obligations.UnpackChecksInOrder := by
  intro f s inBad outBad meet
  have input := s.inputBeyond_iff
  have output := s.outputBeyond_iff
  refine ⟨fun h1 => ?_, fun h1 h2 => ?_, fun h1 h2 h3 => ?_, fun h1 h2 h3 h4 => ?_⟩ <;>
    rw [exec_unpack, execUnpack]
  · rw [if_pos (by simpa using h1)]
    rfl
  · rw [if_neg (by simpa using h1), if_pos (input.2 h2)]
    rfl
  · rw [if_neg (by simpa using h1), if_neg (mt input.1 h2), if_pos (output.2 h3)]
    rfl
  · rw [if_neg (by simpa using h1), if_neg (mt input.1 h2), if_neg (mt output.1 h3), if_pos (s.areasOverlap_iff.2 h4)]
    rfl

end Sys2Proof.Machine

/-! SUPPORT. PACK whole (42_bitcodec.md R163 to R166): the state between the symbols, how the loop ends over defined
input, and what the flush adds. -/

namespace Sys2Proof.Machine

/-! ### Areas and codes in parts -/

theorem AreaHolds.read_cons {m : Memory} {a : Nat} {xs ys : List Byte} {y : Byte} (h : AreaHolds m a (xs ++ y :: ys)) :
    Memory.read m (a + xs.length) = some y := by
  rw [h xs.length (by simp)]
  simp

@[simp] theorem State.codesOf_nil (s : State) : s.codesOf [] = [] := rfl

@[simp] theorem State.codesOf_append (s : State) (xs ys : List Symbol) :
    s.codesOf (xs ++ ys) = s.codesOf xs ++ s.codesOf ys := List.flatMap_append

@[simp] theorem State.codesOf_singleton (s : State) (y : Symbol) : s.codesOf [y] = atSym s.code y := by
  simp [State.codesOf]

@[simp] theorem State.length_pending (s : State) : s.pending.length = s.pcnt.toNat := length_rightBits _ _

/-- An empty accumulator holds zero bits only (10_state.md R45). -/
theorem State.packOk.pbuf_eq_zero {s : State} (ok : s.packOk) (empty : s.pcnt = 0#4) : s.pbuf = 0#8 := by
  obtain ⟨-, below⟩ := ok
  rw [empty] at below
  exact BitVec.eq_of_toNat_eq (by simpa using below)

/-! ### Between the symbols -/

/-- PACK, started in `s`, has come to `y`: the symbols `xs` are encoded, which has filled the bytes `ys`, and what does
not fill a byte is pending. -/
structure Packed (s : State) (xs : List Symbol) (y : State) (ys : List Byte) : Prop where
  bits : ys.flatMap bitsOfByte ++ y.pending = s.pending ++ s.codesOf xs
  ok : y.packOk
  state : y = { s with
    mem := Memory.writeAll s.mem s.lDst.toNat ys, pbuf := y.pbuf, pcnt := y.pcnt, rout := BitVec.ofNat 32 ys.length,
    rin := BitVec.ofNat 32 xs.length }

/-- How many bytes are filled, and how many bits are pending. -/
theorem Packed.count {s y : State} {xs : List Symbol} {ys : List Byte} (h : Packed s xs y ys) :
    ys.length = (s.pcnt.toNat + (s.codesOf xs).length) / 8 ∧
      y.pcnt.toNat = (s.pcnt.toNat + (s.codesOf xs).length) % 8 := by
  have total := congrArg List.length h.bits
  have le := h.ok.1
  simp only [List.length_append, length_flatMap_bits, State.length_pending] at total
  omega

section
variable {s : State} {xs : List Symbol} (fit : s.areasFit) (short : xs.length ≤ s.lSlen.toNat)
  (input : AreaHolds s.mem s.lSrc.toNat xs) (coded : ∀ x ∈ xs, atSym s.codeV x = true) (ok : s.packOk)
  (rin : s.rin = 0#32) (rout : s.rout = 0#32)
  (room : (s.pcnt.toNat + (s.codesOf xs).length) / 8 ≤ s.lDlen.toNat)
include fit short input coded ok rin rout room

/-- The loop over defined symbols that have codes, with room for the bytes they fill (42_bitcodec.md R163, R164). -/
theorem packLoop_packs : ∃ (y : State) (ys : List Byte),
    forElems packSymbol xs.length 0 (s, 0) = .going (y, ys.length) ∧ Packed s xs y ys := by
  have apart : ∀ j, j < xs.length → s.lSrc.toNat + (0 + j) < s.lDst.toNat + 0 ∨
      s.lDst.toNat + s.lDlen.toNat ≤ s.lSrc.toNat + (0 + j) := by
    obtain ⟨-, -, disjoint⟩ := fit
    omega
  obtain ⟨⟨y, out⟩, ys, loop, ⟨appended, counted⟩⟩ := packLoop_encodes xs 0 (s, 0)
    (fun j hj => by rw [Nat.zero_add]; exact input j hj) apart coded ok (by dsimp only; omega)
  have written : out = ys.length := by simpa using appended.out
  have state := appended.state
  have rout' : (if ys = [] then s.rout else BitVec.ofNat 32 (0 + ys.length)) = BitVec.ofNat 32 ys.length := by
    split_ifs with none
    · rw [rout, none]; rfl
    · rw [Nat.zero_add]
  have rin' : y.rin = BitVec.ofNat 32 xs.length := by
    refine counted.trans ?_
    split_ifs with none
    · rw [none]; exact rin
    · rw [Nat.zero_add]
  subst written
  refine ⟨y, ys, loop, appended.bits, appended.ok, ?_⟩
  dsimp only at state
  rw [rout', rin', Nat.add_zero] at state
  exact state

/-- A symbol that lacks a code or room ends the loop before any of its bits is appended (42_bitcodec.md R166). -/
theorem packAll_stops (f : Bool) {y : Symbol} (more : xs.length < s.lSlen.toNat)
    (next : Memory.read s.mem (s.lSrc.toNat + xs.length) = some y)
    (stop : atSym s.codeV y = true → s.lDlen.toNat < (s.pcnt.toNat + (s.codesOf (xs ++ [y])).length) / 8) :
    ∃ (t : State) (ys : List Byte), Packed s xs t ys ∧
      packAll f s = t.raise (if atSym s.codeV y then .dstFull else .noCode) (BitVec.ofNat 32 xs.length) := by
  obtain ⟨t, ys, loop, packed⟩ := packLoop_packs fit short input coded ok rin rout room
  obtain ⟨written, pending⟩ := packed.count
  have codeV : t.codeV = s.codeV := by rw [packed.state]
  have code : t.code = s.code := by rw [packed.state]
  have lDlen : t.lDlen = s.lDlen := by rw [packed.state]
  have next' : Memory.read t.mem (t.lSrc.toNat + xs.length) = some y := by
    rw [packed.state]
    dsimp only
    rw [Memory.read_writeAll_outside, next]
    obtain ⟨-, -, disjoint⟩ := fit
    omega
  have ended : packSymbol xs.length (t, ys.length) =
      .ended (t.raise (if atSym s.codeV y then .dstFull else .noCode) (BitVec.ofNat 32 xs.length)) := by
    rw [packSymbol_defined next']
    dsimp only
    rw [codeV, code, lDlen]
    cases has : atSym s.codeV y with
    | false => rfl
    | true =>
      have full := stop has
      simp only [State.codesOf_append, State.codesOf_singleton, List.length_append] at full
      rw [if_neg nofun, if_pos (by omega)]
      rfl
  refine ⟨t, ys, packed, ?_⟩
  obtain ⟨left, len⟩ : ∃ left, s.lSlen.toNat = xs.length + (left + 1) := ⟨s.lSlen.toNat - xs.length - 1, by omega⟩
  rw [packAll, len, forElems_add, loop]
  simp only [forElems, Nat.zero_add, ended]
  rfl

end

/-- Either every symbol has a code and room for its bytes, or there is a first one that lacks one of the two. -/
theorem coded_or_stops {s : State} (ok : s.packOk) (xs : List Symbol) :
    ((∀ x ∈ xs, atSym s.codeV x = true) ∧ (s.pcnt.toNat + (s.codesOf xs).length) / 8 ≤ s.lDlen.toNat) ∨
    ∃ (ps : List Symbol) (y : Symbol) (rest : List Symbol), xs = ps ++ y :: rest ∧
      (∀ x ∈ ps, atSym s.codeV x = true) ∧ (s.pcnt.toNat + (s.codesOf ps).length) / 8 ≤ s.lDlen.toNat ∧
      (atSym s.codeV y = true → s.lDlen.toNat < (s.pcnt.toNat + (s.codesOf (ps ++ [y])).length) / 8) := by
  induction xs using List.reverseRecOn with
  | nil =>
    obtain ⟨le, -⟩ := ok
    exact .inl ⟨nofun, by simp; omega⟩
  | append_singleton xs y ih =>
    rcases ih with ⟨coded, room⟩ | ⟨ps, z, rest, rfl, stops⟩
    · by_cases full : atSym s.codeV y = true → s.lDlen.toNat < (s.pcnt.toNat + (s.codesOf (xs ++ [y])).length) / 8
      · exact .inr ⟨xs, y, [], rfl, coded, room, full⟩
      · obtain ⟨has, fits⟩ := Classical.not_imp.1 full
        refine .inl ⟨fun x hx => ?_, Nat.not_lt.1 fits⟩
        obtain hx | rfl := by simpa using hx
        · exact coded x hx
        · exact has
    · exact .inr ⟨ps, z, rest ++ [y], by simp, stops⟩

/-! ### The end of the loop -/

/-- What PACK leaves when it completes: with F = 0 the state between the symbols, with F = 1 nothing pending and the
last byte padded. -/
structure PackDone (f : Bool) (s : State) (xs : List Symbol) (t : State) (ys : List Byte) : Prop where
  bits : ∃ pad, pad ≤ 7 ∧ (f = false → pad = 0) ∧
    ys.flatMap bitsOfByte ++ t.pending = s.pending ++ s.codesOf xs ++ List.replicate pad false
  flushed : f = true → t.pcnt = 0#4
  ok : t.packOk
  rout : t.rout.toNat = ys.length
  state : t = { s with
    mem := Memory.writeAll s.mem s.lDst.toNat ys, pbuf := t.pbuf, pcnt := t.pcnt, rout := t.rout,
    rin := BitVec.ofNat 32 xs.length, busy := false, done := true }

/-- Flush with room leaves the accumulator empty, and changes nothing but it, the output, and ROUT. -/
theorem flushAndComplete_empties {y : Packing} (ok : y.1.packOk)
    (room : y.2 + (y.1.pcnt.toNat + 7) / 8 ≤ y.1.lDlen.toNat) :
    flushAndComplete true y = { y.1 with
      mem := (flushAndComplete true y).mem, rout := (flushAndComplete true y).rout, pbuf := 0#8, pcnt := 0#4,
      busy := false, done := true } := by
  unfold flushAndComplete
  by_cases empty : y.1.pcnt = 0#4
  · rw [if_neg (by simp [empty])]
    have zero := ok.pbuf_eq_zero empty
    rw [← zero, ← empty]
    rfl
  · have some_pending := toNat_ne_zero empty
    have no_error : ¬ y.2 + 1 > y.1.lDlen.toNat := by omega
    rw [if_pos (by simp [empty]), if_neg no_error]
    rfl

theorem Packed.completes {s y : State} {xs : List Symbol} {ys : List Byte} (packed : Packed s xs y ys)
    (room : (s.pcnt.toNat + (s.codesOf xs).length) / 8 ≤ s.lDlen.toNat) (f : Bool)
    (flushRoom : f = true → (s.pcnt.toNat + (s.codesOf xs).length + 7) / 8 ≤ s.lDlen.toNat) :
    ∃ zs, PackDone f s xs (flushAndComplete f (y, ys.length)) zs := by
  obtain ⟨written, pending⟩ := packed.count
  have counted : y.rout.toNat = ys.length := by
    rw [packed.state]
    exact toNat_ofNat_le (w := s.lDlen) (by omega)
  cases f with
  | false =>
    have complete : flushAndComplete false (y, ys.length) = y.complete := by simp [flushAndComplete]
    rw [complete]
    refine ⟨ys, ⟨0, by omega, fun _ => rfl, packed.bits.trans (by simp)⟩, nofun, packed.ok, counted, ?_⟩
    rw [packed.state]
    rfl
  | true =>
    have lDst : y.lDst = s.lDst := by rw [packed.state]
    have lDlen : y.lDlen = s.lDlen := by rw [packed.state]
    have mem : y.mem = Memory.writeAll s.mem y.lDst.toNat ys := by rw [packed.state]
    have room' : ys.length + (y.pcnt.toNat + 7) / 8 ≤ y.lDlen.toNat := by
      have := flushRoom rfl
      rw [lDlen]; omega
    obtain ⟨zs, pad, stored, rout, small, bits⟩ :=
      flushAndComplete_fits (y := (y, ys.length)) packed.ok rfl counted mem room'
    have state := flushAndComplete_empties (y := (y, ys.length)) packed.ok room'
    generalize flushAndComplete true (y, ys.length) = t at *
    have pcnt : t.pcnt = 0#4 := by rw [state]
    have pbuf : t.pbuf = 0#8 := by rw [state]
    dsimp only at state
    refine ⟨zs, ⟨pad, small, nofun, ?_⟩, fun _ => pcnt, by simp [State.packOk, pcnt, pbuf], rout, ?_⟩
    · rw [bits, packed.bits]
      simp [State.pending, pcnt, rightBits]
    · rw [stored, lDst, packed.state] at state
      rw [state]

/-- Flush without room raises DST_FULL(SLEN), the bits staying pending (42_bitcodec.md R165). -/
theorem Packed.flush_full {s y : State} {xs : List Symbol} {ys : List Byte} (packed : Packed s xs y ys)
    (full : s.lDlen.toNat ≤ (s.pcnt.toNat + (s.codesOf xs).length) / 8)
    (partly : (s.pcnt.toNat + (s.codesOf xs).length) % 8 ≠ 0) :
    flushAndComplete true (y, ys.length) = y.raise .dstFull s.lSlen := by
  obtain ⟨written, pending⟩ := packed.count
  have lDlen : y.lDlen = s.lDlen := by rw [packed.state]
  have lSlen : y.lSlen = s.lSlen := by rw [packed.state]
  have some_pending : y.pcnt ≠ 0#4 := fun empty => by
    rw [empty] at pending
    exact partly pending.symm
  rw [flushAndComplete, if_pos (by simp [some_pending]), if_pos (by dsimp only; rw [lDlen]; omega)]
  dsimp only
  rw [lSlen]

/-! ### The command -/

section
variable {s : State} {xs : List Symbol} (fit : s.areasFit) (len : xs.length = s.lSlen.toNat)
  (input : AreaHolds s.mem s.lSrc.toNat xs) (coded : ∀ x ∈ xs, atSym s.codeV x = true) (ok : s.packOk)
  (rin : s.rin = 0#32) (rout : s.rout = 0#32)
  (room : (s.pcnt.toNat + (s.codesOf xs).length) / 8 ≤ s.lDlen.toNat)
include fit len input coded ok rin rout room

theorem packAll_completes (f : Bool)
    (flushRoom : f = true → (s.pcnt.toNat + (s.codesOf xs).length + 7) / 8 ≤ s.lDlen.toNat) :
    ∃ ys, PackDone f s xs (packAll f s) ys := by
  obtain ⟨y, ys, loop, packed⟩ := packLoop_packs fit len.le input coded ok rin rout room
  rw [packAll, ← len, loop]
  exact packed.completes room f flushRoom

theorem packAll_flush_full (full : s.lDlen.toNat ≤ (s.pcnt.toNat + (s.codesOf xs).length) / 8)
    (partly : (s.pcnt.toNat + (s.codesOf xs).length) % 8 ≠ 0) :
    ∃ (y : State) (ys : List Byte), Packed s xs y ys ∧ packAll true s = y.raise .dstFull s.lSlen := by
  obtain ⟨y, ys, loop, packed⟩ := packLoop_packs fit len.le input coded ok rin rout room
  refine ⟨y, ys, packed, ?_⟩
  rw [packAll, ← len, loop]
  exact packed.flush_full full partly

end

/-- PACK passes its checks with a tree, or with nothing to encode. -/
theorem exec_pack_passes {f : Bool} {s : State} {xs : List Symbol} (fit : s.areasFit)
    (tree : xs = [] ∨ (s.treeValid = true ∧ s.nsym ≠ 0#9)) (len : xs.length = s.lSlen.toNat) :
    exec (.pack f) s = .next (packAll f s) := by
  refine (exec_pack f s).trans (execPack_passes fit ?_)
  rcases tree with rfl | tree
  · exact .inl len.symm
  · exact .inr (s.hasTree_iff.2 tree)

/-- Settles O26: the loop encodes the symbols, and the flush pads what stays pending. -/
theorem packWritesTheCodes : Obligations.PackWritesTheCodes := by
  intro f s xs fit tree len input coded ok rin rout room
  obtain ⟨ys, done⟩ := packAll_completes fit len input coded ok rin rout (by omega) f (by rintro rfl; exact room)
  refine ⟨_, ys, exec_pack_passes fit tree len, ?_, done.rout, done.ok, ?_, ?_, fun a outside => ?_, ?_⟩
  · rw [done.state]
    exact areaHolds_writeAll _ _ _
  · intro plain
    obtain ⟨pad, -, none, bits⟩ := done.bits
    exact bits.trans (by simp [State.pending, none plain])
  · intro flush
    obtain ⟨pad, small, -, bits⟩ := done.bits
    have empty := done.flushed flush
    exact ⟨empty, pad, small, by simpa [State.pending, empty, rightBits] using bits⟩
  · rw [done.state]
    exact Memory.read_writeAll_outside _ outside
  · have state := done.state
    have rin' : BitVec.ofNat 32 xs.length = s.lSlen := by rw [len]; simp
    rw [rin'] at state
    generalize packAll f s = t at state
    rw [state]

/-- What the obligations say of the output of a PACK that has stopped between the symbols. -/
theorem Packed.output {s y : State} {xs : List Symbol} {ys : List Byte} (packed : Packed s xs y ys)
    (room : (s.pcnt.toNat + (s.codesOf xs).length) / 8 ≤ s.lDlen.toNat) :
    AreaHolds y.mem s.lDst.toNat ys ∧ y.rout.toNat = ys.length ∧
      ∀ a, a < s.lDst.toNat ∨ s.lDst.toNat + ys.length ≤ a → Memory.read y.mem a = Memory.read s.mem a := by
  obtain ⟨written, -⟩ := packed.count
  rw [packed.state]
  exact ⟨areaHolds_writeAll _ _ _, toNat_ofNat_le (w := s.lDlen) (by omega),
    fun a outside => Memory.read_writeAll_outside _ outside⟩

/-- Settles O27: the loop over `xs ++ [y]` ends at `y`, between the symbols. -/
theorem packStopsAtTheSymbol : Obligations.PackStopsAtTheSymbol := by
  intro f s xs y fit tree symbols short input coded ok rin rout room stop
  obtain ⟨t, ys, packed, all⟩ := packAll_stops fit short.le input.of_append coded ok rin rout room f
    short input.read_cons stop
  obtain ⟨stored, counted, outside⟩ := packed.output room
  refine ⟨_, ys, (exec_pack f s).trans (execPack_passes fit (.inr (s.hasTree_iff.2 ⟨tree, symbols⟩))), ?_⟩
  rw [all]
  refine ⟨stored, counted, packed.ok, packed.bits, outside, ?_⟩
  rw [packed.state]
  rfl

/-- Settles O28: the loop encodes every symbol, and only the flush lacks room. -/
theorem packFlushNeedsRoom : Obligations.PackFlushNeedsRoom := by
  intro s xs fit tree len input coded ok rin rout full partly
  obtain ⟨t, ys, packed, all⟩ := packAll_flush_full fit len input coded ok rin rout full.le full.ge partly
  obtain ⟨stored, counted, outside⟩ := packed.output full.le
  obtain ⟨written, -⟩ := packed.count
  refine ⟨_, ys, exec_pack_passes fit tree len, ?_⟩
  rw [all]
  refine ⟨stored, written.trans full, packed.bits, outside, ?_⟩
  have state := packed.state
  have rin' : BitVec.ofNat 32 xs.length = s.lSlen := by rw [len]; simp
  have rout' : BitVec.ofNat 32 ys.length = s.lDlen := by rw [written, full]; simp
  rw [rin', rout'] at state
  rw [state]
  rfl

end Sys2Proof.Machine

/-! SUPPORT. PACK of a stream in two chunks (42_bitcodec.md R179): the bytes and the accumulator that PACK leaves are
determined by the bits appended, so two commands leave what one does. -/

namespace Sys2Proof.Machine

/-! ### Bits determine bytes -/

/-- The right bits of a byte whose other bits are 0 determine it. -/
theorem eq_of_rightBits {b c : Byte} {n : Nat} (hb : b.toNat < 2 ^ n) (hc : c.toNat < 2 ^ n)
    (same : rightBits b n = rightBits c n) : b = c := by
  apply BitVec.eq_of_getLsbD_eq
  intro k hk
  by_cases inside : k < n
  · have bit := congrArg (fun bits => bits[n - 1 - k]?) same
    simp only [rightBits, List.getElem?_map, List.getElem?_range (show n - 1 - k < n by omega), Option.map_some,
      Option.some.injEq, show n - 1 - (n - 1 - k) = k by omega] at bit
    exact bit
  · have small : 2 ^ n ≤ 2 ^ k := Nat.pow_le_pow_right (by omega) (by omega)
    rw [BitVec.getLsbD, BitVec.getLsbD, Nat.testBit_lt_two_pow (by omega), Nat.testBit_lt_two_pow (by omega)]

theorem bitsOfByte_injective {b c : Byte} (same : bitsOfByte b = bitsOfByte c) : b = c :=
  eq_of_rightBits (n := 8) b.isLt c.isLt same

/-- Equal bits cut into bytes and a rest are the same bytes and the same rest. -/
theorem bytes_eq_of_bits {xs ys : List Byte} {p q : List Bool} (len : xs.length = ys.length)
    (same : xs.flatMap bitsOfByte ++ p = ys.flatMap bitsOfByte ++ q) : xs = ys ∧ p = q := by
  induction xs generalizing ys with
  | nil =>
    obtain rfl := List.length_eq_zero_iff.1 len.symm
    exact ⟨rfl, same⟩
  | cons x xs ih =>
    obtain ⟨y, ys, rfl⟩ := List.exists_cons_of_length_eq_add_one len.symm
    simp only [List.flatMap_cons, List.append_assoc] at same
    obtain ⟨first, rest⟩ := List.append_inj same (by simp)
    obtain ⟨rfl, rfl⟩ := ih (by simpa using len) rest
    exact ⟨by rw [bitsOfByte_injective first], rfl⟩

/-! ### A PACK that completes -/

/-- PACK over defined symbols completes only if every symbol has a code, and the bytes and the flush have room. -/
theorem packAll_done {f : Bool} {s : State} {xs : List Symbol} (fit : s.areasFit) (len : xs.length = s.lSlen.toNat)
    (input : AreaHolds s.mem s.lSrc.toNat xs) (ok : s.packOk) (rin : s.rin = 0#32) (rout : s.rout = 0#32)
    (before : s.done = false) (done : (packAll f s).done = true) : ∃ ys, PackDone f s xs (packAll f s) ys := by
  have notDone {y : State} {ps : List Symbol} {ys : List Byte} {e : ErrCode} {i : Word} (packed : Packed s ps y ys) :
      packAll f s ≠ y.raise e i := by
    intro raised
    rw [raised, State.raise_done, packed.state, before] at done
    exact absurd done nofun
  rcases coded_or_stops ok xs with ⟨coded, room⟩ | ⟨ps, y, rest, rfl, coded, room, stop⟩
  · by_cases flushRoom : f = true → (s.pcnt.toNat + (s.codesOf xs).length + 7) / 8 ≤ s.lDlen.toNat
    · exact packAll_completes fit len input coded ok rin rout room f flushRoom
    · obtain ⟨rfl, tight⟩ := Classical.not_imp.1 flushRoom
      obtain ⟨y, ys, packed, raised⟩ :=
        packAll_flush_full fit len input coded ok rin rout room (by omega) (by omega)
      exact absurd raised (notDone packed)
  · rw [List.length_append, List.length_cons] at len
    obtain ⟨t, ys, packed, raised⟩ :=
      packAll_stops fit (by omega) input.of_append coded ok rin rout room f (by omega) input.read_cons stop
    exact absurd raised (notDone packed)

theorem exec_pack_done {f : Bool} {s t : State} {xs : List Symbol} (len : xs.length = s.lSlen.toNat)
    (input : AreaHolds s.mem s.lSrc.toNat xs) (ok : s.packOk) (rin : s.rin = 0#32) (rout : s.rout = 0#32)
    (before : s.done = false) (run : exec (.pack f) s = .next t) (done : t.done = true) :
    ∃ ys, PackDone f s xs t ys := by
  rw [exec_pack] at run
  rcases execPack_cases f s with ⟨e, i, raised, -⟩ | ⟨all, fit⟩
  · rw [raised] at run
    injection run with run
    subst run
    rw [State.raise_done, before] at done
    exact absurd done nofun
  · rw [all] at run
    injection run with run
    subst run
    exact packAll_done fit len input ok rin rout before done

/-! ### Two chunks -/

theorem PackDone.output {f : Bool} {s t : State} {xs : List Symbol} {ys : List Byte} (h : PackDone f s xs t ys) :
    AreaHolds t.mem s.lDst.toNat ys := by
  rw [h.state]
  exact areaHolds_writeAll _ _ _

/-- What is written and what stays pending are determined by the bits appended. -/
theorem PackDone.chunks {f : Bool} {s t u v w z : State} {xs ys : List Symbol} {as bs cs : List Byte}
    (first : PackDone false s xs t as) (second : PackDone f u ys v bs) (both : PackDone f w (xs ++ ys) z cs)
    (codeU : u.code = s.code) (codeW : w.code = s.code) (pendingU : u.pending = t.pending)
    (pendingW : w.pending = s.pending) : cs = as ++ bs ∧ z.pbuf = v.pbuf ∧ z.pcnt = v.pcnt := by
  obtain ⟨pad₁, -, plain₁, bits₁⟩ := first.bits
  obtain ⟨pad₂, small₂, plain₂, bits₂⟩ := second.bits
  obtain ⟨pad₃, small₃, plain₃, bits₃⟩ := both.bits
  obtain ⟨le₂, below₂⟩ := second.ok
  obtain ⟨le₃, below₃⟩ := both.ok
  obtain rfl := plain₁ rfl
  have codesU : u.codesOf ys = s.codesOf ys := by simp only [State.codesOf, codeU]
  have codesW : w.codesOf (xs ++ ys) = s.codesOf xs ++ s.codesOf ys := by
    rw [State.codesOf_append]
    simp only [State.codesOf, codeW]
  have one : cs.flatMap bitsOfByte ++ z.pending =
      s.pending ++ s.codesOf xs ++ s.codesOf ys ++ List.replicate pad₃ false := by
    rw [bits₃, pendingW, codesW, ← List.append_assoc s.pending]
  have two : (as ++ bs).flatMap bitsOfByte ++ v.pending =
      s.pending ++ s.codesOf xs ++ s.codesOf ys ++ List.replicate pad₂ false := by
    have t_bits : as.flatMap bitsOfByte ++ t.pending = s.pending ++ s.codesOf xs := bits₁.trans (by simp)
    rw [List.flatMap_append, List.append_assoc, bits₂, pendingU, codesU, ← t_bits]
    simp only [List.append_assoc]
  have len₂ := congrArg List.length two
  have len₃ := congrArg List.length one
  simp only [List.length_append, length_flatMap_bits, State.length_pending, List.length_replicate] at len₂ len₃
  have pad : pad₃ = pad₂ := by
    cases f with
    | false => rw [plain₂ rfl, plain₃ rfl]
    | true =>
      have := congrArg BitVec.toNat (second.flushed rfl)
      have := congrArg BitVec.toNat (both.flushed rfl)
      simp only [BitVec.toNat_ofNat] at *
      omega
  obtain ⟨bytes, pending⟩ := bytes_eq_of_bits (ys := as ++ bs) (by rw [List.length_append]; omega)
    (one.trans (pad ▸ two.symm))
  have pcnt : z.pcnt = v.pcnt := BitVec.eq_of_toNat_eq (by simpa using congrArg List.length pending)
  refine ⟨bytes, eq_of_rightBits (n := v.pcnt.toNat) (pcnt ▸ below₃) below₂ ?_, pcnt⟩
  simpa only [State.pending, pcnt] using pending

end Sys2Proof.Machine

/-! SUPPORT. UNPACK whole (42_bitcodec.md R172 to R176): how it finishes, a root that is a leaf, and the walk over
defined input. -/

namespace Sys2Proof.Machine

/-! ### How UNPACK finishes -/

/-- `finish()` field by field (42_bitcodec.md R175): TRUNCATED when the input has run out and F = 1, else completion,
which with F = 1 drops the pending bits once the count is reached. -/
theorem finishUnpack_eq (f : Bool) (x : Walk) :
    finishUnpack f x = { x.st with
      busy := false
      done := x.st.done || !(f && x.st.needIn)
      err := x.st.err || (f && x.st.needIn)
      errCode := if f && x.st.needIn then .truncated else x.st.errCode
      errInfo := if f && x.st.needIn then BitVec.ofNat 32 x.inp else x.st.errInfo
      uvalid := x.st.uvalid && !(f && x.st.needIn)
      ucnt := if f && !x.st.needIn && decide (x.st.urem = 0#64) then 0#4 else x.st.ucnt } := by
  unfold finishUnpack
  cases f with
  | false => simp [State.complete]
  | true =>
    cases dry : x.st.needIn with
    | true => simp [State.raise, dry]
    | false =>
      by_cases count : x.st.urem = 0#64
      · simp [State.complete, count, dry]
      · simp [State.complete, count, dry]

/-- The walk left for one of the flags' reasons. -/
def Walk.flagged (x : Walk) (needIn outFull : Bool) : Walk :=
  { x with st := { x.st with needIn := needIn, outFull := outFull } }

/-- The state UNPACK leaves, by what the flags are and whether the count is reached. -/
theorem finishUnpack_flagged (f : Bool) {x : Walk} {needIn outFull ended : Bool}
    (count : x.st.urem = 0#64 ↔ ended = true) (enough : ended = true → needIn = false) :
    finishUnpack f (x.flagged needIn outFull) = { x.st with
      needIn := needIn
      outFull := outFull
      busy := false
      done := x.st.done || !(f && needIn)
      err := x.st.err || (f && needIn)
      errCode := if f && needIn then .truncated else x.st.errCode
      errInfo := if f && needIn then BitVec.ofNat 32 x.inp else x.st.errInfo
      uvalid := x.st.uvalid && !(f && needIn)
      ucnt := if f && ended then 0#4 else x.st.ucnt } := by
  rw [finishUnpack_eq]
  cases ended with
  | false => simp [Walk.flagged, count]
  | true => simp [Walk.flagged, count.2 rfl, enough rfl]

theorem Walk.flagged_same {x : Walk} {needIn outFull : Bool} (n : x.st.needIn = needIn) (o : x.st.outFull = outFull) :
    x.flagged needIn outFull = x := by
  subst n o
  rfl

/-- However the loop is left, only the two flags are set then. -/
theorem unpackAll_moved (f : Bool) (s : State) :
    ∃ (x : Walk) (needIn outFull : Bool), Moved s x ∧ unpackAll f s = finishUnpack f (x.flagged needIn outFull) := by
  have left := unpackLoop_left s
  unfold unpackAll
  generalize unpackLoop (unpackBound s) _ = y at left
  cases left with
  | count x moved _ => exact ⟨y, y.st.needIn, y.st.outFull, moved, rfl⟩
  | full x moved _ _ => exact ⟨x, x.st.needIn, true, moved, rfl⟩
  | empty x l r w moved _ _ _ _ _ => exact ⟨x, true, x.st.outFull, moved, rfl⟩

/-- UNPACK, once its checks have passed, ends with the count reached, the area full, or all input loaded. -/
theorem unpackAll_ends (f : Bool) {s : State} (needIn : s.needIn = false) (outFull : s.outFull = false) :
    ∃ x : Walk, Moved s x ∧
      ((x.st.urem = 0#64 ∧ unpackAll f s = finishUnpack f (x.flagged false false)) ∨
       (x.st.urem ≠ 0#64 ∧ x.out = s.lDlen.toNat ∧ unpackAll f s = finishUnpack f (x.flagged false true)) ∨
       (x.st.urem ≠ 0#64 ∧ x.inp = s.lSlen.toNat ∧ unpackAll f s = finishUnpack f (x.flagged true false))) := by
  have left := unpackLoop_left s
  unfold unpackAll
  generalize unpackLoop (unpackBound s) _ = y at left
  have quiet {x : Walk} (moved : Moved s x) : x.st.needIn = false ∧ x.st.outFull = false := by
    rw [moved.state]
    exact ⟨needIn, outFull⟩
  cases left with
  | count x moved count =>
    obtain ⟨dry, full⟩ := quiet moved
    exact ⟨y, moved, .inl ⟨count, by rw [Walk.flagged_same dry full]⟩⟩
  | full x moved more full =>
    obtain ⟨dry, -⟩ := quiet moved
    exact ⟨x, moved, .inr (.inl ⟨more, full, by rw [Walk.flagged, ← dry]⟩)⟩
  | empty x l r w moved more _ _ _ loaded =>
    obtain ⟨-, full⟩ := quiet moved
    exact ⟨x, moved, .inr (.inr ⟨more, loaded, by rw [Walk.flagged, ← full]⟩)⟩

/-- From the 0 that acceptance leaves in it, RIN counts the bytes loaded. -/
theorem Moved.rin_eq {s : State} {x : Walk} (moved : Moved s x) (rin : s.rin = 0#32) :
    x.st.rin = BitVec.ofNat 32 x.inp := by
  rw [moved.rin]
  split_ifs with none
  · rw [rin, none]
  · rfl

/-- Settles O33: between passes UREM and the symbols written make up the UREM at the start. -/
theorem unpackCountsWhatItWrites : Obligations.UnpackCountsWhatItWrites := by
  intro f s t rout run
  rw [exec_unpack] at run
  rcases execUnpack_cases f s with ⟨e, i, raised, -⟩ | ⟨all, -⟩
  · rw [raised] at run
    injection run with run
    subst run
    simp [rout]
  · obtain ⟨x, needIn, outFull, moved, ends⟩ := unpackAll_moved f s
    rw [all, ends, finishUnpack_eq] at run
    injection run with run
    subst run
    have written := moved.rout_toNat rout
    have left := moved.urem
    have room := moved.out
    simp only [Walk.flagged]
    omega

/-- Settles O34, by the three ways in which the loop is left. -/
theorem unpackEndsAsItsFlagsSay : Obligations.UnpackEndsAsItsFlagsSay := by
  intro f s t valid fit needIn outFull rin rout run
  rw [exec_unpack, execUnpack_passes fit valid] at run
  injection run with run
  subst run
  obtain ⟨x, moved, ends⟩ := unpackAll_ends f needIn outFull
  have loaded := moved.rin_eq rin
  have written : x.st.rout = BitVec.ofNat 32 x.out := BitVec.eq_of_toNat_eq (by
    rw [moved.rout_toNat rout, toNat_ofNat_le moved.out])
  have same : x.st.uvalid = true ∧ x.st.done = s.done ∧ x.st.err = s.err ∧ x.st.errCode = s.errCode ∧
      x.st.errInfo = s.errInfo := by
    rw [moved.state]
    exact ⟨valid, rfl, rfl, rfl, rfl⟩
  obtain ⟨uvalid, done, err, errCode, errInfo⟩ := same
  rcases ends with ⟨count, ends⟩ | ⟨more, full, ends⟩ | ⟨more, dry, ends⟩ <;>
    rw [ends, finishUnpack_eq]
  · cases f <;> simp [Walk.flagged, count, uvalid, err, errCode, errInfo]
  · simp [Walk.flagged, more, written, full, uvalid, err, errCode, errInfo]
  · cases f <;> simp [Walk.flagged, more, loaded, dry, uvalid, done, err, errCode, errInfo]

/-! ### A root that is a leaf -/

/-- Between passes, with a leaf of `sym` as root: that symbol has been written once for each count taken off, and
nothing loaded. -/
structure Repeated (s : State) (sym : Symbol) (x : Walk) : Prop where
  inp : x.inp = 0
  mem : x.st.mem = Memory.writeAll s.mem s.lDst.toNat (List.replicate x.out sym)
  state : x.st = { s with mem := x.st.mem, rout := x.st.rout, urem := x.st.urem }

theorem Repeated.emit {s : State} {sym : Symbol} {x : Walk} (h : Repeated s sym x) : Repeated s sym (emit sym x) := by
  have lDst : x.st.lDst = s.lDst := by rw [h.state]
  rw [emit_eq]
  refine ⟨h.inp, ?_, by rw [h.state]⟩
  simp only [List.replicate_succ', Memory.writeAll_append, ← h.mem, List.length_replicate, lDst]
  rfl

/-- The loop emits the root's symbol until the count is reached or the area is full (42_bitcodec.md R173). -/
theorem unpackLoop_repeats {s : State} {sym : Symbol} {w : Weight} (root : s.ucur = s.root)
    (leaf : nodeOf s.arena s.root = .leaf sym w) (needIn : s.needIn = false) (outFull : s.outFull = false) :
    ∃ x : Walk, Moved s x ∧ Repeated s sym x ∧
      unpackLoop (unpackBound s) { st := s, inp := 0, out := 0 } = x.flagged false (decide (x.st.urem ≠ 0#64)) ∧
      (x.st.urem ≠ 0#64 → x.out = s.lDlen.toNat) := by
  have at_leaf {x : Walk} (h : Repeated s sym x) : nodeOf x.st.arena x.st.ucur = .leaf sym w := by
    rw [h.state]
    dsimp only
    rw [root, leaf]
  refine unpackLoop_rule (s := s) (Repeated s sym)
    (fun y => ∃ x : Walk, Moved s x ∧ Repeated s sym x ∧ y = x.flagged false (decide (x.st.urem ≠ 0#64)) ∧
      (x.st.urem ≠ 0#64 → x.out = s.lDlen.toNat)) ?_ ?_ ⟨rfl, rfl, rfl⟩
  · intro x y moved h pass
    have stands := at_leaf h
    rcases unpackPass_cases x with ⟨-, e⟩ | ⟨-, -, e⟩ | ⟨-, -, ⟨_, _, node, e⟩ | ⟨_, _, _, node, -⟩⟩
    · rw [e] at pass; exact absurd pass nofun
    · rw [e] at pass; exact absurd pass nofun
    · rw [stands] at node
      injection node with same
      subst same
      rw [e] at pass
      injection pass with pass
      subst pass
      exact h.emit
    · rw [stands] at node; exact absurd node nofun
  · intro x y moved h pass
    have stands := at_leaf h
    have dry : x.st.needIn = false := by rw [h.state]; exact needIn
    have full : x.st.outFull = false := by rw [h.state]; exact outFull
    have lDlen : x.st.lDlen = s.lDlen := by rw [h.state]
    rcases unpackPass_cases x with ⟨count, e⟩ | ⟨more, room, e⟩ | ⟨-, -, ⟨_, _, node, e⟩ | ⟨_, _, _, node, -⟩⟩
    · rw [e] at pass
      injection pass with pass
      subst pass
      exact ⟨x, moved, h, (Walk.flagged_same dry (by simp [count, full])).symm, fun more => absurd count more⟩
    · rw [e] at pass
      injection pass with pass
      subst pass
      exact ⟨x, moved, h, by simp [Walk.flagged, more, dry], fun _ => by rw [room, lDlen]⟩
    · rw [e] at pass; exact absurd pass nofun
    · rw [stands] at node; exact absurd node nofun

/-- Settles O32: with a leaf as root the loop only emits. -/
theorem unpackOfOneSymbolConsumesNothing : Obligations.UnpackOfOneSymbolConsumesNothing := by
  intro f s sym w valid fit root leaf needIn outFull rout
  obtain ⟨x, moved, h, loop, stop⟩ := unpackLoop_repeats root leaf needIn outFull
  have urem := moved.urem
  have room := moved.out
  have written := moved.rout_toNat rout
  have count : x.st.urem = 0#64 ↔ x.st.urem.toNat = 0 := by rw [← BitVec.toNat_inj]; simp
  have out : x.out = min s.urem.toNat s.lDlen.toNat := by
    by_cases done : x.st.urem = 0#64
    · have := count.1 done
      omega
    · have := stop done
      omega
  have ended : decide (x.st.urem = 0#64) = decide (s.urem.toNat ≤ s.lDlen.toNat) := by
    rw [decide_eq_decide, count]
    omega
  have more : decide (x.st.urem ≠ 0#64) = decide (s.lDlen.toNat < s.urem.toNat) := by
    rw [decide_eq_decide, Ne, count]
    omega
  refine ⟨_, (exec_unpack f s).trans (execUnpack_passes fit valid), ?_⟩
  rw [unpackAll, loop, finishUnpack_eq, ← out, ← ended, ← more]
  refine ⟨h.mem ▸ areaHolds_writeAll _ _ _, written, by simp only [Walk.flagged]; omega, ?_⟩
  rw [Walk.flagged, h.state]
  simp [valid, needIn]

end Sys2Proof.Machine

/-! SUPPORT. UNPACK over defined input as a walk over bits (42_bitcodec.md R172 to R177). -/

namespace Sys2Proof.Machine

/-! ### What UNPACK leaves -/

/-- The bits UNPACK starts from: those pending in UBUF, then those of the payload. -/
def State.bitsToCome (s : State) (bs : List Byte) : List Bool :=
  rightBits s.ubuf s.ucnt.toNat ++ bs.flatMap bitsOfByte

/-- How many symbols UNPACK may write: as many as are left, and as the output area holds. -/
def State.wanted (s : State) : Nat := min s.urem.toNat s.lDlen.toNat

/-- What UNPACK over the payload `bs` leaves when the walk has found `syms`, stands at `node`, and has not read
`unread`. -/
structure Unpacked (f : Bool) (s t : State) (bs : List Byte) (syms : List Symbol) (node : Handle)
    (unread : List Bool) : Prop where
  mem : t.mem = Memory.writeAll s.mem s.lDst.toNat syms
  rout : t.rout.toNat = syms.length
  urem : t.urem.toNat = s.urem.toNat - syms.length
  rin : t.rin.toNat = ((s.bitsToCome bs).length - unread.length - s.ucnt.toNat + 7) / 8
  loaded : t.rin.toNat ≤ bs.length
  ubuf : t.ubuf = (bs.take t.rin.toNat).getLastD s.ubuf
  ucnt : t.ucnt.toNat ≤ 8
  pending : if f && decide (syms.length = s.urem.toNat) then t.ucnt = 0#4
    else rightBits t.ubuf t.ucnt.toNat ++ (bs.drop t.rin.toNat).flatMap bitsOfByte = unread
  starved : syms.length < s.wanted → unread = []
  state : t = { s with
    mem := t.mem, rin := t.rin, rout := t.rout, urem := t.urem, ucur := node, ubuf := t.ubuf, ucnt := t.ucnt,
    needIn := decide (syms.length < s.wanted),
    outFull := !decide (syms.length = s.urem.toNat) && decide (syms.length = s.wanted),
    uvalid := !(f && decide (syms.length < s.wanted)), busy := false,
    done := s.done || !(f && decide (syms.length < s.wanted)),
    err := s.err || (f && decide (syms.length < s.wanted)),
    errCode := if f && decide (syms.length < s.wanted) then .truncated else s.errCode,
    errInfo := if f && decide (syms.length < s.wanted) then t.rin else s.errInfo }

/-- UNPACK passes its checks over a defined payload `bs`, with RIN, ROUT and the flags as acceptance leaves them
(10_state.md R27). -/
structure UnpackReady (s : State) (bs : List Byte) : Prop where
  fit : s.areasFit
  valid : s.uvalid = true
  ok : s.cursorOk
  len : bs.length = s.lSlen.toNat
  input : AreaHolds s.mem s.lSrc.toNat bs
  needIn : s.needIn = false
  outFull : s.outFull = false
  rin : s.rin = 0#32
  rout : s.rout = 0#32

section
variable {s : State} {bs : List Byte} (ready : UnpackReady s bs)
include ready

/-- The loop is left with the walk done, and the flags say how: the number of symbols found tells which way it was. -/
theorem unpackLoop_found : ∃ (x : Walk) (syms : List Symbol), Moved s x ∧ x.begun ∧ Walked s bs x syms ∧
    walk s.arena s.root s.wanted s.ucur (s.bitsToCome bs) = (syms, x.st.ucur, x.bits bs) ∧
    (syms.length < s.wanted → x.bits bs = []) ∧
    unpackLoop (unpackBound s) { st := s, inp := 0, out := 0 } = x.flagged (decide (syms.length < s.wanted))
      (!decide (syms.length = s.urem.toNat) && decide (syms.length = s.wanted)) := by
  obtain ⟨x, y, syms, loop, moved, begun, walked, found, left⟩ :=
    unpackLoop_walks ready.fit ready.valid ready.ok ready.len ready.input
  have dry : x.st.needIn = false := by rw [moved.state]; exact ready.needIn
  have full : x.st.outFull = false := by rw [moved.state]; exact ready.outFull
  have out := walked.out
  have urem := moved.urem
  have room := moved.out
  have wanted : s.wanted = min s.urem.toNat s.lDlen.toNat := rfl
  refine ⟨x, syms, moved, begun, walked, found, ?_⟩
  rw [loop]
  rcases left with ⟨rfl, count⟩ | ⟨rfl, more, stop⟩ | ⟨rfl, more, notFull, none⟩
  · have := congrArg BitVec.toNat count
    rw [BitVec.toNat_ofNat] at this
    have emitted : syms.length = s.urem.toNat := by omega
    have all : ¬ syms.length < s.wanted := by omega
    exact ⟨fun short => absurd short all, (Walk.flagged_same (by simp [dry, all]) (by simp [full, emitted])).symm⟩
  · have := toNat_ne_zero more
    have left : s.wanted ≠ s.urem.toNat := by omega
    have all : syms.length = s.wanted := by omega
    exact ⟨fun short => absurd all short.ne, by simp [Walk.flagged, all, left, dry]⟩
  · have := toNat_ne_zero more
    have short : syms.length < s.wanted := by omega
    exact ⟨fun _ => none, by simp [Walk.flagged, short, short.ne, full]⟩

/-- UNPACK over defined input does the walk over the bits to come (42_bitcodec.md R172, R173, R175, R176). -/
theorem exec_unpack_walks (f : Bool) {syms : List Symbol} {node : Handle} {unread : List Bool}
    (found : walk s.arena s.root s.wanted s.ucur (s.bitsToCome bs) = (syms, node, unread)) :
    ∃ t, exec (.unpack f) s = .next t ∧ Unpacked f s t bs syms node unread := by
  obtain ⟨x, syms', moved, begun, walked, found', starved, loop⟩ := unpackLoop_found ready
  rw [found'] at found
  obtain ⟨rfl, rfl, rfl⟩ : syms' = syms ∧ x.st.ucur = node ∧ x.bits bs = unread := by simpa using found
  refine ⟨_, (exec_unpack f s).trans (execUnpack_passes ready.fit ready.valid), ?_⟩
  have all (done : decide (syms'.length = s.urem.toNat) = true) : decide (syms'.length < s.wanted) = false := by
    have := of_decide_eq_true done
    have : s.wanted ≤ s.urem.toNat := min_le_left _ _
    exact decide_eq_false (by omega)
  have count : x.st.urem = 0#64 ↔ decide (syms'.length = s.urem.toNat) = true := by
    have := moved.urem
    have := walked.out
    rw [← BitVec.toNat_inj, BitVec.toNat_ofNat, decide_eq_true_iff]
    omega
  rw [unpackAll, loop, finishUnpack_flagged f count all]
  have rin' : x.st.rin.toNat = x.inp := by rw [moved.rin_eq ready.rin, toNat_ofNat_le moved.inp]
  have out := walked.out
  have urem := moved.urem
  have used : (s.bitsToCome bs).length + x.st.ucnt.toNat = (x.bits bs).length + s.ucnt.toNat + 8 * x.inp := walked.used
  have length := walk_length (arena := s.arena) (root := s.root) s.wanted s.ucur (s.bitsToCome bs)
  rw [found'] at length
  have inp := moved.inp
  have len := ready.len
  refine ⟨walked.mem, (moved.rout_toNat ready.rout).trans out, ?_, ?_, ?_, ?_, ?_, ?_, starved, ?_⟩ <;> dsimp only
  · omega
  · rw [rin']
    unfold Walk.begun at begun
    dsimp only at length
    omega
  · omega
  · rw [rin']
    exact walked.last
  · split_ifs
    · simp
    · exact moved.ucnt ready.ok.1
  · rw [rin']
    split_ifs
    · rfl
    · rfl
  · have errInfo := moved.rin_eq ready.rin
    have state := moved.state
    rw [walked.quiet] at state
    rw [← errInfo, state]
    simp [ready.valid]

end

theorem Unpacked.output {f : Bool} {s t : State} {bs : List Byte} {syms : List Symbol} {node : Handle}
    {unread : List Bool} (h : Unpacked f s t bs syms node unread) : AreaHolds t.mem s.lDst.toNat syms := by
  rw [h.mem]
  exact areaHolds_writeAll _ _ _

/-- Settles O30: the walk over the bits to come, and over bits that start with codes it finds their symbols. -/
theorem unpackRecoversTheSymbols : Obligations.UnpackRecoversTheSymbols := by
  refine ⟨?_, ?_⟩
  · intro f s bs valid fit ok len input needIn outFull rin rout bits n
    rcases found : walk s.arena s.root n s.ucur bits with ⟨syms, node, unread⟩
    obtain ⟨t, run, h⟩ := exec_unpack_walks ⟨fit, valid, ok, len, input, needIn, outFull, rin, rout⟩ f found
    refine ⟨t, run, h.output, h.rout, fun a outside => ?_, h.urem, h.rin, h.ubuf, h.ucnt, h.pending, h.starved,
      h.state⟩
    rw [h.mem]
    exact Memory.read_writeAll_outside _ outside
  · intro f s bs xs pad valid fit len input ucnt root leads bits count room needIn outFull rin rout
    have wanted : s.wanted = xs.length := by rw [State.wanted, count, Nat.min_eq_left room]
    have found : walk s.arena s.root s.wanted s.ucur (s.bitsToCome bs) = (xs, s.ucur, pad) := by
      rw [wanted, State.bitsToCome, bits, root, walk_codesOf leads]
    have ready : UnpackReady s bs :=
      ⟨fit, valid, ⟨ucnt, fun _ => .inl root⟩, len, input, needIn, outFull, rin, rout⟩
    obtain ⟨t, run, h⟩ := exec_unpack_walks ready f found
    have urem : t.urem = 0#64 := BitVec.eq_of_toNat_eq (by rw [h.urem, count]; simp)
    refine ⟨t, run, h.output, h.rout, ?_, ?_, ?_⟩
    · rw [h.rin, State.bitsToCome, bits, List.length_append, Nat.add_sub_cancel]
    · rintro rfl
      simpa [count] using h.pending
    · have state := h.state
      rw [urem, wanted, count] at state
      simpa [needIn, outFull, valid] using state

end Sys2Proof.Machine

/-! SUPPORT. A stream in two chunks (42_bitcodec.md R179): over the cursor that the first UNPACK left, the second walks
on over the bits the first has not read, so that the two have walked what one does. -/

namespace Sys2Proof.Machine

/-! ### Bits and bytes of two chunks -/

@[simp] theorem State.length_bitsToCome (s : State) (bs : List Byte) :
    (s.bitsToCome bs).length = s.ucnt.toNat + 8 * bs.length := by
  rw [State.bitsToCome, List.length_append, length_rightBits, length_flatMap_bits]

theorem State.bitsToCome_append (s : State) (bs more : List Byte) :
    s.bitsToCome (bs ++ more) = s.bitsToCome bs ++ more.flatMap bitsOfByte := by
  rw [State.bitsToCome, List.flatMap_append, ← List.append_assoc, State.bitsToCome]

/-- The last of `a` bytes and then `b` more is the last of the `b`, or without one the last of the `a`. -/
theorem getLastD_take_add {bs : List Byte} {a : Nat} (le : a ≤ bs.length) (more : List Byte) (b : Nat) (d : Byte) :
    ((bs ++ more).take (a + b)).getLastD d = ((bs.drop a ++ more).take b).getLastD ((bs.take a).getLastD d) := by
  have split := List.take_length_add_append (l₁ := bs.take a) (l₂ := bs.drop a ++ more) b
  rw [List.length_take, Nat.min_eq_left le, ← List.append_assoc, List.take_append_drop] at split
  rw [split]
  simp [List.getLastD_eq_getLast?, List.getLast?_append]

/-! ### UNPACK in two chunks -/

/-- `u` has the unpack cursor of `t`. -/
structure SameCursor (u t : State) : Prop where
  urem : u.urem = t.urem
  ucur : u.ucur = t.ucur
  ubuf : u.ubuf = t.ubuf
  ucnt : u.ucnt = t.ucnt

theorem walk_syms_le (arena : Vector Node 511) (root : Handle) (n : Nat) (h : Handle) (bits : List Bool) :
    (walk arena root n h bits).1.length ≤ n :=
  (walk_append n h bits [] 1 fun _ => one_ne_zero).2

/-- The fields in which a command's end shows. -/
theorem Unpacked.flags {f : Bool} {s t : State} {bs : List Byte} {syms : List Symbol} {node : Handle}
    {unread : List Bool} (h : Unpacked f s t bs syms node unread) :
    t.ucur = node ∧ t.needIn = decide (syms.length < s.wanted) ∧
      t.outFull = (!decide (syms.length = s.urem.toNat) && decide (syms.length = s.wanted)) ∧
      t.uvalid = !(f && t.needIn) ∧ t.done = (s.done || !(f && t.needIn)) ∧ t.err = (s.err || (f && t.needIn)) ∧
      t.errCode = if f && t.needIn then .truncated else s.errCode := by
  rw [h.state]
  exact ⟨rfl, rfl, rfl, rfl, rfl, rfl, rfl⟩

section
variable {f : Bool} {s t u v w z : State} {bs more : List Byte} {xs ys : List Symbol} {n₁ n₂ : Handle}
  {un₁ un₂ : List Bool} (first : Unpacked false s t bs xs n₁ un₁) (fewer : xs.length ≤ s.urem.toNat)
  (goesOn : SameCursor u t) (again : SameCursor w s)

include first in
/-- After UNPACK with F = 0 the bits not read are those pending and those of the bytes not loaded. -/
theorem Unpacked.unread_eq :
    rightBits t.ubuf t.ucnt.toNat ++ (bs.drop t.rin.toNat).flatMap bitsOfByte = un₁ := by
  simpa using first.pending

include first goesOn in
/-- The bits to come of the second command are those the first has not read, and those of the bytes added. -/
theorem Unpacked.bitsToCome_next (more : List Byte) :
    u.bitsToCome (bs.drop t.rin.toNat ++ more) = un₁ ++ more.flatMap bitsOfByte := by
  rw [State.bitsToCome, goesOn.ubuf, goesOn.ucnt, List.flatMap_append, ← List.append_assoc, first.unread_eq]

include first fewer goesOn again

/-- With room for both, the one command may write what the first has written and what the second may write. -/
theorem Unpacked.wanted_both (room : w.lDlen.toNat = t.rout.toNat + u.lDlen.toNat) :
    w.wanted = xs.length + u.wanted := by
  have left := first.urem
  have written := first.rout
  rw [State.wanted, State.wanted, goesOn.urem, again.urem]
  omega

/-- The one command walks the walk of the first, and from there the walk of the second. -/
theorem Unpacked.walk_both (room : w.lDlen.toNat = t.rout.toNat + u.lDlen.toNat)
    (found₁ : walk s.arena s.root s.wanted s.ucur (s.bitsToCome bs) = (xs, n₁, un₁))
    (found₂ : walk s.arena s.root u.wanted u.ucur (u.bitsToCome (bs.drop t.rin.toNat ++ more)) = (ys, n₂, un₂))
    (roomAfterNeedIn : t.needIn = true → u.lDlen ≠ 0#32) :
    walk s.arena s.root w.wanted w.ucur (w.bitsToCome (bs ++ more)) = (xs ++ ys, n₂, un₂) := by
  obtain ⟨node, dry, -⟩ := first.flags
  have more_wanted : xs.length < s.wanted → u.wanted ≠ 0 := by
    intro short
    have left := first.urem
    have some_room := toNat_ne_zero (roomAfterNeedIn (dry.trans (decide_eq_true short)))
    rw [State.wanted] at short ⊢
    rw [goesOn.urem]
    omega
  have append := (walk_append s.wanted s.ucur (s.bitsToCome bs) (more.flatMap bitsOfByte) u.wanted
    (by rw [found₁]; exact more_wanted)).1
  rw [found₁] at append
  dsimp only at append
  rw [← first.bitsToCome_next goesOn more, ← node, ← goesOn.ucur, found₂] at append
  have start : w.bitsToCome (bs ++ more) = s.bitsToCome bs ++ more.flatMap bitsOfByte := by
    rw [State.bitsToCome, again.ubuf, again.ucnt]
    exact s.bitsToCome_append bs more
  rw [first.wanted_both fewer goesOn again room, start, again.ucur]
  exact append

variable (second : Unpacked f u v (bs.drop t.rin.toNat ++ more) ys n₂ un₂)
  (both : Unpacked f w z (bs ++ more) (xs ++ ys) n₂ un₂)
include second both

/-- RIN adds up, and the cursors are alike. -/
theorem Unpacked.cursor_both (unread : un₂.length ≤ (u.bitsToCome (bs.drop t.rin.toNat ++ more)).length) :
    z.rin.toNat = t.rin.toNat + v.rin.toNat ∧ SameCursor z v := by
  have loaded := first.loaded
  have pending₁ := congrArg List.length first.unread_eq
  have urem₁ := first.urem
  have rin : z.rin.toNat = t.rin.toNat + v.rin.toNat := by
    have rin₁ := first.rin
    have rin₂ := second.rin
    have rin₃ := both.rin
    simp only [State.length_bitsToCome, List.length_append, List.length_drop, length_rightBits, length_flatMap_bits,
      goesOn.ucnt, again.ucnt] at pending₁ rin₁ rin₂ rin₃ unread
    omega
  refine ⟨rin, BitVec.eq_of_toNat_eq ?_, both.flags.1.trans second.flags.1.symm, ?_, ?_⟩
  · rw [both.urem, second.urem, again.urem, goesOn.urem, List.length_append]
    omega
  · rw [both.ubuf, second.ubuf, again.ubuf, goesOn.ubuf, rin, getLastD_take_add loaded, ← first.ubuf]
  · have ended : decide ((xs ++ ys).length = w.urem.toNat) = decide (ys.length = u.urem.toNat) := by
      rw [decide_eq_decide, again.urem, goesOn.urem, List.length_append]
      omega
    have pending₂ := second.pending
    have pending₃ := both.pending
    rw [ended] at pending₃
    split_ifs at pending₂ pending₃
    · rw [pending₂, pending₃]
    · have same := congrArg List.length (pending₃.trans pending₂.symm)
      simp only [List.length_append, List.length_drop, length_rightBits, length_flatMap_bits, rin] at same
      exact BitVec.eq_of_toNat_eq (by omega)

/-- The flags are alike. -/
theorem Unpacked.flags_both (room : w.lDlen.toNat = t.rout.toNat + u.lDlen.toNat) :
    z.needIn = v.needIn ∧ z.outFull = v.outFull := by
  obtain ⟨-, needIn₂, outFull₂, -⟩ := second.flags
  obtain ⟨-, needIn₃, outFull₃, -⟩ := both.flags
  have wanted := first.wanted_both fewer goesOn again room
  have urem₁ := first.urem
  rw [needIn₂, outFull₂, needIn₃, outFull₃, wanted, again.urem, goesOn.urem, List.length_append]
  have short : decide (xs.length + ys.length < xs.length + u.wanted) = decide (ys.length < u.wanted) :=
    decide_eq_decide.2 (by omega)
  have ended : decide (xs.length + ys.length = s.urem.toNat) = decide (ys.length = t.urem.toNat) :=
    decide_eq_decide.2 (by omega)
  have full : decide (xs.length + ys.length = xs.length + u.wanted) = decide (ys.length = u.wanted) :=
    decide_eq_decide.2 (by omega)
  exact ⟨short, by rw [ended, full]⟩

end

theorem State.length_le_urem_of_walk {s : State} {bs : List Byte} {syms : List Symbol} {node : Handle}
    {unread : List Bool} (found : walk s.arena s.root s.wanted s.ucur (s.bitsToCome bs) = (syms, node, unread)) :
    syms.length ≤ s.urem.toNat := by
  have le := walk_syms_le s.arena s.root s.wanted s.ucur (s.bitsToCome bs)
  rw [found] at le
  exact le.trans (min_le_left _ _)

/-- The two commands and the one, over the same tree. -/
theorem exec_unpack_chunks (f : Bool) {s t u w : State} {bs more : List Byte} (readyS : UnpackReady s bs)
    (runS : exec (.unpack false) s = .next t) (goesOn : SameCursor u t) (again : SameCursor w s)
    (treeU : u.arena = s.arena ∧ u.root = s.root) (treeW : w.arena = s.arena ∧ w.root = s.root)
    (readyU : u.cursorOk → UnpackReady u (bs.drop t.rin.toNat ++ more))
    (readyW : w.cursorOk → UnpackReady w (bs ++ more)) (room : w.lDlen.toNat = t.rout.toNat + u.lDlen.toNat)
    (roomAfterNeedIn : t.needIn = true → u.lDlen ≠ 0#32) :
    ∃ (v z : State) (xs ys : List Symbol) (n₁ n₂ : Handle) (un₁ un₂ : List Bool),
      exec (.unpack f) u = .next v ∧ exec (.unpack f) w = .next z ∧ Unpacked false s t bs xs n₁ un₁ ∧
      Unpacked f u v (bs.drop t.rin.toNat ++ more) ys n₂ un₂ ∧ Unpacked f w z (bs ++ more) (xs ++ ys) n₂ un₂ ∧
      (z.rin.toNat = t.rin.toNat + v.rin.toNat ∧ SameCursor z v) ∧ z.needIn = v.needIn ∧ z.outFull = v.outFull := by
  obtain ⟨arenaU, rootU⟩ := treeU
  obtain ⟨arenaW, rootW⟩ := treeW
  have place := readyS.ok.2 readyS.valid
  rcases found₁ : walk s.arena s.root s.wanted s.ucur (s.bitsToCome bs) with ⟨xs, n₁, un₁⟩
  obtain ⟨t', run, first⟩ := exec_unpack_walks readyS false found₁
  obtain rfl : t' = t := by
    rw [run] at runS
    injection runS
  have fewer := State.length_le_urem_of_walk found₁
  have cursorU : u.cursorOk := by
    have stands := walk_cursor s.wanted s.ucur (s.bitsToCome bs) place
    rw [found₁] at stands
    refine ⟨goesOn.ucnt ▸ first.ucnt, fun _ => ?_⟩
    rw [arenaU, rootU, goesOn.ucur, first.flags.1]
    exact stands
  have cursorW : w.cursorOk := by
    refine ⟨again.ucnt ▸ readyS.ok.1, fun _ => ?_⟩
    rw [arenaW, rootW, again.ucur]
    exact place
  rcases found₂ : walk s.arena s.root u.wanted u.ucur (u.bitsToCome (bs.drop t'.rin.toNat ++ more))
    with ⟨ys, n₂, un₂⟩
  have unread := walk_length (arena := s.arena) (root := s.root) u.wanted u.ucur
    (u.bitsToCome (bs.drop t'.rin.toNat ++ more))
  have found₃ := first.walk_both fewer goesOn again room found₁ found₂ roomAfterNeedIn
  rw [found₂] at unread
  rw [← arenaU, ← rootU] at found₂
  rw [← arenaW, ← rootW] at found₃
  obtain ⟨v, runV, second⟩ := exec_unpack_walks (readyU cursorU) f found₂
  obtain ⟨z, runZ, both⟩ := exec_unpack_walks (readyW cursorW) f found₃
  exact ⟨v, z, xs, ys, n₁, n₂, un₁, un₂, runV, runZ, first, second, both,
    first.cursor_both fewer goesOn again second both unread, first.flags_both fewer goesOn again second both room⟩

/-! ### The law -/

/-- Settles O36: PACK's bytes and accumulator are determined by the bits, and UNPACK's walk splits where the first
chunk ends. -/
theorem chunkingDoesNotChangeResults : Obligations.ChunkingDoesNotChangeResults := by
  refine ⟨?_, ?_⟩
  · intro f s t u v w z xs ys alike ok lenS lenU lenW inputS inputU inputW pbufU pcntU pbufW pcntW runS runU runW
      doneT doneV doneZ
    obtain ⟨rinS, routS, beforeS, -, -⟩ := alike s (by simp)
    obtain ⟨rinU, routU, beforeU, -, codeU⟩ := alike u (by simp)
    obtain ⟨rinW, routW, beforeW, -, codeW⟩ := alike w (by simp)
    obtain ⟨as, first⟩ := exec_pack_done lenS inputS ok rinS routS beforeS runS doneT
    have okU : u.packOk := by simpa only [State.packOk, pbufU, pcntU] using first.ok
    have okW : w.packOk := by simpa only [State.packOk, pbufW, pcntW] using ok
    obtain ⟨bs, second⟩ := exec_pack_done lenU inputU okU rinU routU beforeU runU doneV
    obtain ⟨cs, both⟩ := exec_pack_done lenW inputW okW rinW routW beforeW runW doneZ
    obtain ⟨rfl, pbuf, pcnt⟩ := first.chunks second both codeU codeW
      (by rw [State.pending, pbufU, pcntU, State.pending]) (by rw [State.pending, pbufW, pcntW, State.pending])
    exact ⟨as, bs, first.output, second.output, both.output, first.rout, second.rout, both.rout, pbuf, pcnt⟩
  · intro f s t u w bs more alike ok lenS inputS runS lenU inputU uremU ucurU ubufU ucntU lenW inputW uremW ucurW ubufW
      ucntW room roomAfterNeedIn
    obtain ⟨validS, fitS, needS, fullS, rinS, routS, -⟩ := alike s (by simp)
    obtain ⟨validU, fitU, needU, fullU, rinU, routU, doneU, errU, codeU, treeU⟩ := alike u (by simp)
    obtain ⟨validW, fitW, needW, fullW, rinW, routW, doneW, errW, codeW, treeW⟩ := alike w (by simp)
    obtain ⟨v, z, xs, ys, n₁, n₂, un₁, un₂, runV, runZ, first, second, both, ⟨rin, cursor⟩, needIn, outFull⟩ :=
      exec_unpack_chunks f ⟨fitS, validS, ok, lenS, inputS, needS, fullS, rinS, routS⟩ runS
        ⟨uremU, ucurU, ubufU, ucntU⟩ ⟨uremW, ucurW, ubufW, ucntW⟩ treeU treeW
        (fun okU => ⟨fitU, validU, okU, lenU, inputU, needU, fullU, rinU, routU⟩)
        (fun okW => ⟨fitW, validW, okW, lenW, inputW, needW, fullW, rinW, routW⟩) room roomAfterNeedIn
    obtain ⟨-, -, -, uvalid₂, done₂, err₂, errCode₂⟩ := second.flags
    obtain ⟨-, -, -, uvalid₃, done₃, err₃, errCode₃⟩ := both.flags
    refine ⟨v, z, xs, ys, runV, runZ, first.output, second.output, both.output, first.rout, second.rout, both.rout,
      rin, cursor.urem, cursor.ucur, cursor.ubuf, cursor.ucnt, needIn, outFull, ?_, ?_, ?_, ?_⟩
    · rw [uvalid₂, uvalid₃, needIn]
    · rw [done₂, done₃, needIn, doneU, doneW]
    · rw [err₂, err₃, needIn, errU, errW]
    · rw [errCode₂, errCode₃, needIn, codeU, codeW]

end Sys2Proof.Machine

/-! SUPPORT. HDRST and HDRLD whole (43_header.md R200 to R206): their checks, a header in memory byte by byte, and the
next state when they complete, with the header commands' obligations. -/

namespace Sys2Proof.Machine

/-! ### The checks -/

/-- Settles O37, check by check in each command's order. -/
theorem headerChecksInOrder : Obligations.HeaderChecksInOrder := by
  intro s
  have input := s.inputBeyond_iff
  have output := s.outputBeyond_iff
  refine ⟨fun beyond => ?_, fun fit short => ?_, fun beyond => ?_, fun fit short => ?_⟩
  · rw [exec_hdrst, execHdrst, if_pos (output.2 beyond)]
    rfl
  · rw [exec_hdrst, execHdrst, if_neg (mt output.1 fit.not_gt), if_pos (by simpa only [Config.headerBytes] using short)]
    rfl
  · rw [exec_hdrld, execHdrld, if_pos (input.2 beyond)]
    rfl
  · rw [exec_hdrld, execHdrld, if_neg (mt input.1 fit.not_gt), if_pos (by simpa only [Config.headerBytes] using short)]
    rfl

/-! ### A header in memory -/

/-- What an area holds, place by place. -/
theorem areaHolds_iff {m : Memory} {a : Nat} {bs : List Byte} :
    AreaHolds m a bs ↔ ∀ (k : Nat) (b : Byte), bs[k]? = some b → Memory.read m (a + k) = some b := by
  refine ⟨fun holds k b found => ?_, fun found k hk => found k _ (List.getElem?_eq_getElem hk)⟩
  obtain ⟨hk, rfl⟩ := List.getElem?_eq_some_iff.1 found
  exact holds k hk

/-- A header stands at `a` exactly when its bytes are TOTAL's eight and then eight of each count (43_header.md R200). -/
theorem areaHolds_headerImage_iff {m : Memory} {a : Nat} {total : Count} {freq : Vector Count 256} :
    AreaHolds m a (headerImage total freq.toList) ↔
      (∀ k, k < 8 → Memory.read m (a + k) = some (byteOf total k)) ∧
      ∀ (b : Symbol) (k : Nat), k < 8 → Memory.read m (a + 8 + 8 * b.toNat + k) = some (byteOf (atSym freq b) k) := by
  have ofTotal {k : Nat} : k < 8 → (headerImage total freq.toList)[k]? = some (byteOf total k) :=
    headerImage_total total freq.toList
  have ofCount (b : Symbol) {k : Nat} :
      k < 8 → (headerImage total freq.toList)[8 + 8 * b.toNat + k]? = some (byteOf (atSym freq b) k) :=
    headerImage_count total freq.toList (by simpa using b.isLt)
  simp only [Nat.add_assoc a, areaHolds_iff]
  refine ⟨fun found => ⟨fun k hk => found k _ (ofTotal hk), fun b k hk => found _ _ (ofCount b hk)⟩, ?_⟩
  rintro ⟨readTotal, readCount⟩ k x found
  by_cases first : k < 8
  · rw [readTotal k first, ← ofTotal first, found]
  · have inside : k < 2056 := by simpa using (List.getElem?_eq_some_iff.1 found).1
    obtain ⟨b, j, hj, rfl⟩ : ∃ (b : Symbol) (j : Nat), j < 8 ∧ k = 8 + 8 * b.toNat + j :=
      ⟨BitVec.ofNat 8 ((k - 8) / 8), (k - 8) % 8, by omega, by rw [BitVec.toNat_ofNat]; omega⟩
    rw [readCount b j hj, ← ofCount b hj, found]

/-! ### The commands -/

/-- HDRST's stores over a defined table. -/
theorem storeHeader_defined {s : State} (defined : s.allFreqDefined = true) :
    storeHeader s = { s with
      mem := Memory.writeAll s.mem s.lDst.toNat (headerImage s.total s.freq.toList)
      rout := 2056#32, busy := false, done := true } := by
  unfold storeHeader
  rw [State.readAllFreq_defined defined]
  rfl

/-- HDRST with room and a defined table: the whole next state (43_header.md R201, R202). -/
theorem exec_hdrst_stores {s : State} (fit : s.lDst.toNat + s.lDlen.toNat ≤ s.memBytes) (room : 2056 ≤ s.lDlen.toNat)
    (defined : s.allFreqDefined = true) :
    exec .hdrst s = .next { s with
      mem := Memory.writeAll s.mem s.lDst.toNat (headerImage s.total s.freq.toList)
      rout := 2056#32, busy := false, done := true } := by
  rw [exec_hdrst, execHdrst, if_neg (mt s.outputBeyond_iff.1 fit.not_gt),
    if_neg (by simpa only [Config.headerBytes] using room.not_gt), storeHeader_defined defined]

/-- HDRLD over a header: the whole next state (43_header.md R205, R206). -/
theorem exec_hdrld_loads {s : State} {total : Count} {freq : Vector Count 256}
    (fit : s.lSrc.toNat + s.lSlen.toNat ≤ s.memBytes) (long : 2056 ≤ s.lSlen.toNat)
    (holds : AreaHolds s.mem s.lSrc.toNat (headerImage total freq.toList)) :
    exec .hdrld s = .next { s with
      total := total, freq := freq, fdefLo := Vector.replicate 256 true, fdefHi := Vector.replicate 256 true,
      treeValid := false, uvalid := false, rin := 2056#32, busy := false, done := true } := by
  rw [exec_hdrld, execHdrld, if_neg (mt s.inputBeyond_iff.1 fit.not_gt),
    if_neg (by simpa only [Config.headerBytes] using long.not_gt), loadHeader_image holds]
  rfl

/-- Settles O38: the bytes stored are a header, and its 2056 bytes are all that is stored. -/
theorem hdrstWritesTheHeader : Obligations.HdrstWritesTheHeader := by
  intro s fit room defined
  obtain ⟨ofTotal, ofCount⟩ := areaHolds_headerImage_iff.1
    (areaHolds_writeAll s.mem s.lDst.toNat (headerImage s.total s.freq.toList))
  refine ⟨_, exec_hdrst_stores fit room defined, ofTotal, ofCount, fun a outside => ?_, rfl⟩
  exact Memory.read_writeAll_outside s.mem (by simpa using outside)

/-- Settles O39: the bytes in the area are a header, which HDRLD loads. -/
theorem hdrldLoadsTheHeader : Obligations.HdrldLoadsTheHeader :=
  fun _ _ _ fit long ofTotal ofCount => exec_hdrld_loads fit long (areaHolds_headerImage_iff.2 ⟨ofTotal, ofCount⟩)

/-- Settles O40: the header that HDRST stored stands where HDRLD reads. -/
theorem hdrldInvertsHdrst : Obligations.HdrldInvertsHdrst := by
  intro s t fit room defined stores u mem memBytes lSrc lSlen
  obtain rfl := Host.Outcome.next.inj ((exec_hdrst_stores fit room defined).symm.trans stores)
  have holds : AreaHolds u.mem u.lSrc.toNat (headerImage s.total s.freq.toList) := by
    rw [mem, lSrc]
    exact areaHolds_writeAll _ _ _
  have loads := exec_hdrld_loads (by rwa [lSrc, lSlen, memBytes]) (by rwa [lSlen]) holds
  exact ⟨_, loads, rfl, rfl, (State.allFreqDefined_iff _).2 fun b => by simp [State.freqDefined], rfl⟩

end Sys2Proof.Machine

/-! SUPPORT. The Engine's turn, busy and idle, taken from the agenda or owed to it (44_control.md R216, 60_exceptions.md
R244), and NOP (44_control.md R215). -/

namespace Sys2Proof.Machine

/-! ### The turn of a step -/

theorem step_agenda_nil {s : State} (next : s.agenda = []) : step s = takeTurn .engine s := by
  rw [step, advance, next]

theorem step_agenda_cons {s : State} {turn : Turn} {rest : List Turn} (next : s.agenda = turn :: rest) :
    step s = takeTurn turn { s with agenda := rest } := by
  rw [step, advance, next]

theorem takeTurn_engine_busy {s : State} (run : s.busy = true) : takeTurn .engine s = engineStep s :=
  if_pos run

theorem takeTurn_engine_idle {s : State} (idle : s.busy = false) : takeTurn .engine s = .next s :=
  if_neg (Bool.eq_false_iff.1 idle)

/-! ### The obligations -/

/-- Settles O4: a busy Engine performs the command that the accepted word decodes to, whether its turn stood on the
agenda or not. -/
theorem stepRunsTheDecodedCommand : Obligations.StepRunsTheDecodedCommand := by
  intro s i run decoded
  refine ⟨fun rest next => (step_engine run next).trans (engineStep_ok decoded), fun next => ?_⟩
  rw [step_agenda_nil next, takeTurn_engine_busy run, engineStep_ok decoded]

/-- Settles O5: the turn of an idle Engine is the state as it is. -/
theorem idleKeepsTheState : Obligations.IdleKeepsTheState := by
  intro s idle
  exact ⟨fun next => (step_agenda_nil next).trans (takeTurn_engine_idle idle),
    fun _ next => (step_agenda_cons next).trans (takeTurn_engine_idle idle)⟩

/-- Settles O8: the word 0 is NOP's encoding, and NOP is completion alone. -/
theorem nopOnlyCompletes : Obligations.NopOnlyCompletes :=
  ⟨decodeWord_encode .nop, exec_nop⟩

end Sys2Proof.Machine

/-! SUPPORT. How every command ends (60_exceptions.md R229 to R231, R236): there is always a next state, and in it the
command has completed or reported an error. -/

namespace Sys2Proof.Machine

/-- No command faults and none is refused, on any path. -/
theorem exec_total (i : Instr) (s : State) : ∃ t, exec i s = .next t := by
  cases i <;> exact ⟨_, rfl⟩

theorem execNop_ends {s t : State} (e : execNop s = .next t) : Ends s t := by
  injection e with e
  subst e
  exact ⟨rfl, .inl ⟨rfl, rfl, rfl, rfl⟩⟩

/-- Every command ends by completion or by an error that is reported, on every path. -/
theorem exec_ends {i : Instr} {s t : State} (e : exec i s = .next t) : Ends s t := by
  cases i with
  | nop => exact execNop_ends e
  | fclr => exact (execFclr_changes e).2
  | hist => exact (execHist_changes e).2
  | build => exact (execBuild_changes e).2
  | pack f => exact (execPack_changes e).2
  | unpack f => exact (execUnpack_changes e).1.2
  | uinit => exact (execUinit_changes e).2.1
  | pinit => exact (execPinit_changes e).1.2
  | hdrst => exact (execHdrst_changes e).2.1
  | hdrld => exact (execHdrld_changes e).2

/-- Settles O43: with DONE and ERR clear at the start, the bit that the command's end leaves alone is 0. -/
theorem commandsEndInDoneOrInErr : Obligations.CommandsEndInDoneOrInErr := by
  intro i s hdone herr hcode
  obtain ⟨t, e⟩ := exec_total i s
  obtain ⟨idle, ⟨done, err, code, info⟩ | ⟨done, err, code⟩⟩ := exec_ends e
  · exact ⟨t, e, idle, .inl ⟨done, err.trans herr, code.trans hcode, info⟩⟩
  · exact ⟨t, e, idle, .inr ⟨done.trans hdone, err, code⟩⟩

end Sys2Proof.Machine

/-! SUPPORT. Soft reset: the CTRL write that performs it, and what the abort of the running command makes undefined
(70_reset_and_hazards.md R262 to R264). -/

namespace Sys2Proof.Machine

/-! ### The CTRL write with SRST = 1 -/

theorem State.writeCtrl_softReset {s : State} {v : Word} (srst : v.getLsbD 0 = true) :
    s.writeCtrl v = { s.softReset with ieDone := v.getLsbD 1, ieErr := v.getLsbD 2 } := by
  rw [State.writeCtrl, if_pos srst]

theorem hostAccess_write_softReset {s : State} {v : Word} (srst : v.getLsbD 0 = true) :
    hostAccess (.write .word 0x008 v) s =
      .next ({ s.softReset with ieDone := v.getLsbD 1, ieErr := v.getLsbD 2 }.answer .done) := by
  rw [← State.writeCtrl_softReset srst]
  exact hostAccess_write_reg s .ctrl v

/-! ### The write set of the running command -/

theorem State.inWriteSet_ok {s : State} {i : Instr} (run : s.busy = true) (decoded : decodeWord s.cmdLast = .ok i)
    (a : Nat) : s.inWriteSet a = inArea (s.writeArea i) a := by
  simp only [State.inWriteSet, decoded, run, Bool.true_and]

theorem State.inWriteSet_error {s : State} {u : Undecodable} (decoded : decodeWord s.cmdLast = .error u) (a : Nat) :
    s.inWriteSet a = false := by
  rw [State.inWriteSet, decoded]

/-- The write set lies in the output area of PACK and UNPACK, and in the header's part of it for HDRST
(20_memory.md R82). -/
theorem State.inWriteSet_iff {s : State} (run : s.busy = true) (a : Nat) :
    s.inWriteSet a = true ↔
      s.lDst.toNat ≤ a ∧ a < s.lDst.toNat + s.lDlen.toNat ∧
        ((∃ f, decodeWord s.cmdLast = .ok (.pack f)) ∨ (∃ f, decodeWord s.cmdLast = .ok (.unpack f)) ∨
          (decodeWord s.cmdLast = .ok .hdrst ∧ a < s.lDst.toNat + 2056)) := by
  cases decoded : decodeWord s.cmdLast with
  | error u => simp [State.inWriteSet_error decoded]
  | ok i =>
    rw [State.inWriteSet_ok run decoded, inArea_iff]
    cases i with
    | nop | fclr | hist | build | uinit | pinit | hdrld => simp [State.writeArea]
    | pack f | unpack f => simp [State.writeArea]
    | hdrst => simp [State.writeArea, Config.headerBytes, ← Nat.add_min_add_left]

/-! ### The abort -/

theorem State.abort_idle {s : State} (idle : s.busy = false) : s.abort = s :=
  if_neg (Bool.eq_false_iff.1 idle)

/-- What the abort of the running command does to a state (70_reset_and_hazards.md R263): definedness of the table and
of memory is all that it takes. -/
structure Aborts (s t : State) : Prop where
  /-- No register changes, and no count, tree node or code. -/
  frame : t = { s with fdefLo := t.fdefLo, fdefHi := t.fdefHi, mem := t.mem, epoch := t.epoch }
  /-- A command that writes the table leaves no word of it defined. -/
  table :
    if decodeWord s.cmdLast = .ok .fclr ∨ decodeWord s.cmdLast = .ok .hist ∨ decodeWord s.cmdLast = .ok .hdrld then
      ∀ b, atSym t.fdefLo b = false ∧ atSym t.fdefHi b = false
    else t.fdefLo = s.fdefLo ∧ t.fdefHi = s.fdefHi
  /-- The bytes of the write set are forgotten. -/
  memory : ∀ a, Memory.read t.mem a = if s.inWriteSet a = true then none else Memory.read s.mem a

theorem State.abort_aborts {s : State} (run : s.busy = true) : Aborts s s.abort := by
  rw [State.abort, if_pos run]
  cases decoded : decodeWord s.cmdLast with
  | error u => exact ⟨rfl, by simp [decoded], by simp [State.inWriteSet_error decoded]⟩
  | ok i =>
    have inSet := State.inWriteSet_ok run decoded
    cases i with
    | fclr | hist | hdrld => exact ⟨rfl, by simp [decoded], by simp [inSet, inArea_iff, State.writeArea]⟩
    | pack f | unpack f | hdrst =>
      exact ⟨rfl, by simp [decoded], by simp [inSet, inArea_iff, Memory.read_forget]⟩
    | nop | build | uinit | pinit => exact ⟨rfl, by simp [decoded], by simp [inSet, inArea_iff, State.writeArea]⟩

theorem Aborts.freq {s t : State} (h : Aborts s t) : t.freq = s.freq := by rw [h.frame]

theorem Aborts.arena {s t : State} (h : Aborts s t) : t.arena = s.arena := by rw [h.frame]

theorem Aborts.codeV {s t : State} (h : Aborts s t) : t.codeV = s.codeV := by rw [h.frame]

theorem Aborts.code {s t : State} (h : Aborts s t) : t.code = s.code := by rw [h.frame]

/-! ### The obligations -/

/-- Settles O46: of the registers an abort leaves nothing that the reset does not clear, and of the storage it takes
the definedness that `Aborts` names. -/
theorem softResetUndefinesWhatItAborts : Obligations.SoftResetUndefinesWhatItAborts := by
  intro s v run srst
  have aborts := State.abort_aborts run
  refine ⟨_, hostAccess_write_softReset srst, ?_, ?_, fun _ => ⟨aborts.arena, aborts.codeV, aborts.code⟩, fun a => ?_⟩
  · rw [State.softReset, aborts.frame]
    rfl
  · have table := aborts.table
    split_ifs at table ⊢
    · exact table
    · exact ⟨aborts.freq, table⟩
  · refine (aborts.memory a).trans ?_
    simp only [State.inWriteSet_iff run]

/-- Settles O45: with BUSY = 0 there is nothing to abort. -/
theorem softResetKeepsTheStorage : Obligations.SoftResetKeepsTheStorage := by
  intro s v idle srst
  rw [hostAccess_write_softReset srst, State.softReset, State.abort_idle idle, State.clearRegisters]

end Sys2Proof.Machine

/-! SUPPORT. The model fault UNDEF_READ (60_exceptions.md R240, log entry 1): a command or a Host access at most records
it, no reset forgets it, and BUILD over a table that is not defined does record it. -/

namespace Sys2Proof.Machine

/-! ### Host accesses and the resets leave the record as it is -/

/-- An abort takes definedness of the storage, not the record of a fault. -/
@[simp] theorem State.abort_undefRead (s : State) : s.abort.undefRead = s.undefRead := by
  cases run : s.busy with
  | false => rw [State.abort_idle run]
  | true => rw [(State.abort_aborts run).frame]

@[simp] theorem State.writeCtrl_undefRead (s : State) (v : Word) : (s.writeCtrl v).undefRead = s.undefRead := by
  cases srst : v.getLsbD 0 with
  | false => rw [State.writeCtrl_enables srst]
  | true => simp [State.writeCtrl_softReset srst, State.softReset]

@[simp] theorem State.writeStatus_undefRead (s : State) (v : Word) : (s.writeStatus v).undefRead = s.undefRead := by
  rw [s.writeStatus_eq]

@[simp] theorem State.writeCmd_undefRead (s : State) (w : Word) : (s.writeCmd w).undefRead = s.undefRead := by
  unfold State.writeCmd
  split_ifs <;> rfl

theorem State.unlessBusy_undefRead {s put : State} (same : put.undefRead = s.undefRead) :
    (s.unlessBusy put).undefRead = s.undefRead := by
  unfold State.unlessBusy
  split_ifs
  · rfl
  · exact same

@[simp] theorem State.writeRegister_undefRead (s : State) (r : Reg) (v : Word) :
    (s.writeRegister r v).undefRead = s.undefRead := by
  cases r with
  | ctrl => exact s.writeCtrl_undefRead v
  | status => exact s.writeStatus_undefRead v
  | cmd => exact s.writeCmd_undefRead v
  | totalLo | totalHi | freqLo b | freqHi b => exact State.unlessBusy_undefRead rfl
  | _ => rfl

@[simp] theorem State.busWrite_undefRead (s : State) (w : Width) (off : Nat) (v : Word) :
    (s.busWrite w off v).2.undefRead = s.undefRead := by
  unfold State.busWrite
  cases route s.memBytes w off with
  | register r => exact s.writeRegister_undefRead r v
  | window a | outside | refused | reserved => rfl

/-- A Host read of an undefined place is no model fault. -/
@[simp] theorem State.busRead_undefRead (s : State) (w : Width) (off : Nat) :
    (s.busRead w off).2.undefRead = s.undefRead := by
  rw [s.busRead_state w off]

/-! ### Commands and steps keep a recorded fault -/

section
variable {s t : State} (recorded : s.undefRead = true)
include recorded

theorem exec_keeps_undefRead (i : Instr) (e : exec i s = .next t) : t.undefRead = true := by
  cases i with
  | nop => injection e with e; exact e ▸ recorded
  | fclr => exact (execFclr_changes e).1.undef recorded
  | hist => exact (execHist_changes e).1.undef recorded
  | build => exact (execBuild_changes e).1.2 recorded
  | pack f => exact (execPack_changes e).1.undef recorded
  | unpack f => exact (execUnpack_changes e).1.1.undef recorded
  | uinit => exact (execUinit_changes e).1.undef recorded
  | pinit => exact (execPinit_changes e).1.1.undef recorded
  | hdrst => exact (execHdrst_changes e).1.2 recorded
  | hdrld => exact (execHdrld_changes e).1.undef recorded

theorem Turned.keeps_undefRead (turned : Turned s t) : t.undefRead = true := by
  cases turned with
  | idle | badWord | hardReset => exact recorded
  | command i run decoded e => exact exec_keeps_undefRead recorded i e
  | read w off => exact (s.busRead_undefRead w off).trans recorded
  | write w off v quiet => exact (s.busWrite_undefRead w off v).trans recorded

end

/-! ### The obligations -/

/-- Settles O60, by what one turn can do. -/
theorem recordedFaultIsNeverCleared : Obligations.RecordedFaultIsNeverCleared := by
  intro s t recorded e
  obtain ⟨rest, turned⟩ := step_cases e
  have popped : State.undefRead { s with agenda := rest } = true := recorded
  exact turned.keeps_undefRead popped

/-- Settles O24: BUILD reads every word of the table before it builds, so it meets the undefined one, and what it builds
after that ends in completion. -/
theorem buildOverAnUndefinedTableIsRecorded : Obligations.BuildOverAnUndefinedTableIsRecorded := by
  intro s undefined
  refine ⟨_, execBuild_eq s, ?_, rfl, rfl⟩
  rw [State.complete_undefRead, buildFrom_undefRead, State.readAllFreq_undefined undefined]

end Sys2Proof.Machine

/-! SUPPORT. UNPACK that finds its output area full before the first pass (42_bitcodec.md R177, log entry 13). -/

namespace Sys2Proof.Machine

/-- With symbols still to come and no room for one, a pass leaves the loop, and OUT_FULL is all that it sets. -/
theorem unpackPass_full {x : Walk} (more : x.st.urem ≠ 0#64) (full : x.out = x.st.lDlen.toNat) :
    unpackPass x = .leave { x with st := { x.st with outFull := true } } := by
  rw [unpackPass, if_neg more, if_pos full]

/-- UNPACK whose first pass leaves the loop finishes the walk which that pass left. -/
theorem unpackAll_leave {f : Bool} {s : State} {x : Walk}
    (left : unpackPass { st := s, inp := 0, out := 0 } = .leave x) :
    unpackAll f s = finishUnpack f x := by
  rw [unpackAll, unpackBound, unpackLoop, left]

/-- Settles O35: the first pass leaves the loop with OUT_FULL, and as neither NEED_IN nor the count ends the command,
it completes. -/
theorem unpackWithoutRoomStopsAtOnce : Obligations.UnpackWithoutRoomStopsAtOnce := by
  intro f s valid fit noRoom more needIn
  have full : 0 = s.lDlen.toNat := by simp [noRoom]
  have left := unpackPass_full (x := { st := s, inp := 0, out := 0 }) more full
  rw [exec_unpack, execUnpack_passes fit valid, unpackAll_leave left]
  simp [finishUnpack, needIn, more, State.complete]

end Sys2Proof.Machine
